-- ==== Sys2Proof/Word.lean ====
section
/-! DEFINITION. The word types of the block: the 32-bit bus and command word, the byte, the register index. -/

namespace Sys2Proof

/-- A 32-bit bus word or command word (20_memory.md R60, 30_encoding.md R90). -/
abbrev Word := BitVec 32

/-- A byte of a buffer, or the ERRCODE field. -/
abbrev Byte := BitVec 8

/-- An operand register index: `NREG` is fixed at 16 and every 4-bit value names a register
(00_scope.md R6, 30_encoding.md R93). -/
abbrev RegIx := Fin 16

end Sys2Proof
end

