-- ==== Sys2Proof/Syntax.lean ====
section
/-! DEFINITION. The commands of the block as syntax: one constructor per row of spec/opcode_table.json. -/

namespace Sys2Proof

/-- The method bit L of MODEXP (42_modular.md R170; 30_encoding.md R94, R99). -/
inductive Method where
  | binary
  | ladder
  deriving DecidableEq, Repr

/-- A command (30_encoding.md R96). Operands stand in field order, F1 first, as in R106. -/
inductive Instr where
  | nop
  | mov (rd rs : RegIx)
  | ldi (rd : RegIx) (imm22 : BitVec 22)
  | mrtest (rd rn : RegIx) (rounds : Fin 64)
  | mrround (rd rn ra : RegIx)
  | mrdecomp (rd rr rn : RegIx)
  | modexp (rd rb re rm : RegIx) (method : Method)
  | gcd (rd ra rb : RegIx)
  | xgcd (rg rx ry ra rb : RegIx)
  | modinv (rd ra rm : RegIx)
  | bsize (rd rn : RegIx)
  | bsplit (rd rn : RegIx)
  | bjoin (rs : RegIx)
  | utf8chk
  deriving DecidableEq, Repr

end Sys2Proof
end

