-- ==== Sys2Proof/WellFormed.lean ====
section
/-! DEFINITION. The legality of a command beyond what its syntax already fixes: distinct destination fields. -/

namespace Sys2Proof

/-- The registers a command writes, the primary destination first ("dests" of 30_encoding.md R96). -/
def Instr.dests : Instr → List RegIx
  | .nop => []
  | .mov rd _ => [rd]
  | .ldi rd _ => [rd]
  | .mrtest rd _ _ => [rd]
  | .mrround rd _ _ => [rd]
  | .mrdecomp rd rr _ => [rd, rr]
  | .modexp rd _ _ _ _ => [rd]
  | .gcd rd _ _ => [rd]
  | .xgcd rg rx ry _ _ => [rg, rx, ry]
  | .modinv rd _ _ => [rd]
  | .bsize rd _ => [rd]
  | .bsplit rd _ => [rd]
  | .bjoin _ => []
  | .utf8chk => []

/-- The registers a command reads, in the order they are checked ("sources" of 30_encoding.md R96). -/
def Instr.sources : Instr → List RegIx
  | .nop => []
  | .mov _ rs => [rs]
  | .ldi _ _ => []
  | .mrtest _ rn _ => [rn]
  | .mrround _ rn ra => [rn, ra]
  | .mrdecomp _ _ rn => [rn]
  | .modexp _ rb re rm _ => [rb, re, rm]
  | .gcd _ ra rb => [ra, rb]
  | .xgcd _ _ _ ra rb => [ra, rb]
  | .modinv _ ra rm => [ra, rm]
  | .bsize _ rn => [rn]
  | .bsplit _ rn => [rn]
  | .bjoin rs => [rs]
  | .utf8chk => []

/-- A command is well formed when no register stands in two destination fields (30_encoding.md R100). The field
ranges of R91 to R95 hold by the types of `Instr`. -/
def Instr.wellFormed (i : Instr) : Bool := decide i.dests.Nodup

end Sys2Proof
end

