-- ==== Sys2Proof/Decode.lean ====
section
/-! DEFINITION. Decoding a command word (total, rejecting by name), and after it the encoder. -/

namespace Sys2Proof

/-- Why a word is no command: the first two checks of 30_encoding.md R102. Both complete with ILLEGAL. -/
inductive DecodeError where
  /-- 30_encoding.md R97: OPC is not in R96. -/
  | unassignedOpcode
  /-- 30_encoding.md R98: a reserved field or bit is not 0. -/
  | reservedBits
  deriving DecidableEq, Repr

/-- Bits 31:26 (30_encoding.md R91). -/
def opcOf (w : Word) : BitVec 6 := w.extractLsb' 26 6
/-- Bits 25:22. -/
def f1Of (w : Word) : RegIx := (w.extractLsb' 22 4).toFin
/-- Bits 21:18. -/
def f2Of (w : Word) : RegIx := (w.extractLsb' 18 4).toFin
/-- Bits 17:14. -/
def f3Of (w : Word) : RegIx := (w.extractLsb' 14 4).toFin
/-- Bits 13:10. -/
def f4Of (w : Word) : RegIx := (w.extractLsb' 10 4).toFin
/-- Bits 9:6. -/
def f5Of (w : Word) : RegIx := (w.extractLsb' 6 4).toFin
/-- Bits 5:0 (30_encoding.md R94). -/
def imm6Of (w : Word) : BitVec 6 := w.extractLsb' 0 6
/-- Bits 21:0 (30_encoding.md R92). -/
def imm22Of (w : Word) : BitVec 22 := w.extractLsb' 0 22

/-- The method that bit 0 selects (30_encoding.md R94). -/
def methodOf (w : Word) : Method := if w.getLsbD 0 then .ladder else .binary

/-- Accept `i` when the reserved bits of its row are 0: the mask bits of 30_encoding.md R96 outside bits 31:26
(R98). -/
def takeRow (w mask : Word) (i : Instr) : Except DecodeError Instr :=
  if w &&& mask &&& 0x03FFFFFF#32 = 0#32 then .ok i else .error .reservedBits

/-- The decoder: the rows of 30_encoding.md R96 with their masks. The third check of R102, distinct destinations, is
the engine's and stands in the meanings of XGCD and MRDECOMP (log 15). -/
def decode (w : Word) : Except DecodeError Instr :=
  match (opcOf w).toNat with
  | 0x00 => takeRow w 0xFFFFFFFF#32 .nop
  | 0x01 => takeRow w 0xFC03FFFF#32 (.mov (f1Of w) (f2Of w))
  | 0x02 => takeRow w 0xFC000000#32 (.ldi (f1Of w) (imm22Of w))
  | 0x08 => takeRow w 0xFC03FFC0#32 (.mrtest (f1Of w) (f2Of w) (imm6Of w).toFin)
  | 0x09 => takeRow w 0xFC003FFF#32 (.mrround (f1Of w) (f2Of w) (f3Of w))
  | 0x0A => takeRow w 0xFC003FFF#32 (.mrdecomp (f1Of w) (f2Of w) (f3Of w))
  | 0x10 => takeRow w 0xFC0003FE#32 (.modexp (f1Of w) (f2Of w) (f3Of w) (f4Of w) (methodOf w))
  | 0x11 => takeRow w 0xFC003FFF#32 (.gcd (f1Of w) (f2Of w) (f3Of w))
  | 0x12 => takeRow w 0xFC00003F#32 (.xgcd (f1Of w) (f2Of w) (f3Of w) (f4Of w) (f5Of w))
  | 0x13 => takeRow w 0xFC003FFF#32 (.modinv (f1Of w) (f2Of w) (f3Of w))
  | 0x18 => takeRow w 0xFC03FFFF#32 (.bsize (f1Of w) (f2Of w))
  | 0x19 => takeRow w 0xFC03FFFF#32 (.bsplit (f1Of w) (f2Of w))
  | 0x1A => takeRow w 0xFFC3FFFF#32 (.bjoin (f2Of w))
  | 0x1B => takeRow w 0xFFFFFFFF#32 .utf8chk
  | _ => .error .unassignedOpcode

/-- The decoder on an opcode-table word of `nbits` bits. Every command is one 32-bit word (30_encoding.md R90), so the
bits above `nbits` are 0 and a longer word is none (log 18). -/
def decodeTableWord (nbits w : Nat) : Option Instr :=
  if nbits ≤ 32 then (decode (BitVec.ofNat 32 (w % 2 ^ nbits))).toOption else none

/-- Format R (30_encoding.md R91, R108). -/
def formatR (opc : BitVec 6) (f1 f2 f3 f4 f5 : RegIx) (imm6 : BitVec 6) : Word :=
  opc ++ BitVec.ofFin (w := 4) f1 ++ BitVec.ofFin (w := 4) f2 ++ BitVec.ofFin (w := 4) f3 ++
    BitVec.ofFin (w := 4) f4 ++ BitVec.ofFin (w := 4) f5 ++ imm6

/-- Format I (30_encoding.md R92, R108). -/
def formatI (opc : BitVec 6) (f1 : RegIx) (imm22 : BitVec 22) : Word :=
  opc ++ BitVec.ofFin (w := 4) f1 ++ imm22

/-- IMM6 of MODEXP: bit 0 is L, bits 5:1 are reserved (30_encoding.md R94, R99). -/
def Method.imm6 : Method → BitVec 6
  | .binary => 0#6
  | .ladder => 1#6

/-- The encoder: the fields of each command as 30_encoding.md R106 lays them out. -/
def encode : Instr → Word
  | .nop => formatR 0x00#6 0 0 0 0 0 0#6
  | .mov rd rs => formatR 0x01#6 rd rs 0 0 0 0#6
  | .ldi rd imm22 => formatI 0x02#6 rd imm22
  | .mrtest rd rn rounds => formatR 0x08#6 rd rn 0 0 0 (BitVec.ofFin (w := 6) rounds)
  | .mrround rd rn ra => formatR 0x09#6 rd rn ra 0 0 0#6
  | .mrdecomp rd rr rn => formatR 0x0A#6 rd rr rn 0 0 0#6
  | .modexp rd rb re rm method => formatR 0x10#6 rd rb re rm 0 method.imm6
  | .gcd rd ra rb => formatR 0x11#6 rd ra rb 0 0 0#6
  | .xgcd rg rx ry ra rb => formatR 0x12#6 rg rx ry ra rb 0#6
  | .modinv rd ra rm => formatR 0x13#6 rd ra rm 0 0 0#6
  | .bsize rd rn => formatR 0x18#6 rd rn 0 0 0 0#6
  | .bsplit rd rn => formatR 0x19#6 rd rn 0 0 0 0#6
  | .bjoin rs => formatR 0x1A#6 0 rs 0 0 0 0#6
  | .utf8chk => formatR 0x1B#6 0 0 0 0 0 0#6

end Sys2Proof
end

