-- ==== Sys2Proof/Config.lean ====
section
/-! DEFINITION. What an implementation of the block fixes (its parameters), and the values the spec leaves free. -/

namespace Sys2Proof

/-- The implementation parameters: OPW, MSGCAP, OUTCAP and MRT_BASE
(00_scope.md R5, R7; 20_memory.md R63; 93_implementation_defined.md I1 to I3). The state carries them and no step
writes them, so every statement over states is a statement over parameters (00_scope.md R8; log 1). -/
structure Params where
  opw     : Nat
  msgCap  : Nat
  outCap  : Nat
  mrtBase : Nat
  deriving DecidableEq, Repr

/-- The legal parameters (00_scope.md R5, R7). -/
abbrev Params.Legal (p : Params) : Prop :=
  (p.opw % 32 = 0 ∧ 64 ≤ p.opw ∧ p.opw ≤ 32768) ∧
  (p.msgCap % 4 = 0 ∧ 4 ≤ p.msgCap ∧ p.msgCap ≤ 16384) ∧
  (p.outCap % 4 = 0 ∧ 4 ≤ p.outCap ∧ p.outCap ≤ 16384)

/-- The defaults of 00_scope.md R5 and R7. DESIGN CHOICE (log 1): MRT_BASE has no default in the spec, 0 here. -/
def Params.default : Params := { opw := 4096, msgCap := 4096, outCap := 4096, mrtBase := 0 }

/-- The two byte buffers (10_state.md R28, R31). -/
inductive Buf where
  | msg
  | out
  deriving DecidableEq, Repr

/-- Free value: what a buffer byte reads as that nothing has written since reset, one draw per byte, stable until the
byte is written (20_memory.md R84, 93 I8). The arguments are the reset's number, the buffer and the index (log 5). -/
opaque Config.unwrittenByte : Nat → Buf → Nat → Byte

/-- Free value: what a host read returns that the spec lets return any value while BUSY = 1
(10_state.md R43, 93 I6). The argument is the number of draws so far (log 6). -/
opaque Config.busyRead : Nat → Word

/-- Free value: the value of `x[i]` after a VALID write has cleared `V[i]` (10_state.md R26, 93 I5). The arguments are
the number of draws so far and the register (log 4). -/
opaque Config.clearedRegister : Nat → RegIx → Nat

end Sys2Proof
end

