-- ==== Sys2Proof/Machine/State.lean ====
section
/-! DEFINITION. The state of the block and of the outside world's pending actions, the reasons a step can stop, and
the state after reset. -/

namespace Sys2Proof.Machine

/-- The error codes of 60_exceptions.md R288, `noError` for 0x00. -/
inductive ErrCode where
  | noError
  | illegal
  | unwritten
  | operand
  | invalidInput
  | keygen
  | encryption
  | decryption
  | signature
  | noInverse
  | outfull
  | blocksize
  deriving DecidableEq, Repr

/-- The fields of STATUS (10_state.md R36). -/
structure Status where
  busy    : Bool
  done    : Bool
  err     : Bool
  ovr     : Bool
  p       : Bool
  z       : Bool
  u       : Bool
  e       : Bool
  errCode : ErrCode
  deriving DecidableEq, Repr

/-- A buffer's contents: the bytes written since reset, by index, indexes strictly rising (`Memory.wf`). An index that
is not listed holds an unspecified byte (20_memory.md R84; log 5). -/
abbrev Memory := List Host.Cell

/-- One action of the outside world, consumed by one step (log 7). -/
inductive Input where
  /-- A host write: platform byte address, enabled byte lanes, data (20_memory.md R60, R61). -/
  | write (addr : Nat) (lanes : BitVec 4) (data : Word)
  /-- A host read: platform byte address, enabled byte lanes. -/
  | read (addr : Nat) (lanes : BitVec 4)
  /-- The witness source delivers a base (60_exceptions.md R300). -/
  | witness (base : Nat)
  /-- The reset input goes to a level (70_reset_and_hazards.md R320). -/
  | rst (level : Bool)
  /-- The outside world does nothing in this step: the engine has its turn. -/
  | engine
  deriving DecidableEq, Repr

/-- The block's response to a host access: the error flag, and the data of a read (20_memory.md R61, R62). -/
structure BusResp where
  error : Bool
  data  : Option Word
  deriving DecidableEq, Repr

/-- The state: everything spec/10_state.md gives the block, the level on `rst`, what the outside world does next, and
the counters that number the free values. INVENTORY.md lists the fields with their rules. -/
structure State where
  params  : Params
  x       : Vector Nat 16
  valid   : BitVec 16
  msgBuf  : Memory
  msgLen  : Nat
  msgPtr  : Nat
  outBuf  : Memory
  outLen  : Nat
  rsel    : RegIx
  ie      : Bool
  status  : Status
  lastCmd : Word
  cmdCnt  : Word
  rst     : Bool
  inputs  : List Input
  witness : List Nat
  resp    : Option BusResp
  draws   : Nat
  epoch   : Nat
  deriving DecidableEq, Repr

/-- The block stops with no fault: a command error is a completion (60_exceptions.md R287, R291), a bad access an error
response (20_memory.md R61, R62), and waiting for a witness a state (R301). Nothing raises one (log 17). -/
inductive Fault where
  deriving DecidableEq, Repr

/-- Why a step has no meaning. -/
inductive Refusal where
  /-- Raised by `exec`'s arm of an instruction that has no meaning yet; safe. None is left. -/
  | notModelled (mnemonic : String)
  /-- Raised by MRTEST when the witness source delivers a base outside 2 .. n-2: "the block's behaviour is then not
  defined by this spec" (60_exceptions.md R300; 93 I19, treatment "refuse"); safe (log 9). -/
  | witnessOutOfContract
  deriving DecidableEq, Repr

/-- STATUS after reset (10_state.md R49). -/
def Status.reset : Status :=
  { busy := false, done := false, err := false, ovr := false, p := false, z := false, u := false, e := false,
    errCode := .noError }

/-- The block right after reset (10_state.md R49). `x` is unspecified there; 0 is a DESIGN CHOICE (log 3). The outside
world has nothing pending (log 7, log 8, log 11, log 20). -/
def State.reset : State :=
  { params := Params.default
    x := Vector.replicate 16 0
    valid := 0#16
    msgBuf := []
    msgLen := 0
    msgPtr := 0
    outBuf := []
    outLen := 0
    rsel := 0
    ie := false
    status := Status.reset
    lastCmd := 0x00000000#32
    cmdCnt := 0#32
    rst := false
    inputs := []
    witness := []
    resp := none
    draws := 0
    epoch := 0 }

end Sys2Proof.Machine
end

