-- ==== Sys2Proof/Machine/Ops.lean ====
section
/-! DEFINITION. The shared operations over registers, buffers and the command lifecycle: issue, completion with
success, completion with an error, reset. -/

namespace Sys2Proof.Machine

/-- What executing a command answers. -/
abbrev Result := Host.Outcome State Fault Refusal

/-! ### The operand register file -/

/-- `V[i]` (10_state.md R22). -/
def State.isValid (s : State) (i : RegIx) : Bool := s.valid.getLsbD i.val

/-- `x[i]` (10_state.md R20). -/
def State.reg (s : State) (i : RegIx) : Nat := s.x[i.val]

/-- `x[i] <- v`, which sets `V[i] <- 1` (00_scope.md R11, 10_state.md R23). -/
def State.setReg (s : State) (i : RegIx) (v : Nat) : State :=
  { s with x := s.x.set i.val v, valid := s.valid ||| BitVec.twoPow 16 i.val }

/-! ### The buffers -/

/-- The byte listed at an index, if one is. -/
def Memory.lookup : Memory → Nat → Option Byte
  | [], _ => none
  | (c, d) :: m, a => if a = c then some d else Memory.lookup m a

/-- Write one byte, keeping the indexes strictly rising. -/
def Memory.store : Memory → Nat → Byte → Memory
  | [], a, b => [(a, b)]
  | (c, d) :: m, a, b =>
    if a < c then (a, b) :: (c, d) :: m
    else if a = c then (a, b) :: m
    else (c, d) :: Memory.store m a b

/-- Write a sequence of bytes from an index upwards. -/
def Memory.storeAll : Memory → Nat → List Byte → Memory
  | m, _, [] => m
  | m, a, b :: bs => Memory.storeAll (Memory.store m a b) (a + 1) bs

/-- The canonical form: indexes strictly rising (log 5). -/
def Memory.wf : Memory → Bool
  | [] => true
  | [_] => true
  | (a, _) :: (c, d) :: m => decide (a < c) && Memory.wf ((c, d) :: m)

/-- Every listed index lies below a capacity. -/
def Memory.below (m : Memory) (cap : Nat) : Bool := m.all fun cell => decide (cell.1 < cap)

/-- A buffer's memory. -/
def State.buffer (s : State) : Buf → Memory
  | .msg => s.msgBuf
  | .out => s.outBuf

/-- One byte of a buffer: the byte written since reset, else the free value of that byte (20_memory.md R84; log 5). -/
def State.byteAt (s : State) (b : Buf) (i : Nat) : Byte :=
  ((s.buffer b).lookup i).getD (Config.unwrittenByte s.epoch b i)

/-- `MemRead(b, a, k)`: the bytes at `a .. a+k-1` (00_scope.md R11). -/
def State.memRead (s : State) (b : Buf) (a k : Nat) : List Byte :=
  (List.range k).map fun j => s.byteAt b (a + j)

/-- `MemWrite(OUT, a, k, bs)`, `k` the length of `bs` (00_scope.md R11). -/
def State.outWrite (s : State) (a : Nat) (bs : List Byte) : State :=
  { s with outBuf := s.outBuf.storeAll a bs }

/-! ### The command lifecycle -/

/-- Issue of the word `c` (60_exceptions.md R281). -/
def State.issue (s : State) (c : Word) : State :=
  { s with
    lastCmd := c
    status := { s.status with busy := true, done := false, err := false, errCode := .noError } }

/-- Success completion (60_exceptions.md R284). -/
def State.succeed (s : State) : State :=
  { s with
    status := { s.status with busy := false, done := true, err := false, errCode := .noError }
    cmdCnt := s.cmdCnt + 1 }

/-- Error completion, the block's one way of taking an exception (60_exceptions.md R287). It saves nothing and jumps
nowhere, and there is no return from it (R291). -/
def State.fail (s : State) (e : ErrCode) : State :=
  { s with
    status := { s.status with busy := false, done := true, err := true, errCode := e }
    cmdCnt := s.cmdCnt + 1 }

/-- The end of a command's rule: complete with success. -/
def finish (s : State) : Result := .next s.succeed

/-- `raise e` (00_scope.md R11): complete with an error, from the state at issue. -/
def raise (e : ErrCode) (s : State) : Result := .next (s.fail e)

/-! ### Reset -/

/-- The reset input is asserted: every register at its reset value and both buffers unspecified anew
(70_reset_and_hazards.md R320 to R322). The parameters and the outside world stay (log 14). -/
def State.assertReset (s : State) : State :=
  { State.reset with
    params := s.params
    rst := true
    inputs := s.inputs
    witness := s.witness
    draws := s.draws
    epoch := s.epoch + 1 }

end Sys2Proof.Machine
end

