-- ==== Sys2Proof/Machine/Flags.lean ====
section
/-! DEFINITION. The flags of STATUS, the STATUS word and its write, the error codes, and the interrupt output. -/

namespace Sys2Proof.Machine

/-- Z and U from the value written to the primary destination (10_state.md R38, R39). -/
def State.setZU (s : State) (v : Nat) : State :=
  { s with status := { s.status with z := v == 0, u := v == 1 } }

/-- P, the verdict of a primality command (10_state.md R37). -/
def State.setP (s : State) (b : Bool) : State := { s with status := { s.status with p := b } }

/-- E, no message bytes left (10_state.md R40). -/
def State.setE (s : State) (b : Bool) : State := { s with status := { s.status with e := b } }

/-- Write the primary destination, with Z and U (10_state.md R38, R39). -/
def State.writePrimary (s : State) (rd : RegIx) (v : Nat) : State := (s.setReg rd v).setZU v

/-- The code of an error (60_exceptions.md R288). -/
def ErrCode.code : ErrCode → Byte
  | .noError => 0x00#8
  | .illegal => 0x01#8
  | .unwritten => 0x02#8
  | .operand => 0x03#8
  | .invalidInput => 0x10#8
  | .keygen => 0x11#8
  | .encryption => 0x12#8
  | .decryption => 0x13#8
  | .signature => 0x14#8
  | .noInverse => 0x15#8
  | .outfull => 0x20#8
  | .blocksize => 0x21#8

/-- The STATUS word: ERRCODE in bits 15:8, then E, U, Z, P, OVR, ERR, DONE, BUSY from bit 7 down to bit 0; bits 31:16
read as 0 (10_state.md R36; 20_memory.md R72). -/
def Status.toWord (t : Status) : Word :=
  0#16 ++ t.errCode.code ++ BitVec.ofBool t.e ++ BitVec.ofBool t.u ++ BitVec.ofBool t.z ++ BitVec.ofBool t.p ++
    BitVec.ofBool t.ovr ++ BitVec.ofBool t.err ++ BitVec.ofBool t.done ++ BitVec.ofBool t.busy

/-- A host write of STATUS: bit 1 clears DONE, bit 3 clears OVR (10_state.md R36). -/
def Status.writeOneToClear (t : Status) (data : Word) : Status :=
  { t with done := t.done && !data.getLsbD 1, ovr := t.ovr && !data.getLsbD 3 }

/-- The interrupt output: `irq = DONE ∧ IE` (60_exceptions.md R293). -/
def State.irq (s : State) : Bool := s.status.done && s.ie

end Sys2Proof.Machine
end

