-- ==== Sys2Proof/Machine/Operands.lean ====
section
/-! DEFINITION. The operand forms: a source register, the immediates, two's complement, and the 32-bit words of a
register in the operand window. -/

namespace Sys2Proof.Machine

/-- `src(i)`: UNWRITTEN when `V[i] = 0`, else the value `x[i]` (30_encoding.md R104). -/
def src (i : RegIx) (s : State) (k : Nat → Result) : Result :=
  if s.isValid i then k (s.reg i) else raise .unwritten s

/-- `zext_OPW(imm22)` as a number (30_encoding.md R95). -/
def zextImm22 (imm22 : BitVec 22) : Nat := imm22.toNat

/-- `tw(v) = v mod 2^OPW` (00_scope.md R11). -/
def tw (opw : Nat) (v : Int) : Nat := (v % ((2 ^ opw : Nat) : Int)).toNat

/-- Bits `[32w+31:32w]` of a register value (20_memory.md R65). -/
def windowWord (v w : Nat) : Word := BitVec.ofNat 32 (v / 2 ^ (32 * w))

/-- A register value with bits `[32w+31:32w]` replaced (10_state.md R24). -/
def setWindowWord (v w : Nat) (data : Word) : Nat :=
  v / 2 ^ (32 * (w + 1)) * 2 ^ (32 * (w + 1)) + data.toNat * 2 ^ (32 * w) + v % 2 ^ (32 * w)

end Sys2Proof.Machine
end

