-- ==== Sys2Proof/Machine/Bus.lean ====
section
/-! DEFINITION. The host bus: the address map, what a read returns and what a write does, idle and while BUSY
(spec/20_memory.md, spec/10_state.md). -/

namespace Sys2Proof.Machine

/-- The control registers of 20_memory.md R64, in the order of their offsets. -/
inductive CtrlReg where
  | id
  | cfgOpw
  | cfgMsgCap
  | cfgOutCap
  | ctrl
  | status
  | cmd
  | valid
  | rsel
  | msgLen
  | msgPtr
  | outLen
  | cmdCnt
  deriving DecidableEq, Repr

/-- What a legal access reaches: a control register, or word `w` of a window (20_memory.md R63). -/
inductive Target where
  | reg (r : CtrlReg)
  | window (w : Nat)
  | msg (w : Nat)
  | out (w : Nat)
  deriving DecidableEq, Repr

/-- The control registers by word index: offset `4·index` (20_memory.md R64). -/
def ctrlRegs : List CtrlReg :=
  [.id, .cfgOpw, .cfgMsgCap, .cfgOutCap, .ctrl, .status, .cmd, .valid, .rsel, .msgLen, .msgPtr, .outLen, .cmdCnt]

/-- The offset of a platform address within the block's 64 KiB window, when it lies there (20_memory.md R60, R63). -/
def busOffset (p : Params) (addr : Nat) : Option Nat :=
  if p.mrtBase ≤ addr ∧ addr < p.mrtBase + 0x10000 then some (addr - p.mrtBase) else none

/-- The target of an aligned offset: the address map (20_memory.md R63 to R66, R68 to R70). -/
def targetAt (p : Params) (off : Nat) : Option Target :=
  if off < 0x1000 then (ctrlRegs[off / 4]?).map .reg
  else if off < 0x2000 then
    if (off - 0x1000) / 4 < p.opw / 32 then some (.window ((off - 0x1000) / 4)) else none
  else if off < 0x4000 then none
  else if off < 0x8000 then
    if (off - 0x4000) / 4 < p.msgCap / 4 then some (.msg ((off - 0x4000) / 4)) else none
  else if off < 0xC000 then
    if (off - 0x8000) / 4 < p.outCap / 4 then some (.out ((off - 0x8000) / 4)) else none
  else none

/-- The target of an access, when the access is legal: aligned, all four lanes enabled, not reserved and not beyond a
window (20_memory.md R61, R62). -/
def targetOf (p : Params) (off : Nat) (lanes : BitVec 4) : Option Target :=
  if off % 4 = 0 ∧ lanes = 0xF#4 then targetAt p off else none

/-- Reads that may return any value while BUSY = 1 (10_state.md R43). -/
def Target.anyWhileBusy : Target → Bool
  | .window _ => true
  | .msg _ => true
  | .out _ => true
  | .reg .valid => true
  | .reg .msgPtr => true
  | .reg .outLen => true
  | .reg .id => false
  | .reg .cfgOpw => false
  | .reg .cfgMsgCap => false
  | .reg .cfgOutCap => false
  | .reg .ctrl => false
  | .reg .status => false
  | .reg .cmd => false
  | .reg .rsel => false
  | .reg .msgLen => false
  | .reg .cmdCnt => false

/-- Writes that are ignored and set OVR while BUSY = 1 (10_state.md R42). -/
def Target.lockedWhileBusy : Target → Bool
  | .window _ => true
  | .msg _ => true
  | .out _ => true
  | .reg .cmd => true
  | .reg .valid => true
  | .reg .rsel => true
  | .reg .msgLen => true
  | .reg .msgPtr => true
  | .reg .outLen => true
  | .reg .id => false
  | .reg .cfgOpw => false
  | .reg .cfgMsgCap => false
  | .reg .cfgOutCap => false
  | .reg .ctrl => false
  | .reg .status => false
  | .reg .cmdCnt => false

/-- The identity register (00_scope.md R2). -/
def idWord : Word := 0x4D520001#32

/-- A 32-bit bus word of four bytes, the first in lane 0 (20_memory.md R67). -/
def laneWord (b0 b1 b2 b3 : Byte) : Word := b3 ++ b2 ++ b1 ++ b0

/-- The byte in lane `k` of a bus word (20_memory.md R67). -/
def laneByte (data : Word) (k : Nat) : Byte := data.extractLsb' (8 * k) 8

/-- Word `w` of a buffer window (20_memory.md R68, R69). -/
def State.bufferWord (s : State) (b : Buf) (w : Nat) : Word :=
  laneWord (s.byteAt b (4 * w)) (s.byteAt b (4 * w + 1)) (s.byteAt b (4 * w + 2)) (s.byteAt b (4 * w + 3))

/-- The four bytes of a bus word in the order of their lanes. -/
def laneBytes (data : Word) : List Byte := [laneByte data 0, laneByte data 1, laneByte data 2, laneByte data 3]

/-- What a control register reads as (20_memory.md R64, R72). -/
def State.regWord (s : State) : CtrlReg → Word
  | .id => idWord
  | .cfgOpw => BitVec.ofNat 32 s.params.opw
  | .cfgMsgCap => BitVec.ofNat 32 s.params.msgCap
  | .cfgOutCap => BitVec.ofNat 32 s.params.outCap
  | .ctrl => 0#31 ++ BitVec.ofBool s.ie
  | .status => s.status.toWord
  | .cmd => s.lastCmd
  | .valid => 0#16 ++ s.valid
  | .rsel => BitVec.ofNat 32 s.rsel.val
  | .msgLen => BitVec.ofNat 32 s.msgLen
  | .msgPtr => BitVec.ofNat 32 s.msgPtr
  | .outLen => BitVec.ofNat 32 s.outLen
  | .cmdCnt => s.cmdCnt

/-- The value a target holds (10_state.md R25 for the operand window). -/
def State.targetWord (s : State) : Target → Word
  | .reg r => s.regWord r
  | .window w => if s.isValid s.rsel then windowWord (s.reg s.rsel) w else 0#32
  | .msg w => s.bufferWord .msg w
  | .out w => s.bufferWord .out w

/-- A host write of VALID: a 1 in bit `i` clears `V[i]`, and `x[i]` is then a free value (10_state.md R26; log 4). -/
def State.clearValid (s : State) (bits : BitVec 16) : State :=
  { s with
    x := Vector.ofFn fun i : RegIx =>
      if bits.getLsbD i.val then Config.clearedRegister s.draws i % 2 ^ s.params.opw else s.reg i
    valid := s.valid &&& ~~~bits
    draws := s.draws + 1 }

/-- A host write of word `w` of the operand window (10_state.md R24). -/
def State.writeWindow (s : State) (w : Nat) (data : Word) : State :=
  s.setReg s.rsel (setWindowWord (if s.isValid s.rsel then s.reg s.rsel else 0) w data)

/-- A host write of a control register (20_memory.md R64, R71; 10_state.md; CMD by 60_exceptions.md R281). -/
def State.writeReg (s : State) (data : Word) : CtrlReg → State
  | .id => s
  | .cfgOpw => s
  | .cfgMsgCap => s
  | .cfgOutCap => s
  | .ctrl => { s with ie := data.getLsbD 0 }
  | .status => { s with status := s.status.writeOneToClear data }
  | .cmd => s.issue data
  | .valid => s.clearValid (data.extractLsb' 0 16)
  | .rsel => { s with rsel := (data.extractLsb' 0 4).toFin }
  | .msgLen => { s with msgLen := min data.toNat s.params.msgCap }
  | .msgPtr => { s with msgPtr := min data.toNat s.params.msgCap }
  | .outLen => { s with outLen := min data.toNat s.params.outCap }
  | .cmdCnt => s

/-- A host write of a target. -/
def State.writeTarget (s : State) (data : Word) : Target → State
  | .reg r => s.writeReg data r
  | .window w => s.writeWindow w data
  | .msg w => { s with msgBuf := s.msgBuf.storeAll (4 * w) (laneBytes data) }
  | .out w => { s with outBuf := s.outBuf.storeAll (4 * w) (laneBytes data) }

/-- The response to an access (log 11). -/
def State.respond (s : State) (error : Bool) (data : Option Word) : State :=
  { s with resp := some { error := error, data := data } }

/-- A host write. Outside the block's window it is no access of the block (log 12). While `rst` = 1 it has no effect
(70_reset_and_hazards.md R320; log 13); while BUSY = 1 the writes of 10_state.md R42 only set OVR. -/
def State.hostWrite (s : State) (addr : Nat) (lanes : BitVec 4) (data : Word) : State :=
  match busOffset s.params addr with
  | none => s
  | some off =>
    match targetOf s.params off lanes with
    | none => s.respond true none
    | some t =>
      if s.rst then s.respond false none
      else if s.status.busy && t.lockedWhileBusy then
        State.respond { s with status := { s.status with ovr := true } } false none
      else (s.writeTarget data t).respond false none

/-- A host read. It has no side effect on the block (20_memory.md R73). While `rst` = 1 it returns 0
(70_reset_and_hazards.md R320; log 13); while BUSY = 1 the reads of 10_state.md R43 return a free value (log 6). -/
def State.hostRead (s : State) (addr : Nat) (lanes : BitVec 4) : State :=
  match busOffset s.params addr with
  | none => s
  | some off =>
    match targetOf s.params off lanes with
    | none => s.respond true (some 0#32)
    | some t =>
      if s.rst then s.respond false (some 0#32)
      else if s.status.busy && t.anyWhileBusy then
        State.respond { s with draws := s.draws + 1 } false (some (Config.busyRead s.draws))
      else s.respond false (some (s.targetWord t))

end Sys2Proof.Machine
end

