-- ==== Sys2Proof/Machine/Arith.lean ====
section
/-! DEFINITION. The exact integer functions of the primality and modular units, over unbounded numbers. -/

namespace Sys2Proof.Machine

/-- `bitlen(v)` (00_scope.md R12). -/
def bitlen (v : Nat) : Nat := if v = 0 then 0 else Nat.log2 v + 1

/-! ### Modular exponentiation -/

/-- The loop of 42_modular.md R171: `k` iterations left, bit `i` next. -/
def binaryLoop (e m : Nat) : Nat → Nat → Nat → Nat → Nat
  | 0, _, acc, _ => acc
  | k + 1, i, acc, sq =>
    binaryLoop e m k (i + 1) (if e.testBit i then acc * sq % m else acc) (sq * sq % m)

/-- The binary method (42_modular.md R171). -/
def modexpBinary (b e m : Nat) : Nat := binaryLoop e m (bitlen e) 0 (1 % m) (b % m)

/-- The loop of 42_modular.md R172: bits `k-1` down to 0 left. -/
def ladderLoop (e m : Nat) : Nat → Nat → Nat → Nat
  | 0, r0, _ => r0
  | k + 1, r0, r1 =>
    if e.testBit k then ladderLoop e m k (r0 * r1 % m) (r1 * r1 % m)
    else ladderLoop e m k (r0 * r0 % m) (r0 * r1 % m)

/-- The Montgomery ladder (42_modular.md R172). -/
def modexpLadder (b e m : Nat) : Nat := ladderLoop e m (bitlen e) (1 % m) (b % m)

/-- Modular exponentiation by the method L selects (42_modular.md R170). -/
def modexp : Method → Nat → Nat → Nat → Nat
  | .binary => modexpBinary
  | .ladder => modexpLadder

/-! ### Primality -/

/-- `small_case(n)` (41_primality.md R130): false for 0, true for 1. -/
def smallCase (n : Nat) : Option Bool :=
  if n < 2 then some false
  else if n = 2 ∨ n = 3 then some true
  else if n % 2 = 0 then some false
  else none

/-- Trailing zero bits, looking at no more than `fuel` bits. -/
def ctzLoop : Nat → Nat → Nat
  | 0, _ => 0
  | fuel + 1, v => if v % 2 = 1 then 0 else ctzLoop fuel (v / 2) + 1

/-- `ctz(v)` for `v > 0` (00_scope.md R12). -/
def ctz (v : Nat) : Nat := ctzLoop (bitlen v) v

/-- `decomp(m)`: `(d, r)` with `m = d·2^r` and `d` odd (41_primality.md R131). -/
def decomp (m : Nat) : Nat × Nat := (m >>> ctz m, ctz m)

/-- The squarings of one round: `k` of them left, `y` the current value (41_primality.md R132). -/
def roundLoop (n : Nat) : Nat → Nat → Bool
  | 0, _ => false
  | k + 1, y => if y * y % n = n - 1 then true else roundLoop n k (y * y % n)

/-- `mr_round(n, d, r, a)` (41_primality.md R132): true when the round passes. -/
def mrRound (n d r a : Nat) : Bool :=
  let y := modexpBinary a d n
  if y = 1 ∨ y = n - 1 then true else roundLoop n (r - 1) y

/-- What the rounds of an MRTEST come to. -/
inductive Rounds where
  /-- A verdict, with the bases the source has delivered that no round has taken. -/
  | verdict (pass : Bool) (rest : List Nat)
  /-- The source has not delivered the base a round asks for (60_exceptions.md R301). -/
  | waiting
  /-- The source delivered a base outside 2 .. n-2 (60_exceptions.md R300). -/
  | outOfContract
  deriving DecidableEq, Repr

/-- The rounds of MRTEST on the delivered bases: one base a round, until a round fails (41_primality.md R133). -/
def mrRounds (n d r : Nat) : Nat → List Nat → Rounds
  | 0, bases => .verdict true bases
  | _ + 1, [] => .waiting
  | k + 1, a :: bases =>
    if 2 ≤ a ∧ a ≤ n - 2 then
      if mrRound n d r a then mrRounds n d r k bases else .verdict false bases
    else .outOfContract

/-! ### Greatest common divisors -/

/-- The Euclidean loop (42_modular.md R180); `fuel` bounds its iterations. -/
def euclidLoop : Nat → Nat → Nat → Nat
  | 0, a, _ => a
  | fuel + 1, a, b => if b = 0 then a else euclidLoop fuel b (a % b)

/-- The result of GCD (42_modular.md R180). The second number falls at each iteration, so it bounds their count. -/
def euclid (a b : Nat) : Nat := euclidLoop b a b

/-- The loop of 42_modular.md R185 with the running coefficients `s0, s1, t0, t1`; `fuel` bounds its iterations. With
`q = r0 div r1`, the new remainder `r0 - q·r1` is `r0 mod r1`. -/
def xgcdLoop : Nat → Nat → Nat → Int → Int → Int → Int → Nat × Int × Int
  | 0, r0, _, s0, _, t0, _ => (r0, s0, t0)
  | fuel + 1, r0, r1, s0, s1, t0, t1 =>
    if r1 = 0 then (r0, s0, t0)
    else xgcdLoop fuel r1 (r0 % r1) s1 (s0 - (r0 / r1 : Nat) * s1) t1 (t0 - (r0 / r1 : Nat) * t1)

/-- `(g, x, y)` of 42_modular.md R185. -/
def xgcd (a b : Nat) : Nat × Int × Int := xgcdLoop b a b 1 0 0 1

end Sys2Proof.Machine
end

