-- ==== Sys2Proof/Machine/Bytes.lean ====
section
/-! DEFINITION. Block sizes, big-endian numbers and UTF-8 validity. -/

namespace Sys2Proof.Machine

/-- `bs(n) = (bitlen(n) - 1) div 8` for `n ≥ 1` (43_block_codec.md R220). -/
def blockSize (n : Nat) : Nat := (bitlen n - 1) / 8

/-- `be(b)`, the big-endian number of a byte sequence (00_scope.md R13). -/
def be (bs : List Byte) : Nat := bs.foldl (fun acc b => acc * 256 + b.toNat) 0

/-- The `k` low bytes of `v`, most significant first. -/
def beBytes (v : Nat) : Nat → List Byte
  | 0 => []
  | k + 1 => BitVec.ofNat 8 (v / 256 ^ k) :: beBytes v k

/-- `mbe(v)`, the minimal big-endian representation: `ceil(bitlen(v)/8)` bytes (00_scope.md R13). -/
def mbe (v : Nat) : List Byte := beBytes v ((bitlen v + 7) / 8)

/-- A range of byte values, both ends included. -/
structure ByteRange where
  lo : Byte
  hi : Byte
  deriving DecidableEq, Repr

/-- Whether a byte lies in a range. -/
def ByteRange.holds (r : ByteRange) (b : Byte) : Bool := decide (r.lo ≤ b ∧ b ≤ r.hi)

/-- The rows of the table of 43_block_codec.md R227: the range of the first byte, then the ranges of the bytes after
it. -/
def utf8Rows : List (ByteRange × List ByteRange) :=
  [ (⟨0x00, 0x7F⟩, []),
    (⟨0xC2, 0xDF⟩, [⟨0x80, 0xBF⟩]),
    (⟨0xE0, 0xE0⟩, [⟨0xA0, 0xBF⟩, ⟨0x80, 0xBF⟩]),
    (⟨0xE1, 0xEC⟩, [⟨0x80, 0xBF⟩, ⟨0x80, 0xBF⟩]),
    (⟨0xED, 0xED⟩, [⟨0x80, 0x9F⟩, ⟨0x80, 0xBF⟩]),
    (⟨0xEE, 0xEF⟩, [⟨0x80, 0xBF⟩, ⟨0x80, 0xBF⟩]),
    (⟨0xF0, 0xF0⟩, [⟨0x90, 0xBF⟩, ⟨0x80, 0xBF⟩, ⟨0x80, 0xBF⟩]),
    (⟨0xF1, 0xF3⟩, [⟨0x80, 0xBF⟩, ⟨0x80, 0xBF⟩, ⟨0x80, 0xBF⟩]),
    (⟨0xF4, 0xF4⟩, [⟨0x80, 0x8F⟩, ⟨0x80, 0xBF⟩, ⟨0x80, 0xBF⟩]) ]

/-- What must follow a first byte, if the byte can stand first. -/
def utf8Tail (b : Byte) : Option (List ByteRange) :=
  (utf8Rows.find? fun row => row.1.holds b).map Prod.snd

/-- Scan bytes with the ranges that the current sequence still expects. -/
def utf8Scan : List ByteRange → List Byte → Bool
  | [], [] => true
  | _ :: _, [] => false
  | r :: rs, b :: bs => r.holds b && utf8Scan rs bs
  | [], b :: bs =>
    match utf8Tail b with
    | some rs => utf8Scan rs bs
    | none => false

/-- `utf8_valid(b)` (43_block_codec.md R227). -/
def utf8Valid (bs : List Byte) : Bool := utf8Scan [] bs

end Sys2Proof.Machine
end

