-- ==== Sys2Proof/Machine/BlockCodec.lean ====
section
/-! DEFINITION. The RSA block encoder: BSIZE, BSPLIT, BJOIN, UTF8CHK (spec/43_block_codec.md). -/

namespace Sys2Proof.Machine

/-- BSIZE (43_block_codec.md R221). -/
def execBsize (rd rn : RegIx) (s : State) : Result :=
  src rn s fun n => if n = 0 then raise .operand s else finish (s.writePrimary rd (blockSize n))

/-- The length of the next chunk (43_block_codec.md R222). -/
def chunkLength (n : Nat) (s : State) : Nat := min (blockSize n) (s.msgLen - s.msgPtr)

/-- The value of the next chunk (43_block_codec.md R222). -/
def chunkValue (n : Nat) (s : State) : Nat := be (s.memRead .msg s.msgPtr (chunkLength n s))

/-- BSPLIT (43_block_codec.md R222). The ENCRYPTION check is kept though it never fires (R223). -/
def execBsplit (rd rn : RegIx) (s : State) : Result :=
  src rn s fun n =>
    if n = 0 then raise .operand s
    else if blockSize n = 0 then raise .blocksize s
    else if s.msgLen = 0 then raise .invalidInput s
    else if s.msgLen ≤ s.msgPtr then finish (s.setE true)
    else if n ≤ chunkValue n s then raise .encryption s
    else
      finish ((State.setE { s with msgPtr := s.msgPtr + chunkLength n s }
        (decide (s.msgLen ≤ s.msgPtr + chunkLength n s))).writePrimary rd (chunkValue n s))

/-- BJOIN (43_block_codec.md R224). -/
def execBjoin (rs : RegIx) (s : State) : Result :=
  src rs s fun v =>
    if s.params.outCap < s.outLen + (mbe v).length then raise .outfull s
    else
      finish { s.outWrite s.outLen (mbe v) with outLen := s.outLen + (mbe v).length }

/-- UTF8CHK (43_block_codec.md R226). -/
def execUtf8chk (s : State) : Result :=
  if utf8Valid (s.memRead .out 0 s.outLen) then finish s else raise .decryption s

end Sys2Proof.Machine
end

