-- ==== Sys2Proof/Machine/Modular.lean ====
section
/-! DEFINITION. The modular exponentiation engine and the extended-GCD solver: MODEXP, GCD, XGCD, MODINV
(spec/42_modular.md). -/

namespace Sys2Proof.Machine

/-- MODEXP (42_modular.md R170). -/
def execModexp (rd rb re rm : RegIx) (method : Method) (s : State) : Result :=
  src rb s fun b =>
    src re s fun e =>
      src rm s fun m =>
        if m = 0 then raise .operand s else finish (s.writePrimary rd (modexp method b e m))

/-- GCD (42_modular.md R180). -/
def execGcd (rd ra rb : RegIx) (s : State) : Result :=
  src ra s fun a => src rb s fun b => finish (s.writePrimary rd (euclid a b))

/-- XGCD (42_modular.md R185; equal destinations are ILLEGAL, 30_encoding.md R100). -/
def execXgcd (rg rx ry ra rb : RegIx) (s : State) : Result :=
  if rg = rx ∨ rg = ry ∨ rx = ry then raise .illegal s
  else
    src ra s fun a =>
      src rb s fun b =>
        let r := xgcd a b
        finish (((s.writePrimary rg r.1).setReg rx (tw s.params.opw r.2.1)).setReg ry (tw s.params.opw r.2.2))

/-- MODINV (42_modular.md R190). -/
def execModinv (rd ra rm : RegIx) (s : State) : Result :=
  src ra s fun a =>
    src rm s fun m =>
      if m = 0 then raise .operand s
      else if (xgcd a m).1 ≠ 1 then raise .noInverse s
      else finish (s.writePrimary rd ((xgcd a m).2.1 % (m : Int)).toNat)

end Sys2Proof.Machine
end

