-- ==== Sys2Proof/Machine/Primality.lean ====
section
/-! DEFINITION. The Miller-Rabin tester: MRTEST, MRROUND, MRDECOMP (spec/41_primality.md). -/

namespace Sys2Proof.Machine

/-- Write a primality verdict: the register, Z, U and P (41_primality.md R133, R137). -/
def State.writeVerdict (s : State) (rd : RegIx) (pass : Bool) : State := (s.writePrimary rd pass.toNat).setP pass

/-- MRTEST (41_primality.md R133). Where the witness source has not delivered a base that a round asks for, nothing
happens and BUSY stays 1 (60_exceptions.md R301; log 8); a base outside the source's contract is refused (log 9). -/
def execMrtest (rd rn : RegIx) (rounds : Fin 64) (s : State) : Result :=
  src rn s fun n =>
    match smallCase n with
    | some pass => finish (s.writeVerdict rd pass)
    | none =>
      match mrRounds n (decomp (n - 1)).1 (decomp (n - 1)).2 rounds.val s.witness with
      | .verdict pass rest => finish (State.writeVerdict { s with witness := rest } rd pass)
      | .waiting => .next s
      | .outOfContract => .refused .witnessOutOfContract

/-- MRROUND (41_primality.md R137). -/
def execMrround (rd rn ra : RegIx) (s : State) : Result :=
  src rn s fun n =>
    src ra s fun a =>
      match smallCase n with
      | some pass => finish (s.writeVerdict rd pass)
      | none =>
        if a < 2 ∨ n - 2 < a then raise .operand s
        else finish (s.writeVerdict rd (mrRound n (decomp (n - 1)).1 (decomp (n - 1)).2 a))

/-- MRDECOMP (41_primality.md R138; equal destinations are ILLEGAL, 30_encoding.md R100). -/
def execMrdecomp (rd rr rn : RegIx) (s : State) : Result :=
  if rd = rr then raise .illegal s
  else
    src rn s fun n =>
      if n ≤ 1 then raise .operand s
      else finish ((s.writePrimary rd (decomp (n - 1)).1).setReg rr (decomp (n - 1)).2)

end Sys2Proof.Machine
end

