-- ==== Sys2Proof/Machine/RegisterMoves.lean ====
section
/-! DEFINITION. The register moves: NOP, MOV, LDI (spec/44_register_moves.md). -/

namespace Sys2Proof.Machine

/-- NOP (44_register_moves.md R260). -/
def execNop (s : State) : Result := finish s

/-- MOV (44_register_moves.md R261). -/
def execMov (rd rs : RegIx) (s : State) : Result :=
  src rs s fun v => finish (s.writePrimary rd v)

/-- LDI (44_register_moves.md R262). -/
def execLdi (rd : RegIx) (imm22 : BitVec 22) (s : State) : Result :=
  finish (s.writePrimary rd (zextImm22 imm22))

end Sys2Proof.Machine
end

