-- ==== Sys2Proof/Machine/Dispatch.lean ====
section
/-! DEFINITION. The meaning of each command: one arm per constructor of Instr. -/

namespace Sys2Proof.Machine

def exec (i : Instr) (s : State) : Host.Outcome State Fault Refusal :=
  match i with
  | .nop => Sys2Proof.Machine.execNop s
  | .mov rd rs => Sys2Proof.Machine.execMov rd rs s
  | .ldi rd imm22 => Sys2Proof.Machine.execLdi rd imm22 s
  | .mrtest rd rn rounds => Sys2Proof.Machine.execMrtest rd rn rounds s
  | .mrround rd rn ra => Sys2Proof.Machine.execMrround rd rn ra s
  | .mrdecomp rd rr rn => Sys2Proof.Machine.execMrdecomp rd rr rn s
  | .modexp rd rb re rm method => Sys2Proof.Machine.execModexp rd rb re rm method s
  | .gcd rd ra rb => Sys2Proof.Machine.execGcd rd ra rb s
  | .xgcd rg rx ry ra rb => Sys2Proof.Machine.execXgcd rg rx ry ra rb s
  | .modinv rd ra rm => Sys2Proof.Machine.execModinv rd ra rm s
  | .bsize rd rn => Sys2Proof.Machine.execBsize rd rn s
  | .bsplit rd rn => Sys2Proof.Machine.execBsplit rd rn s
  | .bjoin rs => Sys2Proof.Machine.execBjoin rs s
  | .utf8chk => Sys2Proof.Machine.execUtf8chk s

end Sys2Proof.Machine
end

