-- ==== Sys2Proof/Machine/Engine.lean ====
section
/-! DEFINITION. The engine's turn, and the actions of the outside world. -/

namespace Sys2Proof.Machine

/-- The engine's turn. While `rst` = 1 the state is held (70_reset_and_hazards.md R320). While BUSY = 1 the engine
performs the whole command LASTCMD and completes (60_exceptions.md R283); a word that is no command completes with
ILLEGAL (30_encoding.md R97, R98). IDLE, it rests (60_exceptions.md R303). -/
def engineStep (s : State) : Result :=
  if s.rst then .next s
  else if s.status.busy then
    match decode s.lastCmd with
    | .ok i => exec i s
    | .error _ => raise .illegal s
  else .next s

/-- One action of the outside world, taken by a state from whose `inputs` it has been removed (log 7). -/
def handleInput (i : Input) (s : State) : Result :=
  match i with
  | .write addr lanes data => .next (s.hostWrite addr lanes data)
  | .read addr lanes => .next (s.hostRead addr lanes)
  | .witness base => .next { s with witness := s.witness ++ [base] }
  | .rst level => .next (if level then s.assertReset else { s with rst := false })
  | .engine => engineStep s

end Sys2Proof.Machine
end

