-- ==== Sys2Proof/Machine/Step.lean ====
section
/-! DEFINITION. The step, and how a command word comes to be the next step's. -/

namespace Sys2Proof.Machine

/-- One step: the outside world's next action, or the engine's turn when nothing is pending (log 7). -/
def step (s : State) : Host.Outcome State Fault Refusal :=
  match s.inputs with
  | [] => engineStep s
  | i :: rest => handleInput i { s with inputs := rest }

/-- The state in which the next step runs the command word `w`: the word has been issued (60_exceptions.md R281) with
`rst` = 0, and the next turn is the engine's. It stands for a completed host write of CMD (log 16). -/
def State.withFetchWord (s : State) (nbits w : Nat) : State :=
  State.issue { s with rst := false, inputs := .engine :: s.inputs } (BitVec.ofNat 32 (w % 2 ^ nbits))

end Sys2Proof.Machine
end

