-- ==== Sys2Proof/Machine/Assembler.lean ====
section
/-! DEFINITION. The assembler: one line of text to a command, with the pseudo-instructions
(30_encoding.md R105 to R107). Text is a list of characters. -/

namespace Sys2Proof.Machine

/-- The text before a comment (30_encoding.md R105). -/
def stripComment (text : List Char) : List Char := text.takeWhile fun c => c != '#'

/-- DESIGN CHOICE (log 21): spaces and tabs separate a mnemonic from its operands and may surround an operand. -/
def isBlank (c : Char) : Bool := c == ' ' || c == '\t'

/-- The text without blanks at either end. -/
def trimBlanks (text : List Char) : List Char := ((text.dropWhile isBlank).reverse.dropWhile isBlank).reverse

/-- The operands: the text between commas, trimmed. -/
def splitCommas : List Char → List (List Char)
  | [] => [[]]
  | c :: cs =>
    if c == ',' then [] :: splitCommas cs
    else
      match splitCommas cs with
      | [] => [[c]]
      | w :: ws => (c :: w) :: ws

/-- The operands of a line, none for an empty text. -/
def operandsOf (text : List Char) : List (List Char) :=
  if trimBlanks text = [] then [] else (splitCommas text).map trimBlanks

/-- A digit below a base; lower and upper case hexadecimal (log 21). -/
def digitOf (base : Nat) (c : Char) : Option Nat :=
  let n := c.toNat
  let d :=
    if 48 ≤ n ∧ n ≤ 57 then some (n - 48)
    else if 97 ≤ n ∧ n ≤ 102 then some (n - 87)
    else if 65 ≤ n ∧ n ≤ 70 then some (n - 55)
    else none
  d.bind fun v => if v < base then some v else none

/-- The number a text of digits denotes, after `acc`. -/
def numberFrom (base : Nat) : List Char → Nat → Option Nat
  | [], acc => some acc
  | c :: cs, acc =>
    match digitOf base c with
    | some d => numberFrom base cs (acc * base + d)
    | none => none

/-- An immediate, decimal or with 0x hexadecimal (30_encoding.md R105). -/
def parseImm : List Char → Option Nat
  | [] => none
  | '0' :: 'x' :: d :: ds => numberFrom 16 (d :: ds) 0
  | c :: cs => numberFrom 10 (c :: cs) 0

/-- A register, r0 to r15 (30_encoding.md R105). -/
def parseReg : List Char → Option RegIx
  | ['r', d] => (digitOf 10 d).bind fun n => if h : n < 16 then some ⟨n, h⟩ else none
  | ['r', '1', d] => (digitOf 10 d).bind fun n => if h : 10 + n < 16 then some ⟨10 + n, h⟩ else none
  | _ => none

/-- A line with its operands read as registers, but for the immediate of LDI and MRTEST: one constructor per syntax of
30_encoding.md R106 and per pseudo-instruction of R107. -/
inductive AsmLine where
  | nop
  | mov (rd rs : RegIx)
  | ldi (rd : RegIx) (imm : Nat)
  | mrtest (rd rn : RegIx) (rounds : Nat)
  | mrround (rd rn ra : RegIx)
  | mrdecomp (rd rr rn : RegIx)
  | modexp (rd rb re rm : RegIx)
  | modexpLadder (rd rb re rm : RegIx)
  | gcd (rd ra rb : RegIx)
  | xgcd (rg rx ry ra rb : RegIx)
  | modinv (rd ra rm : RegIx)
  | bsize (rd rn : RegIx)
  | bsplit (rd rn : RegIx)
  | bjoin (rs : RegIx)
  | utf8chk
  | mrtestDefault (rd rn : RegIx)
  | modexpBin (rd rb re rm : RegIx)
  | clr (rd : RegIx)
  deriving DecidableEq, Repr

/-- The command of a line: the expansions of 30_encoding.md R107, and the refusal of an immediate out of range
(R106). -/
def AsmLine.toInstr : AsmLine → Option Instr
  | .nop => some .nop
  | .mov rd rs => some (.mov rd rs)
  | .ldi rd imm => if imm ≤ 4194303 then some (.ldi rd (BitVec.ofNat 22 imm)) else none
  | .mrtest rd rn rounds => if h : rounds < 64 then some (.mrtest rd rn ⟨rounds, h⟩) else none
  | .mrround rd rn ra => some (.mrround rd rn ra)
  | .mrdecomp rd rr rn => some (.mrdecomp rd rr rn)
  | .modexp rd rb re rm => some (.modexp rd rb re rm .binary)
  | .modexpLadder rd rb re rm => some (.modexp rd rb re rm .ladder)
  | .gcd rd ra rb => some (.gcd rd ra rb)
  | .xgcd rg rx ry ra rb => some (.xgcd rg rx ry ra rb)
  | .modinv rd ra rm => some (.modinv rd ra rm)
  | .bsize rd rn => some (.bsize rd rn)
  | .bsplit rd rn => some (.bsplit rd rn)
  | .bjoin rs => some (.bjoin rs)
  | .utf8chk => some .utf8chk
  | .mrtestDefault rd rn => some (.mrtest rd rn 10)
  | .modexpBin rd rb re rm => some (.modexp rd rb re rm .binary)
  | .clr rd => some (.ldi rd 0)

/-- The line a mnemonic and its operands spell, when every operand parses. -/
def parseLine (mnemonic : String) (operands : List (List Char)) : Option AsmLine :=
  match mnemonic, operands with
  | "nop", [] => some .nop
  | "mov", [a, b] => do some (.mov (← parseReg a) (← parseReg b))
  | "ldi", [a, b] => do some (.ldi (← parseReg a) (← parseImm b))
  | "mrtest", [a, b, c] => do some (.mrtest (← parseReg a) (← parseReg b) (← parseImm c))
  | "mrtest", [a, b] => do some (.mrtestDefault (← parseReg a) (← parseReg b))
  | "mrround", [a, b, c] => do
    some (.mrround (← parseReg a) (← parseReg b) (← parseReg c))
  | "mrdecomp", [a, b, c] => do
    some (.mrdecomp (← parseReg a) (← parseReg b) (← parseReg c))
  | "modexp", [a, b, c, d] => do
    some (.modexp (← parseReg a) (← parseReg b) (← parseReg c) (← parseReg d))
  | "modexp.ladder", [a, b, c, d] => do
    some (.modexpLadder (← parseReg a) (← parseReg b) (← parseReg c) (← parseReg d))
  | "modexp.bin", [a, b, c, d] => do
    some (.modexpBin (← parseReg a) (← parseReg b) (← parseReg c) (← parseReg d))
  | "gcd", [a, b, c] => do some (.gcd (← parseReg a) (← parseReg b) (← parseReg c))
  | "xgcd", [a, b, c, d, e] => do
    some (.xgcd (← parseReg a) (← parseReg b) (← parseReg c) (← parseReg d) (← parseReg e))
  | "modinv", [a, b, c] => do some (.modinv (← parseReg a) (← parseReg b) (← parseReg c))
  | "bsize", [a, b] => do some (.bsize (← parseReg a) (← parseReg b))
  | "bsplit", [a, b] => do some (.bsplit (← parseReg a) (← parseReg b))
  | "bjoin", [a] => do some (.bjoin (← parseReg a))
  | "utf8chk", [] => some .utf8chk
  | "clr", [a] => do some (.clr (← parseReg a))
  | _, _ => none

/-- What a line of text is. -/
inductive Assembled where
  /-- A line with no command: blank, or a comment only. -/
  | empty
  | command (i : Instr)
  | refused
  deriving DecidableEq, Repr

/-- Assemble one line (30_encoding.md R105 to R107). -/
def assembleLine (text : List Char) : Assembled :=
  let body := trimBlanks (stripComment text)
  if body = [] then .empty
  else
    match (parseLine (String.ofList (body.takeWhile fun c => !isBlank c)) (operandsOf (body.dropWhile fun c => !isBlank c))).bind
        AsmLine.toInstr with
    | some i => .command i
    | none => .refused

end Sys2Proof.Machine
end

