-- ==== Sys2Proof/Safety.lean ====
section
/-! DEFINITION. What every state of a run satisfies, in the terms the statements use. -/

namespace Sys2Proof.Machine

/-- The register values of 10_state.md R49, which `rst` = 1 holds (70_reset_and_hazards.md R320). The operand
registers are unspecified there and every one is invalid. -/
structure State.AtReset (s : State) : Prop where
  valid   : s.valid = 0#16
  msgBuf  : s.msgBuf = []
  msgLen  : s.msgLen = 0
  msgPtr  : s.msgPtr = 0
  outBuf  : s.outBuf = []
  outLen  : s.outLen = 0
  rsel    : s.rsel = 0
  ie      : s.ie = false
  status  : s.status = Status.reset
  lastCmd : s.lastCmd = 0x00000000#32
  cmdCnt  : s.cmdCnt = 0#32

/-- The invariant of the block: legal parameters, every register and pointer within its range, the buffers in
canonical form and within their capacity, ERR and ERRCODE telling the same story, no command both pending and done,
and the reset state held while `rst` = 1. -/
structure State.Inv (s : State) : Prop where
  params   : s.params.Legal
  regs     : ∀ i, s.reg i < 2 ^ s.params.opw
  msgBuf   : s.msgBuf.wf = true ∧ s.msgBuf.below s.params.msgCap = true
  outBuf   : s.outBuf.wf = true ∧ s.outBuf.below s.params.outCap = true
  msgLen   : s.msgLen ≤ s.params.msgCap
  msgPtr   : s.msgPtr ≤ s.params.msgCap
  outLen   : s.outLen ≤ s.params.outCap
  errCode  : s.status.err = true ↔ s.status.errCode ≠ .noError
  raised   : s.status.errCode ≠ .keygen ∧ s.status.errCode ≠ .signature ∧ s.status.errCode ≠ .encryption
  busy     : s.status.busy = true → s.status.done = false ∧ s.status.err = false
  held     : s.rst = true → s.AtReset

/-- A safe outcome: anything but a stop. The block itself never stops; only a witness source outside its contract ends
a run (60_exceptions.md R300). -/
def Safe : Host.Outcome State Fault Refusal → Prop
  | .next _ => True
  | .fault _ => False
  | .refused _ => False

end Sys2Proof.Machine
end

