-- ==== Sys2Proof/Certificates/Slice0/Obligations.lean ====
section
/-! DEFINITION. The statements for the provers, one `def Obligations.<Name> : Prop` each. The helpers under
`Sys2Proof.Spec` write the rules of spec/ out a second time, on plain records and library arithmetic, so that a
statement does not lean on the model's own operations. -/

namespace Sys2Proof.Spec

open Sys2Proof.Machine

/-! ### Helpers -/

/-- A format-R word as 30_encoding.md R108 sums it up. -/
def wordR (opc : Nat) (f1 f2 f3 f4 f5 : RegIx) (imm6 : Nat) : Word :=
  BitVec.ofNat 32 (opc * 2 ^ 26 + f1.val * 2 ^ 22 + f2.val * 2 ^ 18 + f3.val * 2 ^ 14 + f4.val * 2 ^ 10 +
    f5.val * 2 ^ 6 + imm6)

/-- A format-I word (30_encoding.md R108). -/
def wordI (opc : Nat) (f1 : RegIx) (imm22 : Nat) : Word :=
  BitVec.ofNat 32 (opc * 2 ^ 26 + f1.val * 2 ^ 22 + imm22)

/-- The match and mask columns of 30_encoding.md R96, row by row. -/
def opcodeTable : List (Word × Word) :=
  [ (0x00000000#32, 0xFFFFFFFF#32), (0x04000000#32, 0xFC03FFFF#32), (0x08000000#32, 0xFC000000#32),
    (0x20000000#32, 0xFC03FFC0#32), (0x24000000#32, 0xFC003FFF#32), (0x28000000#32, 0xFC003FFF#32),
    (0x40000000#32, 0xFC0003FE#32), (0x44000000#32, 0xFC003FFF#32), (0x48000000#32, 0xFC00003F#32),
    (0x4C000000#32, 0xFC003FFF#32), (0x60000000#32, 0xFC03FFFF#32), (0x64000000#32, 0xFC03FFFF#32),
    (0x68000000#32, 0xFFC3FFFF#32), (0x6C000000#32, 0xFFFFFFFF#32) ]

/-- The row of each command in 30_encoding.md R96. -/
def rowOf : Instr → Word × Word
  | .nop => (0x00000000#32, 0xFFFFFFFF#32)
  | .mov _ _ => (0x04000000#32, 0xFC03FFFF#32)
  | .ldi _ _ => (0x08000000#32, 0xFC000000#32)
  | .mrtest _ _ _ => (0x20000000#32, 0xFC03FFC0#32)
  | .mrround _ _ _ => (0x24000000#32, 0xFC003FFF#32)
  | .mrdecomp _ _ _ => (0x28000000#32, 0xFC003FFF#32)
  | .modexp _ _ _ _ _ => (0x40000000#32, 0xFC0003FE#32)
  | .gcd _ _ _ => (0x44000000#32, 0xFC003FFF#32)
  | .xgcd _ _ _ _ _ => (0x48000000#32, 0xFC00003F#32)
  | .modinv _ _ _ => (0x4C000000#32, 0xFC003FFF#32)
  | .bsize _ _ => (0x60000000#32, 0xFC03FFFF#32)
  | .bsplit _ _ => (0x64000000#32, 0xFC03FFFF#32)
  | .bjoin _ => (0x68000000#32, 0xFFC3FFFF#32)
  | .utf8chk => (0x6C000000#32, 0xFFFFFFFF#32)

/-- The unassigned opcodes of 30_encoding.md R97. -/
def Unassigned (opc : Nat) : Prop :=
  (0x03 ≤ opc ∧ opc ≤ 0x07) ∨ (0x0B ≤ opc ∧ opc ≤ 0x0F) ∨ (0x14 ≤ opc ∧ opc ≤ 0x17) ∨ (0x1C ≤ opc ∧ opc ≤ 0x3F)

/-- `V[i] = 1`. -/
def Valid (s : State) (i : RegIx) : Prop := s.valid.getLsbD i.val = true

/-- `x[i] <- v` (00_scope.md R11). -/
def written (s : State) (i : RegIx) (v : Nat) : State :=
  { s with x := s.x.set i.val v, valid := s.valid ||| BitVec.twoPow 16 i.val }

/-- The primary destination with Z and U (10_state.md R38, R39). -/
def primary (s : State) (rd : RegIx) (v : Nat) : State :=
  { written s rd v with status := { s.status with z := decide (v = 0), u := decide (v = 1) } }

/-- A primality verdict: the primary destination and P (41_primality.md R133, R137). -/
def verdict (s : State) (rd : RegIx) (pass : Bool) : State :=
  { primary s rd (if pass then 1 else 0) with
    status := { s.status with p := pass, z := !pass, u := pass } }

/-- Success completion (60_exceptions.md R284). -/
def completed (s : State) : State :=
  { s with
    status := { s.status with busy := false, done := true, err := false, errCode := .noError }
    cmdCnt := s.cmdCnt + 1 }

/-- Error completion (60_exceptions.md R287). -/
def failed (s : State) (e : ErrCode) : State :=
  { s with
    status := { s.status with busy := false, done := true, err := true, errCode := e }
    cmdCnt := s.cmdCnt + 1 }

/-- Issue of a word (60_exceptions.md R281). -/
def issued (s : State) (w : Word) : State :=
  { s with
    lastCmd := w
    status := { s.status with busy := true, done := false, err := false, errCode := .noError } }

/-- The strong-probable-prime criterion of 41_primality.md R132: `n - 1 = d·2^r` with `d` odd, and `a^d ≡ 1` or
`a^(2^j·d) ≡ -1` (mod n) for some `j < r`. -/
def StrongPass (n a : Nat) : Prop :=
  ∃ d r, d % 2 = 1 ∧ n - 1 = d * 2 ^ r ∧ (a ^ d % n = 1 ∨ ∃ j, j < r ∧ a ^ (2 ^ j * d) % n = n - 1)

/-- A base in the source's contract for `n` (60_exceptions.md R300). -/
def InContract (n a : Nat) : Prop := 2 ≤ a ∧ a ≤ n - 2

/-- The recursion of 42_modular.md R187 whose base case is `extended_gcd(a, 0) = (a, 1, 0)`. -/
inductive Bezout : Nat → Nat → Nat → Int → Int → Prop where
  | base (a : Nat) : Bezout a 0 a 1 0
  | step (a b g : Nat) (x y : Int) (hb : b ≠ 0) (h : Bezout b (a % b) g x y) :
    Bezout a b g y (x - (a / b : Nat) * y)

/-- `bs(n)`, from the library's bit length (43_block_codec.md R220). -/
def bs (n : Nat) : Nat := (Nat.size n - 1) / 8

/-- A byte lies between two values. -/
def In (lo hi : Nat) (b : Byte) : Prop := lo ≤ b.toNat ∧ b.toNat ≤ hi

/-- One well-formed UTF-8 sequence: the rows of 43_block_codec.md R227. -/
def Utf8Sequence : List Byte → Prop
  | [a] => In 0x00 0x7F a
  | [a, b] => In 0xC2 0xDF a ∧ In 0x80 0xBF b
  | [a, b, c] =>
    (In 0xE0 0xE0 a ∧ In 0xA0 0xBF b ∧ In 0x80 0xBF c) ∨ (In 0xE1 0xEC a ∧ In 0x80 0xBF b ∧ In 0x80 0xBF c) ∨
    (In 0xED 0xED a ∧ In 0x80 0x9F b ∧ In 0x80 0xBF c) ∨ (In 0xEE 0xEF a ∧ In 0x80 0xBF b ∧ In 0x80 0xBF c)
  | [a, b, c, d] =>
    (In 0xF0 0xF0 a ∧ In 0x90 0xBF b ∧ In 0x80 0xBF c ∧ In 0x80 0xBF d) ∨
    (In 0xF1 0xF3 a ∧ In 0x80 0xBF b ∧ In 0x80 0xBF c ∧ In 0x80 0xBF d) ∨
    (In 0xF4 0xF4 a ∧ In 0x80 0x8F b ∧ In 0x80 0xBF c ∧ In 0x80 0xBF d)
  | _ => False

/-- `utf8_valid(b)`: `b` splits into well-formed sequences (43_block_codec.md R227). -/
def Utf8 (b : List Byte) : Prop := ∃ seqs : List (List Byte), seqs.flatten = b ∧ ∀ q ∈ seqs, Utf8Sequence q

/-- The bytes of a buffer from an index on. -/
def bytes (s : State) (b : Buf) (a k : Nat) : List Byte := (List.range k).map fun j => s.byteAt b (a + j)

/-- The big-endian number of `k` bytes of a buffer from index `a` (00_scope.md R13). -/
def beSum (s : State) (b : Buf) (a k : Nat) : Nat :=
  (Finset.range k).sum fun i => (s.byteAt b (a + i)).toNat * 256 ^ (k - 1 - i)

/-- The state while the host's aligned full-word write of `data` at the block's offset `off` is the next input. -/
def writing (s : State) (off : Nat) (data : Word) : State :=
  { s with inputs := .write (s.params.mrtBase + off) 0xF#4 data :: s.inputs }

/-- The state while the host's aligned full-word read at the block's offset `off` is the next input. -/
def reading (s : State) (off : Nat) : State :=
  { s with inputs := .read (s.params.mrtBase + off) 0xF#4 :: s.inputs }

/-- A write was accepted without an error response. -/
def accepted (s : State) : State := { s with resp := some { error := false, data := none } }

/-- A read was answered with data. -/
def answered (s : State) (data : Word) : State := { s with resp := some { error := false, data := some data } }

/-- The numbers of the table of 60_exceptions.md R288. -/
def errNumber : ErrCode → Nat
  | .noError => 0x00
  | .illegal => 0x01
  | .unwritten => 0x02
  | .operand => 0x03
  | .invalidInput => 0x10
  | .keygen => 0x11
  | .encryption => 0x12
  | .decryption => 0x13
  | .signature => 0x14
  | .noInverse => 0x15
  | .outfull => 0x20
  | .blocksize => 0x21

/-- Whether a command is an MRTEST. -/
def IsMrtest : Instr → Prop
  | .mrtest _ _ _ => True
  | _ => False

/-- Two states that differ at most in what registers with `V[i] = 0` hold. -/
def AgreeOnValid (s t : State) : Prop :=
  t = { s with x := t.x } ∧ ∀ i : RegIx, Valid s i → s.x[i.val] = t.x[i.val]

/-- The aligned offset of a legal access: a control register, or a word of a window within the parameters
(20_memory.md R63 to R66, R68 to R70). -/
def LegalOffset (p : Params) (off : Nat) : Prop :=
  off % 4 = 0 ∧
    (off ≤ 0x30 ∨ (0x1000 ≤ off ∧ off < 0x2000 ∧ (off - 0x1000) / 4 < p.opw / 32) ∨
      (0x4000 ≤ off ∧ off < 0x8000 ∧ (off - 0x4000) / 4 < p.msgCap / 4) ∨
      (0x8000 ≤ off ∧ off < 0xC000 ∧ (off - 0x8000) / 4 < p.outCap / 4))

end Sys2Proof.Spec

open Sys2Proof Sys2Proof.Machine

/-! ### Encoding -/

/-- Decoding an encoded command gives it back, for every command with every operand (30_encoding.md R91 to R95,
R106). -/
def Obligations.DecodeEncodeRoundTrip : Prop := ∀ i : Instr, decode (encode i) = .ok i

/-- A word that decodes is the encoding of what it decodes to: no two words are one command. -/
def Obligations.EncodeDecodeRoundTrip : Prop := ∀ (w : Word) (i : Instr), decode w = .ok i → encode i = w

/-- The decoder takes a word to a command exactly when the word matches that command's row of 30_encoding.md R96. -/
def Obligations.DecodeFollowsOpcodeTable : Prop :=
  (∀ (w : Word) (i : Instr), decode w = .ok i →
    Spec.rowOf i ∈ Spec.opcodeTable ∧ w &&& (Spec.rowOf i).2 = (Spec.rowOf i).1) ∧
  ∀ w : Word, ∀ row ∈ Spec.opcodeTable, w &&& row.2 = row.1 → ∃ i, decode w = .ok i ∧ Spec.rowOf i = row

/-- Words that spec/95_test_vectors.md writes out decode to the commands they stand for, one of each family at least. -/
def Obligations.SpecWordsDecode : Prop :=
  decode 0x00000000#32 = .ok .nop ∧
  decode 0x04C80000#32 = .ok (.mov 3 2) ∧
  decode 0x08810001#32 = .ok (.ldi 2 65537#22) ∧
  decode 0x2184000A#32 = .ok (.mrtest 6 1 10) ∧
  decode 0x25448000#32 = .ok (.mrround 5 1 2) ∧
  decode 0x4048D001#32 = .ok (.modexp 1 2 3 4 .ladder) ∧
  decode 0x49E250C0#32 = .ok (.xgcd 7 8 9 4 3) ∧
  decode 0x681C0000#32 = .ok (.bjoin 7) ∧
  decode 0x6C000000#32 = .ok .utf8chk

/-- 30_encoding.md R97 to R99: a pending word that matches no row of R96 completes with ILLEGAL and changes nothing
but STATUS and CMDCNT (LASTCMD took the word at issue); the unassigned opcodes and MODEXP words with IMM6 of 2..63 match
no row. -/
def Obligations.UnmatchedWordsAreIllegal : Prop :=
  (∀ s : State, s.inputs = [] → s.rst = false → s.status.busy = true →
    (∀ row ∈ Spec.opcodeTable, s.lastCmd &&& row.2 ≠ row.1) → step s = .next (Spec.failed s .illegal)) ∧
  (∀ w : Word, Spec.Unassigned (w.toNat / 2 ^ 26) → ∀ row ∈ Spec.opcodeTable, w &&& row.2 ≠ row.1) ∧
  ∀ (f1 f2 f3 f4 f5 : RegIx) (imm6 : Nat), 2 ≤ imm6 → imm6 < 64 →
    ∀ row ∈ Spec.opcodeTable, Spec.wordR 0x10 f1 f2 f3 f4 f5 imm6 &&& row.2 ≠ row.1

/-- 30_encoding.md R100: equal destination fields are ILLEGAL, whatever the sources; a well-formed command is never
ILLEGAL, so a destination may equal a source. -/
def Obligations.OnlyEqualDestinationsAreIllegal : Prop :=
  (∀ (rg rx ry ra rb : RegIx) (s : State), rg = rx ∨ rg = ry ∨ rx = ry →
    exec (.xgcd rg rx ry ra rb) s = .next (Spec.failed s .illegal)) ∧
  (∀ (rd rn : RegIx) (s : State), exec (.mrdecomp rd rd rn) s = .next (Spec.failed s .illegal)) ∧
  ∀ (i : Instr) (s t : State), i.wellFormed = true → s.status.busy = true → s.status.errCode = .noError →
    exec i s = .next t → t.status.errCode ≠ .illegal

/-- 30_encoding.md R106 and R107 on lines of text: syntax, pseudo-instructions, immediates out of range. -/
def Obligations.AssemblerLines : Prop :=
  assembleLine "modexp.ladder r1, r2, r3, r4".toList = .command (.modexp 1 2 3 4 .ladder) ∧
  assembleLine "modexp.bin r1, r2, r3, r4".toList = .command (.modexp 1 2 3 4 .binary) ∧
  assembleLine "mrtest r6, r1".toList = .command (.mrtest 6 1 10) ∧
  assembleLine "clr r15 # clear".toList = .command (.ldi 15 0#22) ∧
  assembleLine "ldi r2, 0x10001".toList = .command (.ldi 2 65537#22) ∧
  assembleLine "mrtest r6, r1, 64".toList = .refused ∧
  assembleLine "ldi r0, 4194304".toList = .refused

/-! ### The step -/

/-- The engine's turn runs the decoded command (60_exceptions.md R283): with `rst` = 0 and BUSY = 1, a step whose next
input is none or an engine turn is `exec` of the command LASTCMD decodes to, at the state without that input.
The list of inputs is the model's choice (log 7). -/
def Obligations.StepRunsPendingCommand : Prop :=
  ∀ (s : State) (rest : List Input) (i : Instr), s.rst = false → s.status.busy = true → decode s.lastCmd = .ok i →
    (s.inputs = [] → step s = exec i s) ∧
    (s.inputs = .engine :: rest → step s = exec i { s with inputs := rest })

/-- A placed command word is run by the very next step, from the state its issue leaves (log 16 of the model;
60_exceptions.md R281). -/
def Obligations.PlacedWordRunsNext : Prop :=
  ∀ (s : State) (w : Nat) (i : Instr), w < 2 ^ 32 → decode (BitVec.ofNat 32 w) = .ok i →
    step (s.withFetchWord 32 w) = exec i (Spec.issued { s with rst := false } (BitVec.ofNat 32 w))

/-- 60_exceptions.md R303: IDLE is the rest state, and only a CMD write leaves it. With nothing pending an idle step
changes nothing, and the one input after which BUSY = 1 is a host write.
The list of inputs is the model's choice (log 7). -/
def Obligations.IdleRestsUntilCommand : Prop :=
  (∀ s : State, s.status.busy = false → s.inputs = [] → step s = .next s) ∧
  ∀ (s t : State) (i : Input) (rest : List Input), s.status.busy = false → s.inputs = i :: rest → step s = .next t →
    t.status.busy = true →
    ∃ data, i = .write (s.params.mrtBase + 0x18) 0xF#4 data ∧ t.lastCmd = data ∧ s.rst = false

/-! ### The register moves -/

/-- 44_register_moves.md R260: NOP completes from every state and does nothing else; its word is LASTCMD at reset, and
any other word with OPC = 0x00 is ILLEGAL. -/
def Obligations.NopOnlyCompletes : Prop :=
  decode 0x00000000#32 = .ok .nop ∧
  (∀ w : Word, w.toNat / 2 ^ 26 = 0 → w ≠ 0x00000000#32 → decode w = .error .reservedBits) ∧
  (∀ s : State, s.inputs = [] → s.rst = false → s.status.busy = true → s.lastCmd.toNat / 2 ^ 26 = 0 →
    s.lastCmd ≠ 0x00000000#32 → step s = .next (Spec.failed s .illegal)) ∧
  State.reset.lastCmd = encode .nop ∧
  ∀ s : State, exec .nop s = .next (Spec.completed s)

/-- 44_register_moves.md R261. -/
def Obligations.MovCopiesRegister : Prop :=
  (∀ rd rs : RegIx, decode (Spec.wordR 0x01 rd rs 0 0 0 0) = .ok (.mov rd rs)) ∧
  ∀ (rd rs : RegIx) (s : State),
    (¬ Spec.Valid s rs → exec (.mov rd rs) s = .next (Spec.failed s .unwritten)) ∧
    (Spec.Valid s rs → exec (.mov rd rs) s = .next (Spec.completed (Spec.primary s rd s.x[rs.val])))

/-- 44_register_moves.md R262: LDI completes from every state with the zero-extended immediate. -/
def Obligations.LdiLoadsImmediate : Prop :=
  (∀ (rd : RegIx) (imm22 : Nat), imm22 < 2 ^ 22 →
    decode (Spec.wordI 0x02 rd imm22) = .ok (.ldi rd (BitVec.ofNat 22 imm22))) ∧
  ∀ (rd : RegIx) (imm22 : Nat) (s : State), imm22 < 2 ^ 22 →
    exec (.ldi rd (BitVec.ofNat 22 imm22)) s = .next (Spec.completed (Spec.primary s rd imm22))

/-! ### Primality -/

/-- 41_primality.md R133: the result of MRTEST as a function of the delivered bases.
The queue of delivered bases is the model's choice (log 8). -/
def Obligations.MrtestResultFromDraws : Prop :=
  (∀ (rd rn : RegIx) (k : Fin 64), decode (Spec.wordR 0x08 rd rn 0 0 0 k.val) = .ok (.mrtest rd rn k)) ∧
  ∀ (rd rn : RegIx) (k : Fin 64) (s : State),
    (¬ Spec.Valid s rn → exec (.mrtest rd rn k) s = .next (Spec.failed s .unwritten)) ∧
    (Spec.Valid s rn → s.x[rn.val] < 2 ∨ (4 ≤ s.x[rn.val] ∧ s.x[rn.val] % 2 = 0) →
      exec (.mrtest rd rn k) s = .next (Spec.completed (Spec.verdict s rd false))) ∧
    (Spec.Valid s rn → s.x[rn.val] = 2 ∨ s.x[rn.val] = 3 →
      exec (.mrtest rd rn k) s = .next (Spec.completed (Spec.verdict s rd true))) ∧
    (Spec.Valid s rn → 5 ≤ s.x[rn.val] → s.x[rn.val] % 2 = 1 →
      (∀ bases rest, s.witness = bases ++ rest → bases.length = k.val →
        (∀ a ∈ bases, Spec.InContract s.x[rn.val] a ∧ Spec.StrongPass s.x[rn.val] a) →
        exec (.mrtest rd rn k) s =
          .next (Spec.completed (Spec.verdict { s with witness := rest } rd true))) ∧
      (∀ bases a rest, s.witness = bases ++ a :: rest → bases.length < k.val →
        (∀ c ∈ bases, Spec.InContract s.x[rn.val] c ∧ Spec.StrongPass s.x[rn.val] c) →
        Spec.InContract s.x[rn.val] a → ¬ Spec.StrongPass s.x[rn.val] a →
        exec (.mrtest rd rn k) s =
          .next (Spec.completed (Spec.verdict { s with witness := rest } rd false))))

/-- MRTEST waits, with nothing changed, for a base that has not come (60_exceptions.md R301), and is refused where the
source breaks its contract (R300; 93 I19). How a draw reaches the engine is the model's choice (logs 8 and 9). -/
def Obligations.MrtestWaitsForWitness : Prop :=
  ∀ (rd rn : RegIx) (k : Fin 64) (s : State),
    Spec.Valid s rn → 5 ≤ s.x[rn.val] → s.x[rn.val] % 2 = 1 →
      (s.witness.length < k.val →
        (∀ a ∈ s.witness, Spec.InContract s.x[rn.val] a ∧ Spec.StrongPass s.x[rn.val] a) →
        exec (.mrtest rd rn k) s = .next s) ∧
      (∀ bases a rest, s.witness = bases ++ a :: rest → bases.length < k.val →
        (∀ c ∈ bases, Spec.InContract s.x[rn.val] c ∧ Spec.StrongPass s.x[rn.val] c) →
        ¬ Spec.InContract s.x[rn.val] a →
        exec (.mrtest rd rn k) s = .refused .witnessOutOfContract)

/-- 41_primality.md R134: when `n` is prime, MRTEST writes 1 under every sequence of draws.
The queue of delivered bases is the model's choice (log 8). -/
def Obligations.PrimePassesUnderEveryDraw : Prop :=
  ∀ (rd rn : RegIx) (k : Fin 64) (s : State), Spec.Valid s rn → Nat.Prime s.x[rn.val] →
    (∀ a ∈ s.witness, Spec.InContract s.x[rn.val] a) → k.val ≤ s.witness.length →
    ∃ rest, exec (.mrtest rd rn k) s =
      .next (Spec.completed (Spec.verdict { s with witness := rest } rd true))

/-- 41_primality.md R139: MRTEST on the draws `a_1 .. a_k` writes 1 iff each MRROUND with base `a_i` writes 1, and takes
draws only up to the first that does not. `rt`, `rb` are the registers MRROUND writes and reads its base from.
The queue of delivered bases is the model's choice (log 8). -/
def Obligations.MrtestIsRepeatedMrround : Prop :=
  ∀ (rd rn rt rb : RegIx) (k : Fin 64) (s : State) (bases rest : List Nat), rn ≠ rb → Spec.Valid s rn →
    5 ≤ s.x[rn.val] → s.x[rn.val] % 2 = 1 → s.witness = bases ++ rest → bases.length = k.val →
    (∀ a ∈ bases, Spec.InContract s.x[rn.val] a) →
    ∃ pass used, exec (.mrtest rd rn k) s =
        .next (Spec.completed (Spec.verdict { s with witness := s.witness.drop used } rd pass)) ∧
      used ≤ k.val ∧
      (pass = true ↔ ∀ a ∈ bases,
        exec (.mrround rt rn rb) (Spec.written s rb a) =
          .next (Spec.completed (Spec.verdict (Spec.written s rb a) rt true))) ∧
      (pass = true → used = k.val) ∧
      (pass = false → ∃ a, bases[used - 1]? = some a ∧ 1 ≤ used ∧
        exec (.mrround rt rn rb) (Spec.written s rb a) =
          .next (Spec.completed (Spec.verdict (Spec.written s rb a) rt false)) ∧
        ∀ c ∈ bases.take (used - 1),
          exec (.mrround rt rn rb) (Spec.written s rb c) =
            .next (Spec.completed (Spec.verdict (Spec.written s rb c) rt true)))

/-- 41_primality.md R137, with the round of R132 as its criterion. -/
def Obligations.MrroundDecidesOneBase : Prop :=
  (∀ rd rn ra : RegIx, decode (Spec.wordR 0x09 rd rn ra 0 0 0) = .ok (.mrround rd rn ra)) ∧
  ∀ (rd rn ra : RegIx) (s : State),
    (¬ (Spec.Valid s rn ∧ Spec.Valid s ra) → exec (.mrround rd rn ra) s = .next (Spec.failed s .unwritten)) ∧
    (Spec.Valid s rn → Spec.Valid s ra →
      (s.x[rn.val] < 2 ∨ (4 ≤ s.x[rn.val] ∧ s.x[rn.val] % 2 = 0) →
        exec (.mrround rd rn ra) s = .next (Spec.completed (Spec.verdict s rd false))) ∧
      (s.x[rn.val] = 2 ∨ s.x[rn.val] = 3 →
        exec (.mrround rd rn ra) s = .next (Spec.completed (Spec.verdict s rd true))) ∧
      (5 ≤ s.x[rn.val] → s.x[rn.val] % 2 = 1 →
        (¬ Spec.InContract s.x[rn.val] s.x[ra.val] →
          exec (.mrround rd rn ra) s = .next (Spec.failed s .operand)) ∧
        (Spec.InContract s.x[rn.val] s.x[ra.val] → Spec.StrongPass s.x[rn.val] s.x[ra.val] →
          exec (.mrround rd rn ra) s = .next (Spec.completed (Spec.verdict s rd true))) ∧
        (Spec.InContract s.x[rn.val] s.x[ra.val] → ¬ Spec.StrongPass s.x[rn.val] s.x[ra.val] →
          exec (.mrround rd rn ra) s = .next (Spec.completed (Spec.verdict s rd false)))))

/-- 41_primality.md R138 and R131: `x[F1] = d`, `x[F2] = r` with `n - 1 = d·2^r` and `d` odd. -/
def Obligations.MrdecompSplitsPowerOfTwo : Prop :=
  (∀ rd rr rn : RegIx, decode (Spec.wordR 0x0A rd rr rn 0 0 0) = .ok (.mrdecomp rd rr rn)) ∧
  ∀ (rd rr rn : RegIx) (s : State),
    (rd = rr → exec (.mrdecomp rd rr rn) s = .next (Spec.failed s .illegal)) ∧
    (rd ≠ rr → ¬ Spec.Valid s rn → exec (.mrdecomp rd rr rn) s = .next (Spec.failed s .unwritten)) ∧
    (rd ≠ rr → Spec.Valid s rn → s.x[rn.val] ≤ 1 →
      exec (.mrdecomp rd rr rn) s = .next (Spec.failed s .operand)) ∧
    (rd ≠ rr → Spec.Valid s rn → 2 ≤ s.x[rn.val] →
      ∀ d r, d % 2 = 1 → s.x[rn.val] - 1 = d * 2 ^ r →
        exec (.mrdecomp rd rr rn) s = .next (Spec.completed (Spec.written (Spec.primary s rd d) rr r)) ∧
        (s.x[rn.val] < 2 ^ s.params.opw → r ≤ s.params.opw - 1)) ∧
    (2 ≤ s.x[rn.val] → ∃ d r, d % 2 = 1 ∧ s.x[rn.val] - 1 = d * 2 ^ r)

/-! ### Modular arithmetic -/

/-- 42_modular.md R170, for both methods. -/
def Obligations.ModexpComputesPower : Prop :=
  (∀ rd rb re rm : RegIx,
    decode (Spec.wordR 0x10 rd rb re rm 0 0) = .ok (.modexp rd rb re rm .binary) ∧
    decode (Spec.wordR 0x10 rd rb re rm 0 1) = .ok (.modexp rd rb re rm .ladder)) ∧
  ∀ (rd rb re rm : RegIx) (method : Method) (s : State),
    (¬ (Spec.Valid s rb ∧ Spec.Valid s re ∧ Spec.Valid s rm) →
      exec (.modexp rd rb re rm method) s = .next (Spec.failed s .unwritten)) ∧
    (Spec.Valid s rb → Spec.Valid s re → Spec.Valid s rm → s.x[rm.val] = 0 →
      exec (.modexp rd rb re rm method) s = .next (Spec.failed s .operand)) ∧
    (Spec.Valid s rb → Spec.Valid s re → Spec.Valid s rm → s.x[rm.val] ≠ 0 →
      exec (.modexp rd rb re rm method) s =
        .next (Spec.completed (Spec.primary s rd (s.x[rb.val] ^ s.x[re.val] % s.x[rm.val]))))

/-- 42_modular.md R173: the method bit changes no value, no flag and no error. -/
def Obligations.MethodsAgree : Prop :=
  (∀ (rd rb re rm : RegIx) (s : State), exec (.modexp rd rb re rm .binary) s = exec (.modexp rd rb re rm .ladder) s) ∧
  ∀ b e m : Nat, 1 ≤ m → modexpBinary b e m = b ^ e % m ∧ modexpLadder b e m = b ^ e % m

/-- 42_modular.md R180. -/
def Obligations.GcdComputesGreatestCommonDivisor : Prop :=
  (∀ rd ra rb : RegIx, decode (Spec.wordR 0x11 rd ra rb 0 0 0) = .ok (.gcd rd ra rb)) ∧
  ∀ (rd ra rb : RegIx) (s : State),
    (¬ (Spec.Valid s ra ∧ Spec.Valid s rb) → exec (.gcd rd ra rb) s = .next (Spec.failed s .unwritten)) ∧
    (Spec.Valid s ra → Spec.Valid s rb →
      exec (.gcd rd ra rb) s = .next (Spec.completed (Spec.primary s rd (Nat.gcd s.x[ra.val] s.x[rb.val]))))

/-- 42_modular.md R185 and R187: XGCD writes the gcd and the pair of the recursion whose base case is
`extended_gcd(a, 0) = (a, 1, 0)`, in two's complement; that pair satisfies `a·x + b·y = g`. -/
def Obligations.XgcdWritesBezoutPair : Prop :=
  (∀ rg rx ry ra rb : RegIx, decode (Spec.wordR 0x12 rg rx ry ra rb 0) = .ok (.xgcd rg rx ry ra rb)) ∧
  (∀ a b, ∃ g x y, Spec.Bezout a b g x y) ∧
  (∀ a b g x y, Spec.Bezout a b g x y → g = Nat.gcd a b ∧ (a : Int) * x + (b : Int) * y = g) ∧
  ∀ (rg rx ry ra rb : RegIx) (s : State),
    (rg = rx ∨ rg = ry ∨ rx = ry → exec (.xgcd rg rx ry ra rb) s = .next (Spec.failed s .illegal)) ∧
    (rg ≠ rx → rg ≠ ry → rx ≠ ry →
      (¬ (Spec.Valid s ra ∧ Spec.Valid s rb) →
        exec (.xgcd rg rx ry ra rb) s = .next (Spec.failed s .unwritten)) ∧
      (Spec.Valid s ra → Spec.Valid s rb →
        ∀ g x y, Spec.Bezout s.x[ra.val] s.x[rb.val] g x y →
          exec (.xgcd rg rx ry ra rb) s =
            .next (Spec.completed (Spec.written (Spec.written (Spec.primary s rg g)
              rx (x % ((2 ^ s.params.opw : Nat) : Int)).toNat) ry (y % ((2 ^ s.params.opw : Nat) : Int)).toNat))))

/-- 42_modular.md R186: the coefficients fit OPW-bit two's complement, so what XGCD writes to its second and third
register, read as signed numbers, is `x` and `y`. -/
def Obligations.BezoutCoefficientsFit : Prop :=
  (∀ (opw a b g : Nat) (x y : Int), 64 ≤ opw → a < 2 ^ opw → b < 2 ^ opw → Spec.Bezout a b g x y →
    (-(2 ^ (opw - 1) : Int) ≤ x ∧ x < 2 ^ (opw - 1)) ∧ (-(2 ^ (opw - 1) : Int) ≤ y ∧ y < 2 ^ (opw - 1)) ∧
    (BitVec.ofNat opw (tw opw x)).toInt = x ∧ (BitVec.ofNat opw (tw opw y)).toInt = y) ∧
  ∀ (rg rx ry ra rb : RegIx) (s : State) (g : Nat) (x y : Int), 64 ≤ s.params.opw →
    rg ≠ rx → rg ≠ ry → rx ≠ ry → Spec.Valid s ra → Spec.Valid s rb →
    s.x[ra.val] < 2 ^ s.params.opw → s.x[rb.val] < 2 ^ s.params.opw →
    Spec.Bezout s.x[ra.val] s.x[rb.val] g x y →
    ∃ t, exec (.xgcd rg rx ry ra rb) s = .next t ∧ t.status.err = false ∧ t.x[rg.val] = g ∧
      (BitVec.ofNat s.params.opw t.x[rx.val]).toInt = x ∧ (BitVec.ofNat s.params.opw t.x[ry.val]).toInt = y

/-- 42_modular.md R190. -/
def Obligations.ModinvInvertsOrFails : Prop :=
  (∀ rd ra rm : RegIx, decode (Spec.wordR 0x13 rd ra rm 0 0 0) = .ok (.modinv rd ra rm)) ∧
  ∀ (rd ra rm : RegIx) (s : State),
    (¬ (Spec.Valid s ra ∧ Spec.Valid s rm) → exec (.modinv rd ra rm) s = .next (Spec.failed s .unwritten)) ∧
    (Spec.Valid s ra → Spec.Valid s rm → s.x[rm.val] = 0 →
      exec (.modinv rd ra rm) s = .next (Spec.failed s .operand)) ∧
    (Spec.Valid s ra → Spec.Valid s rm → s.x[rm.val] ≠ 0 → Nat.gcd s.x[ra.val] s.x[rm.val] ≠ 1 →
      exec (.modinv rd ra rm) s = .next (Spec.failed s .noInverse)) ∧
    (Spec.Valid s ra → Spec.Valid s rm → s.x[rm.val] ≠ 0 →
      ∀ x y, Spec.Bezout s.x[ra.val] s.x[rm.val] 1 x y →
        exec (.modinv rd ra rm) s = .next (Spec.completed (Spec.primary s rd (x % (s.x[rm.val] : Int)).toNat)))

/-- 42_modular.md R191: for `m > 1` and `gcd(a, m) = 1` MODINV writes the unique inverse in 1 .. m-1. -/
def Obligations.ModinvWritesUniqueInverse : Prop :=
  ∀ (rd ra rm : RegIx) (s : State), Spec.Valid s ra → Spec.Valid s rm → 1 < s.x[rm.val] →
    Nat.gcd s.x[ra.val] s.x[rm.val] = 1 →
    ∃ res, exec (.modinv rd ra rm) s = .next (Spec.completed (Spec.primary s rd res)) ∧
      1 ≤ res ∧ res ≤ s.x[rm.val] - 1 ∧ s.x[ra.val] * res % s.x[rm.val] = 1 ∧
      ∀ c, 1 ≤ c → c ≤ s.x[rm.val] - 1 → s.x[ra.val] * c % s.x[rm.val] = 1 → c = res

/-! ### The block codec -/

/-- 43_block_codec.md R221 and R220. -/
def Obligations.BsizeWritesBlockSize : Prop :=
  (∀ rd rn : RegIx, decode (Spec.wordR 0x18 rd rn 0 0 0 0) = .ok (.bsize rd rn)) ∧
  ∀ (rd rn : RegIx) (s : State),
    (¬ Spec.Valid s rn → exec (.bsize rd rn) s = .next (Spec.failed s .unwritten)) ∧
    (Spec.Valid s rn → s.x[rn.val] = 0 → exec (.bsize rd rn) s = .next (Spec.failed s .operand)) ∧
    (Spec.Valid s rn → s.x[rn.val] ≠ 0 →
      exec (.bsize rd rn) s = .next (Spec.completed (Spec.primary s rd (Spec.bs s.x[rn.val]))) ∧
      (s.x[rn.val] < 2 ^ s.params.opw → Spec.bs s.x[rn.val] ≤ (s.params.opw - 1) / 8))

/-- 43_block_codec.md R222: one chunk of the message per BSPLIT, big-endian, and the errors in their order. -/
def Obligations.BsplitTakesNextChunk : Prop :=
  (∀ rd rn : RegIx, decode (Spec.wordR 0x19 rd rn 0 0 0 0) = .ok (.bsplit rd rn)) ∧
  ∀ (rd rn : RegIx) (s : State),
    (¬ Spec.Valid s rn → exec (.bsplit rd rn) s = .next (Spec.failed s .unwritten)) ∧
    (Spec.Valid s rn → s.x[rn.val] = 0 → exec (.bsplit rd rn) s = .next (Spec.failed s .operand)) ∧
    (Spec.Valid s rn → s.x[rn.val] ≠ 0 → Spec.bs s.x[rn.val] = 0 →
      exec (.bsplit rd rn) s = .next (Spec.failed s .blocksize)) ∧
    (Spec.Valid s rn → Spec.bs s.x[rn.val] ≠ 0 → s.msgLen = 0 →
      exec (.bsplit rd rn) s = .next (Spec.failed s .invalidInput)) ∧
    (Spec.Valid s rn → Spec.bs s.x[rn.val] ≠ 0 → s.msgLen ≠ 0 → s.msgLen ≤ s.msgPtr →
      exec (.bsplit rd rn) s = .next (Spec.completed { s with status := { s.status with e := true } })) ∧
    (Spec.Valid s rn → Spec.bs s.x[rn.val] ≠ 0 → s.msgPtr < s.msgLen →
      ∀ k v, k = min (Spec.bs s.x[rn.val]) (s.msgLen - s.msgPtr) → v = Spec.beSum s .msg s.msgPtr k →
        exec (.bsplit rd rn) s =
          .next (Spec.completed (Spec.primary
            { s with
              msgPtr := s.msgPtr + k
              status := { s.status with e := decide (s.msgLen ≤ s.msgPtr + k) } } rd v)))

/-- 43_block_codec.md R224 and 00_scope.md R13: BJOIN appends the minimal big-endian bytes of the block, every other
byte of OUTBUF reads as before, and nothing else changes; OUTFULL when they do not fit. -/
def Obligations.BjoinAppendsMinimalBytes : Prop :=
  (∀ rs : RegIx, decode (Spec.wordR 0x1A 0 rs 0 0 0 0) = .ok (.bjoin rs)) ∧
  ∀ (rs : RegIx) (s : State),
    (¬ Spec.Valid s rs → exec (.bjoin rs) s = .next (Spec.failed s .unwritten)) ∧
    (Spec.Valid s rs → s.params.outCap < s.outLen + (Nat.size s.x[rs.val] + 7) / 8 →
      exec (.bjoin rs) s = .next (Spec.failed s .outfull)) ∧
    (Spec.Valid s rs → s.outLen + (Nat.size s.x[rs.val] + 7) / 8 ≤ s.params.outCap →
      ∃ t, exec (.bjoin rs) s = .next t ∧
        t = Spec.completed
          { s with outBuf := t.outBuf, outLen := s.outLen + (Nat.size s.x[rs.val] + 7) / 8 } ∧
        Spec.beSum t .out s.outLen ((Nat.size s.x[rs.val] + 7) / 8) = s.x[rs.val] ∧
        (s.x[rs.val] ≠ 0 → t.byteAt .out s.outLen ≠ 0) ∧
        ∀ i, i < s.outLen ∨ s.outLen + (Nat.size s.x[rs.val] + 7) / 8 ≤ i → t.byteAt .out i = s.byteAt .out i)

/-- 43_block_codec.md R226 and R227: UTF8CHK succeeds exactly when OUTBUF[0 .. OUT_LEN-1] splits into well-formed
sequences, and changes nothing but the completion either way. -/
def Obligations.Utf8chkDecidesWellFormedness : Prop :=
  decode (Spec.wordR 0x1B 0 0 0 0 0 0) = .ok .utf8chk ∧
  ∀ s : State,
    (Spec.Utf8 (Spec.bytes s .out 0 s.outLen) → exec .utf8chk s = .next (Spec.completed s)) ∧
    (¬ Spec.Utf8 (Spec.bytes s .out 0 s.outLen) → exec .utf8chk s = .next (Spec.failed s .decryption))

/-- A chunk that does not begin with 0x00 comes back: BSPLIT into a register and BJOIN of it append the chunk's own
bytes (43_block_codec.md R225, R229, for one block). -/
def Obligations.SplitThenJoinReturnsChunk : Prop :=
  ∀ (rd rn : RegIx) (s t u : State), s.msgPtr < s.msgLen → s.byteAt .msg s.msgPtr ≠ 0 →
    exec (.bsplit rd rn) s = .next t → t.status.err = false → exec (.bjoin rd) t = .next u → u.status.err = false →
    s.msgPtr < t.msgPtr ∧ u.outLen = s.outLen + (t.msgPtr - s.msgPtr) ∧
      ∀ j, j < t.msgPtr - s.msgPtr → u.byteAt .out (s.outLen + j) = s.byteAt .msg (s.msgPtr + j)

/-- The RSA identity on the engine (43_block_codec.md R229): for n = p·q with distinct primes and (e·d) mod φ(n) = 1,
MODEXP by `e` into `rc` and then MODEXP of `rc` by `d` into `rw` gives the block back, with either method. Where `rc` is
the register of `d` or of `n`, the second command computes with what the first wrote there. -/
def Obligations.ModexpTwiceReturnsBlock : Prop :=
  ∀ (p q : Nat) (rc rw rv re rd rn : RegIx) (m1 m2 : Method) (s t u : State),
    Nat.Prime p → Nat.Prime q → p ≠ q → s.x[rn.val] = p * q →
    s.x[re.val] * s.x[rd.val] % ((p - 1) * (q - 1)) = 1 → s.x[rv.val] < p * q →
    exec (.modexp rc rv re rn m1) s = .next t → t.status.err = false →
    exec (.modexp rw rc rd rn m2) t = .next u → u.status.err = false →
    (rc ≠ rd → rc ≠ rn → u.x[rw.val] = s.x[rv.val]) ∧
    ∀ c, c = s.x[rv.val] ^ s.x[re.val] % (p * q) →
      u.x[rw.val] = c ^ (if rc = rd then c else s.x[rd.val]) % (if rc = rn then c else p * q)

/-! ### Whole-machine rules -/

/-- Every step keeps the invariant, from every state that meets it. -/
def Obligations.StepKeepsInvariant : Prop := ∀ s t : State, s.Inv → step s = .next t → t.Inv

/-- The reset state meets the invariant.
The registers' 0 there is the model's choice (log 3). -/
def Obligations.ResetMeetsInvariant : Prop := State.reset.Inv

/-- 60_exceptions.md R284 to R286: from every state every command but MRTEST completes, and MRTEST completes, waits
with nothing changed or is refused. A completion clears BUSY, sets DONE and counts, and ERR = 0 exactly with
ERRCODE 0x00.
The two other ends of MRTEST are the model's choices (logs 8 and 9). -/
def Obligations.EveryCommandCompletes : Prop :=
  ∀ (i : Instr) (s : State),
    (∃ t, exec i s = .next t ∧ t.status.busy = false ∧ t.status.done = true ∧ t.cmdCnt = s.cmdCnt + 1 ∧
      (t.status.err = false ↔ t.status.errCode = .noError)) ∨
    (Spec.IsMrtest i ∧ (exec i s = .next s ∨ exec i s = .refused .witnessOutOfContract))

/-- 60_exceptions.md R287: errors are precise. A command that ends with an error leaves the state as it was, apart from
STATUS and CMDCNT, and of STATUS only ERR, ERRCODE, BUSY and DONE change. -/
def Obligations.ErrorsArePrecise : Prop :=
  ∀ (i : Instr) (s t : State), s.status.busy = true → exec i s = .next t → t.status.busy = false →
    t.status.err = true → t = Spec.failed s t.status.errCode

/-- 30_encoding.md R104 and 60_exceptions.md R289: a legal command one of whose sources is invalid ends with UNWRITTEN,
before any check of its own. -/
def Obligations.InvalidSourceIsUnwritten : Prop :=
  ∀ (i : Instr) (s : State), i.wellFormed = true → (∃ r ∈ i.sources, ¬ Spec.Valid s r) →
    exec i s = .next (Spec.failed s .unwritten)

/-- 60_exceptions.md R304 and 43_block_codec.md R223: no command ends with KEYGEN, SIGNATURE or ENCRYPTION. -/
def Obligations.ReservedCodesNeverRaised : Prop :=
  ∀ (i : Instr) (s t : State), s.status.busy = true → exec i s = .next t → t.status.busy = false →
    t.status.errCode ≠ .keygen ∧ t.status.errCode ≠ .signature ∧ t.status.errCode ≠ .encryption

/-- The frame of the register file (10_state.md R20, R22, R23): a command changes no register but its destinations, no
valid bit of another register, clears no valid bit, and a destination it changes becomes valid. -/
def Obligations.OnlyDestinationsChange : Prop :=
  ∀ (i : Instr) (s t : State), exec i s = .next t →
    (∀ r : RegIx, r ∉ i.dests → t.x[r.val] = s.x[r.val] ∧ (Spec.Valid t r ↔ Spec.Valid s r)) ∧
    (∀ r : RegIx, Spec.Valid s r → Spec.Valid t r) ∧
    (∀ r : RegIx, t.x[r.val] ≠ s.x[r.val] → Spec.Valid t r)

/-- The frame of everything else (10_state.md R28 to R32; 60_exceptions.md R284): no command writes MSGBUF, MSG_LEN,
RSEL, CTRL, LASTCMD or OVR; only BSPLIT moves MSG_PTR; only BJOIN writes OUTBUF and OUT_LEN; only MRTEST takes bases. -/
def Obligations.CommandsLeaveTheRest : Prop :=
  ∀ (i : Instr) (s t : State), exec i s = .next t →
    t.params = s.params ∧ t.msgLen = s.msgLen ∧ t.rsel = s.rsel ∧ t.ie = s.ie ∧ t.lastCmd = s.lastCmd ∧
    t.status.ovr = s.status.ovr ∧ t.rst = s.rst ∧ t.inputs = s.inputs ∧ t.resp = s.resp ∧ t.draws = s.draws ∧
    t.epoch = s.epoch ∧
    (∀ a, t.byteAt .msg a = s.byteAt .msg a) ∧
    ((∀ rd rn, i ≠ .bsplit rd rn) → t.msgPtr = s.msgPtr) ∧
    ((∀ rs, i ≠ .bjoin rs) → t.outLen = s.outLen ∧ ∀ a, t.byteAt .out a = s.byteAt .out a) ∧
    (¬ Spec.IsMrtest i → t.witness = s.witness)

/-- 10_state.md R37: P is written only by MRTEST and MRROUND, as 1 for "probably prime" and 0 for "composite", the
value in the destination. -/
def Obligations.FlagPOnlyFromPrimality : Prop :=
  ∀ (i : Instr) (s t : State), s.status.busy = true → exec i s = .next t →
    ((∀ rd rn k, i ≠ .mrtest rd rn k) → (∀ rd rn ra, i ≠ .mrround rd rn ra) → t.status.p = s.status.p) ∧
    (∀ rd, ((∃ rn k, i = .mrtest rd rn k) ∨ ∃ rn ra, i = .mrround rd rn ra) → t.status.busy = false →
      t.status.err = false →
      (t.status.p = true ∧ t.x[rd.val] = 1) ∨ (t.status.p = false ∧ t.x[rd.val] = 0))

/-- 10_state.md R38 and R39: after a success that writes the primary destination, Z and U tell whether the value is 0
and 1; a success that writes none and every failed command leave them alone. The one command with a primary destination
that may write none is BSPLIT at the end of the message. -/
def Obligations.FlagsZUFollowPrimary : Prop :=
  ∀ (i : Instr) (s t : State), s.status.busy = true → exec i s = .next t →
    (t.status.err = true ∨ i.dests = [] ∨ (∃ rd rn, i = .bsplit rd rn ∧ s.msgLen ≤ s.msgPtr) → t.status.busy = false →
      t.status.z = s.status.z ∧ t.status.u = s.status.u) ∧
    (∀ rd others, i.dests = rd :: others → t.status.busy = false → t.status.err = false →
      (∀ rn, i = .bsplit rd rn → s.msgPtr < s.msgLen) →
      t.status.z = decide (t.x[rd.val] = 0) ∧ t.status.u = decide (t.x[rd.val] = 1))

/-- 10_state.md R40: E is written only by a successful BSPLIT, as "MSG_PTR ≥ MSG_LEN" after it. -/
def Obligations.FlagEOnlyFromBsplit : Prop :=
  ∀ (i : Instr) (s t : State), s.status.busy = true → exec i s = .next t →
    ((∀ rd rn, i ≠ .bsplit rd rn) ∨ t.status.err = true → t.status.busy = false → t.status.e = s.status.e) ∧
    (∀ rd rn, i = .bsplit rd rn → t.status.err = false → t.status.e = decide (t.msgLen ≤ t.msgPtr))

/-- What a register with `V[i] = 0` holds cannot be observed (10_state.md R26; 93 I5): states that differ only there
take the same outcome at every step, to states that differ only there. -/
def Obligations.InvalidRegistersUnobservable : Prop :=
  ∀ s s' : State, Spec.AgreeOnValid s s' →
    (∀ t, step s = .next t → ∃ t', step s' = .next t' ∧ Spec.AgreeOnValid t t') ∧
    (∀ r, step s = .refused r → step s' = .refused r)

/-- 60_exceptions.md R286 with ENGINE_FAIR (70_reset_and_hazards.md R332): a pending command other than MRTEST
completes within the steps of the pending inputs and one more, if none of them is the reset input.
The list of inputs is the model's choice (log 7). -/
def Obligations.PendingCommandCompletesInBound : Prop :=
  ∀ s : State, s.rst = false → s.status.busy = true → (∀ rd rn k, decode s.lastCmd ≠ .ok (.mrtest rd rn k)) →
    (∀ level, .rst level ∉ s.inputs) →
    ∃ k t, k ≤ s.inputs.length + 1 ∧ core.run k s = .next t ∧ t.status.busy = false ∧ t.status.done = true ∧
      t.cmdCnt = s.cmdCnt + 1

/-! ### The host bus -/

/-- 60_exceptions.md R281 and R282: a write of CMD issues the word when BUSY = 0, and is ignored but for OVR when
BUSY = 1.
The response is the model's form (log 11). -/
def Obligations.CmdWriteIssues : Prop :=
  ∀ (s : State) (w : Word), s.rst = false →
    (s.status.busy = false → step (Spec.writing s 0x18 w) = .next (Spec.accepted (Spec.issued s w))) ∧
    (s.status.busy = true →
      step (Spec.writing s 0x18 w) =
        .next (Spec.accepted { s with status := { s.status with ovr := true } }))

/-- 10_state.md R42: while BUSY = 1 a legal write of CMD, VALID, RSEL, MSG_LEN, MSG_PTR, OUT_LEN, the operand window,
MSGBUF or OUTBUF sets OVR and has no other effect.
The response is the model's form (log 11). -/
def Obligations.BusyWritesOnlySetOvr : Prop :=
  ∀ (s : State) (off : Nat) (data : Word), s.rst = false → s.status.busy = true → Spec.LegalOffset s.params off →
    off ∈ [0x18, 0x1C, 0x20, 0x24, 0x28, 0x2C] ∨ 0x1000 ≤ off →
    step (Spec.writing s off data) = .next (Spec.accepted { s with status := { s.status with ovr := true } })

/-- 10_state.md R43: while BUSY = 1, reads of the operand window, MSGBUF, OUTBUF, VALID, MSG_PTR and OUT_LEN return a
free value, and the other registers their exact values.
The response and the counter are the model's form (logs 6, 11, 20). -/
def Obligations.BusyReads : Prop :=
  ∀ (s : State) (off : Nat), s.rst = false → s.status.busy = true → Spec.LegalOffset s.params off →
    (off ∈ [0x1C, 0x28, 0x2C] ∨ 0x1000 ≤ off →
      step (Spec.reading s off) =
        .next (Spec.answered { s with draws := s.draws + 1 } (Config.busyRead s.draws))) ∧
    (off ∈ [0x00, 0x04, 0x08, 0x0C, 0x10, 0x14, 0x18, 0x20, 0x24, 0x30] →
      ∃ data, step (Spec.reading s off) = .next (Spec.answered s data) ∧
        step (Spec.reading { s with status := { s.status with busy := false } } off) =
          .next (Spec.answered { s with status := { s.status with busy := false } }
            (if off = 0x14 then data &&& 0xFFFFFFFE#32 else data)))

/-- 20_memory.md R61 and R62, with the limits of R66 and R70: an access to the block that is unaligned, partial,
reserved or beyond a window gets an error response, changes nothing, and a read returns 0.
The response is the model's form (log 11); that an access under `rst` = 1 gets the error response too is the model's
choice (log 13). -/
def Obligations.IllegalAccessesOnlyRespond : Prop :=
  ∀ (s : State) (off : Nat) (lanes : BitVec 4) (data : Word) (rest : List Input), off < 0x10000 →
    ¬ (lanes = 0xF#4 ∧ Spec.LegalOffset s.params off) →
    (s.inputs = .write (s.params.mrtBase + off) lanes data :: rest →
      step s = .next { s with inputs := rest, resp := some { error := true, data := none } }) ∧
    (s.inputs = .read (s.params.mrtBase + off) lanes :: rest →
      step s = .next { s with inputs := rest, resp := some { error := true, data := some 0#32 } })

/-- 10_state.md R24 and R25, 20_memory.md R65: a window write makes the selected register valid, and the words of the
window then read as the word written, and elsewhere as before if the register was valid, else as 0; no other register
changes. -/
def Obligations.OperandWindowReadsBack : Prop :=
  ∀ (s : State) (w : Nat) (data : Word), s.params.Legal → s.rst = false → s.status.busy = false →
    w < s.params.opw / 32 →
    ∃ t, step (Spec.writing s (0x1000 + 4 * w) data) = .next (Spec.accepted t) ∧
      t = { s with x := t.x, valid := t.valid } ∧ Spec.Valid t s.rsel ∧
      (∀ r : RegIx, r ≠ s.rsel → t.x[r.val] = s.x[r.val] ∧ (Spec.Valid t r ↔ Spec.Valid s r)) ∧
      step (Spec.reading t (0x1000 + 4 * w)) = .next (Spec.answered t data) ∧
      ∀ v, v < s.params.opw / 32 → v ≠ w →
        ∃ d, step (Spec.reading t (0x1000 + 4 * v)) = .next (Spec.answered t d) ∧
          (Spec.Valid s s.rsel → step (Spec.reading s (0x1000 + 4 * v)) = .next (Spec.answered s d)) ∧
          (¬ Spec.Valid s s.rsel → d = 0#32)

/-- The operand window shows a register: word `w` is bits 32w+31..32w, and the words together are its value
(20_memory.md R65; 10_state.md R25), and an invalid register reads as 0. -/
def Obligations.OperandWindowShowsRegister : Prop :=
  ∀ (s : State) (w : Nat), s.params.Legal → s.rst = false → s.status.busy = false → w < s.params.opw / 32 →
    ∃ d, step (Spec.reading s (0x1000 + 4 * w)) = .next (Spec.answered s d) ∧
      (¬ Spec.Valid s s.rsel → d = 0#32) ∧
      (Spec.Valid s s.rsel → ∀ k, k < 32 → d.getLsbD k = s.x[s.rsel.val].testBit (32 * w + k))

/-- 20_memory.md R67 to R69: a word written to a buffer window puts lane `k` into byte `4w + k`, every other byte of the
two buffers reads as before, nothing else changes (OUT_LEN among it), and a read returns the same word; in every idle
state a read of word `w` has byte `4w + k` of the buffer in lane `k`. -/
def Obligations.BufferWindowsReadBack : Prop :=
  ∀ (s : State) (w : Nat) (data : Word), s.params.Legal → s.rst = false → s.status.busy = false →
    (w < s.params.msgCap / 4 →
      ∃ t, step (Spec.writing s (0x4000 + 4 * w) data) = .next (Spec.accepted t) ∧
        t = { s with msgBuf := t.msgBuf } ∧
        (∀ k, k < 4 → t.byteAt .msg (4 * w + k) = data.extractLsb' (8 * k) 8) ∧
        (∀ a, a < 4 * w ∨ 4 * w + 4 ≤ a → t.byteAt .msg a = s.byteAt .msg a) ∧
        step (Spec.reading t (0x4000 + 4 * w)) = .next (Spec.answered t data)) ∧
    (w < s.params.msgCap / 4 →
      ∃ d, step (Spec.reading s (0x4000 + 4 * w)) = .next (Spec.answered s d) ∧
        ∀ k, k < 4 → d.extractLsb' (8 * k) 8 = s.byteAt .msg (4 * w + k)) ∧
    (w < s.params.outCap / 4 →
      ∃ t, step (Spec.writing s (0x8000 + 4 * w) data) = .next (Spec.accepted t) ∧
        t = { s with outBuf := t.outBuf } ∧
        (∀ k, k < 4 → t.byteAt .out (4 * w + k) = data.extractLsb' (8 * k) 8) ∧
        (∀ a, a < 4 * w ∨ 4 * w + 4 ≤ a → t.byteAt .out a = s.byteAt .out a) ∧
        step (Spec.reading t (0x8000 + 4 * w)) = .next (Spec.answered t data)) ∧
    (w < s.params.outCap / 4 →
      ∃ d, step (Spec.reading s (0x8000 + 4 * w)) = .next (Spec.answered s d) ∧
        ∀ k, k < 4 → d.extractLsb' (8 * k) 8 = s.byteAt .out (4 * w + k))

/-- 10_state.md R29, R30, R32, R33, R34, R45, 20_memory.md R72. CTRL keeps bit 0 of a write, idle or BUSY; idle, the length
registers clamp to their capacity and RSEL keeps bits 3:0. CTRL, CMD, RSEL and MSG_LEN read, idle or BUSY, and MSG_PTR and
OUT_LEN, idle, as the register each names, with 0 in the reserved bits. The response is the model's form (log 11). -/
def Obligations.ControlRegisterWrites : Prop :=
  ∀ (s : State) (data : Word), s.rst = false →
    (step (Spec.writing s 0x10 data) = .next (Spec.accepted { s with ie := data.getLsbD 0 }) ∧
      step (Spec.reading s 0x10) = .next (Spec.answered s (if s.ie then 1#32 else 0#32)) ∧
      step (Spec.reading s 0x18) = .next (Spec.answered s s.lastCmd) ∧
      step (Spec.reading s 0x20) = .next (Spec.answered s (BitVec.ofNat 32 s.rsel.val)) ∧
      step (Spec.reading s 0x24) = .next (Spec.answered s (BitVec.ofNat 32 s.msgLen))) ∧
    (s.status.busy = false →
      step (Spec.writing s 0x24 data) =
        .next (Spec.accepted { s with msgLen := min data.toNat s.params.msgCap }) ∧
      step (Spec.writing s 0x28 data) =
        .next (Spec.accepted { s with msgPtr := min data.toNat s.params.msgCap }) ∧
      step (Spec.writing s 0x2C data) =
        .next (Spec.accepted { s with outLen := min data.toNat s.params.outCap }) ∧
      step (Spec.writing s 0x20 data) =
        .next (Spec.accepted { s with rsel := ⟨data.toNat % 16, Nat.mod_lt _ (by decide)⟩ }) ∧
      step (Spec.reading s 0x28) = .next (Spec.answered s (BitVec.ofNat 32 s.msgPtr)) ∧
      step (Spec.reading s 0x2C) = .next (Spec.answered s (BitVec.ofNat 32 s.outLen)))

/-- 10_state.md R46, 00_scope.md R2, 10_state.md R35, 20_memory.md R71: ID and CFG_* read as constants of the machine and
CMDCNT as the counter, idle or BUSY; a write of a read-only register is ignored without an error response.
The response is the model's form (log 11). -/
def Obligations.ReadOnlyRegisters : Prop :=
  ∀ (s : State) (data : Word), s.rst = false →
    step (Spec.reading s 0x00) = .next (Spec.answered s 0x4D520001#32) ∧
    step (Spec.reading s 0x04) = .next (Spec.answered s (BitVec.ofNat 32 s.params.opw)) ∧
    step (Spec.reading s 0x08) = .next (Spec.answered s (BitVec.ofNat 32 s.params.msgCap)) ∧
    step (Spec.reading s 0x0C) = .next (Spec.answered s (BitVec.ofNat 32 s.params.outCap)) ∧
    step (Spec.reading s 0x30) = .next (Spec.answered s s.cmdCnt) ∧
    ∀ off ∈ [0x00, 0x04, 0x08, 0x0C, 0x30], step (Spec.writing s off data) = .next (Spec.accepted s)

/-- 10_state.md R36, with the numbers of 60_exceptions.md R288: the fields of STATUS as they read, and its write: bit 1 clears DONE, bit 3 clears OVR, nothing else
changes, BUSY or not. -/
def Obligations.StatusFieldsAndClear : Prop :=
  ∀ (s : State) (data : Word), s.rst = false →
    (∃ d, step (Spec.reading s 0x14) = .next (Spec.answered s d) ∧
      d.getLsbD 0 = s.status.busy ∧ d.getLsbD 1 = s.status.done ∧ d.getLsbD 2 = s.status.err ∧
      d.getLsbD 3 = s.status.ovr ∧ d.getLsbD 4 = s.status.p ∧ d.getLsbD 5 = s.status.z ∧
      d.getLsbD 6 = s.status.u ∧ d.getLsbD 7 = s.status.e ∧
      d.toNat / 2 ^ 8 = Spec.errNumber s.status.errCode) ∧
    (∀ e : ErrCode, e.code.toNat = Spec.errNumber e) ∧
    step (Spec.writing s 0x14 data) =
      .next (Spec.accepted { s with
        status := { s.status with
          done := if data.getLsbD 1 then false else s.status.done
          ovr := if data.getLsbD 3 then false else s.status.ovr } })

/-- 10_state.md R26, idle: VALID reads the valid bits, a write of 1 clears `V[i]` and a write of 0 leaves it, no value of
a register whose bit is not written changes, and nothing else does (the free-value counter is the model's own, log 20). -/
def Obligations.ValidWriteClearsBits : Prop :=
  ∀ (s : State) (data : Word), s.rst = false → s.status.busy = false →
    (∃ d, step (Spec.reading s 0x1C) = .next (Spec.answered s d) ∧
      (∀ i : RegIx, d.getLsbD i.val = s.valid.getLsbD i.val) ∧ d.toNat < 2 ^ 16) ∧
    ∃ t, step (Spec.writing s 0x1C data) = .next (Spec.accepted t) ∧
      t = { s with x := t.x, valid := t.valid, draws := t.draws } ∧
      (∀ i : RegIx, Spec.Valid t i ↔ Spec.Valid s i ∧ data.getLsbD i.val = false) ∧
      ∀ i : RegIx, data.getLsbD i.val = false → t.x[i.val] = s.x[i.val]

/-- 20_memory.md R73: no read has a side effect on the block: only the response and the model's counter of free values
change.
Both are the model's form (logs 11 and 20). -/
def Obligations.ReadsHaveNoSideEffect : Prop :=
  ∀ (s : State) (addr : Nat) (lanes : BitVec 4) (rest : List Input), s.inputs = .read addr lanes :: rest →
    ∃ resp draws, step s = .next { s with inputs := rest, resp := resp, draws := draws }

/-! ### Reset and the interrupt -/

/-- 10_state.md R49, the values the spec gives for reset. -/
def Obligations.ResetValues : Prop :=
  State.reset.AtReset ∧ State.reset.irq = false ∧ State.reset.params.opw = 4096 ∧
  State.reset.params.msgCap = 4096 ∧ State.reset.params.outCap = 4096 ∧ State.reset.status.toWord = 0#32

/-- 70_reset_and_hazards.md R320 and R322: asserting `rst` puts every register at its reset value, whatever was pending;
while it is 1 a host access has no effect and a read returns 0, and the engine rests; when it returns to 0 the block is
in the reset state, IDLE.
What a reset keeps of the parameters and the inputs is the model's choice (log 14). -/
def Obligations.ResetInputHoldsState : Prop :=
  (∀ (s : State) (rest : List Input), s.inputs = .rst true :: rest →
    ∃ t, step s = .next t ∧ t.AtReset ∧ t.rst = true ∧ t.params = s.params ∧ t.inputs = rest) ∧
  (∀ s t : State, s.rst = true → s.AtReset → (∀ level rest, s.inputs ≠ .rst level :: rest) → step s = .next t →
    t.AtReset ∧ t.rst = true) ∧
  (∀ (s : State) (off : Nat), s.rst = true → off < 0x10000 →
    ∃ error, step (Spec.reading s off) = .next { s with resp := some { error := error, data := some 0#32 } }) ∧
  (∀ (s : State) (rest : List Input), s.rst = true → s.AtReset → s.inputs = .rst false :: rest →
    ∃ t, step s = .next t ∧ t.AtReset ∧ t.rst = false)

/-- 60_exceptions.md R293 and R294: `irq = DONE ∧ IE`; it rises at a completion when IE = 1 and falls at an issue, at a
write that clears DONE, and at a write that clears IE. -/
def Obligations.InterruptFollowsDone : Prop :=
  (∀ s : State, s.irq = true ↔ s.status.done = true ∧ s.ie = true) ∧
  (∀ (i : Instr) (s t : State), exec i s = .next t → s.status.busy = true → t.status.busy = false → t.irq = s.ie) ∧
  (∀ (s t : State) (w : Word), s.rst = false → s.status.busy = false →
    step (Spec.writing s 0x18 w) = .next t → t.irq = false) ∧
  (∀ (s t : State) (w : Word), s.rst = false → w.getLsbD 1 = true → step (Spec.writing s 0x14 w) = .next t →
    t.irq = false) ∧
  ∀ (s t : State) (w : Word), s.rst = false → step (Spec.writing s 0x10 w) = .next t →
    t.irq = (s.status.done && w.getLsbD 0)
end

