-- ==== Sys2Proof/Laws/Arith.lean ====
section
/-! SUPPORT. What the integer functions of the primality and modular units compute. -/

namespace Sys2Proof.Machine

/-! ### Bit length -/

theorem lt_two_pow_bitlen (v : Nat) : v < 2 ^ bitlen v := by
  unfold bitlen
  split
  · simp [*]
  · exact Nat.lt_log2_self

theorem bitlen_le_iff (v k : Nat) : bitlen v ≤ k ↔ v < 2 ^ k := by
  unfold bitlen
  split
  · subst_vars; simp
  · rename_i h
    rw [Nat.succ_le_iff, Nat.log2_lt h]

/-- The spec's bit length is the library's. -/
theorem bitlen_eq_size (v : Nat) : bitlen v = Nat.size v := by
  apply Nat.le_antisymm
  · rw [bitlen_le_iff]; exact Nat.lt_size_self v
  · rw [Nat.size_le, ← bitlen_le_iff]

theorem two_pow_le_of_bitlen (v : Nat) (h : v ≠ 0) : 2 ^ (bitlen v - 1) ≤ v := by
  unfold bitlen
  simp only [h, if_false, Nat.add_sub_cancel]
  exact Nat.log2_self_le h

/-! ### Modular exponentiation -/

theorem binaryLoop_eq (e m k i acc sq b : Nat) (hsq : sq % m = b ^ 2 ^ i % m) :
    binaryLoop e m k i acc sq % m = acc * b ^ (2 ^ i * (e / 2 ^ i % 2 ^ k)) % m := by
  induction k generalizing i acc sq with
  | zero => simp [binaryLoop, Nat.mod_one]
  | succ k ih =>
    have hsq' : sq * sq % m % m = b ^ 2 ^ (i + 1) % m := by
      rw [Nat.mod_mod, Nat.mul_mod, hsq, ← Nat.mul_mod, ← pow_add, pow_succ, Nat.mul_two]
    rw [binaryLoop, ih _ _ _ hsq']
    have hdiv : e / 2 ^ (i + 1) = e / 2 ^ i / 2 := by rw [pow_succ, Nat.div_div_eq_div_mul]
    have hsplit : e / 2 ^ i % 2 ^ (k + 1) = e / 2 ^ i % 2 + 2 * (e / 2 ^ (i + 1) % 2 ^ k) := by
      rw [hdiv, pow_succ, Nat.mul_comm (2 ^ k), Nat.mod_mul]
    have hexp : b ^ (2 ^ i * (e / 2 ^ i % 2 ^ (k + 1))) =
        b ^ (2 ^ i * (e / 2 ^ i % 2)) * b ^ (2 ^ (i + 1) * (e / 2 ^ (i + 1) % 2 ^ k)) := by
      rw [hsplit, ← pow_add]; congr 1; ring
    rw [hexp, ← Nat.mul_assoc]
    have hb : e.testBit i = decide (e / 2 ^ i % 2 = 1) := Nat.testBit_eq_decide_div_mod_eq
    rcases Nat.mod_two_eq_zero_or_one (e / 2 ^ i) with h0 | h1
    · simp [hb, h0]
    · simp only [hb, h1, decide_true, if_true, Nat.mul_one]
      rw [Nat.mul_mod, Nat.mod_mod, Nat.mul_mod acc sq, hsq, ← Nat.mul_mod acc, ← Nat.mul_mod]

theorem binaryLoop_lt (e m k i acc sq : Nat) (hm : m ≠ 0) (hacc : acc < m) : binaryLoop e m k i acc sq < m := by
  induction k generalizing i acc sq with
  | zero => exact hacc
  | succ k ih =>
    rw [binaryLoop]
    apply ih
    split
    · exact Nat.mod_lt _ (Nat.pos_of_ne_zero hm)
    · exact hacc

/-- The binary method computes `b^e mod m` (42_modular.md R171, R173). -/
theorem modexpBinary_eq (b e m : Nat) (hm : m ≠ 0) : modexpBinary b e m = b ^ e % m := by
  have h := binaryLoop_eq e m (bitlen e) 0 (1 % m) (b % m) b (by simp)
  have hlt := binaryLoop_lt e m (bitlen e) 0 (1 % m) (b % m) hm (Nat.mod_lt _ (Nat.pos_of_ne_zero hm))
  rw [Nat.mod_eq_of_lt hlt] at h
  rw [modexpBinary, h]
  simp only [pow_zero, Nat.div_one, Nat.one_mul, Nat.mod_eq_of_lt (lt_two_pow_bitlen e)]
  rw [Nat.mul_mod, Nat.mod_mod, ← Nat.mul_mod, Nat.one_mul]

theorem ladderLoop_eq (b e m k r0 r1 p : Nat) (h0 : r0 = b ^ p % m) (h1 : r1 = b ^ (p + 1) % m) :
    ladderLoop e m k r0 r1 = b ^ (p * 2 ^ k + e % 2 ^ k) % m := by
  induction k generalizing r0 r1 p with
  | zero => simp [ladderLoop, h0, Nat.mod_one]
  | succ k ih =>
    have hb : e.testBit k = decide (e / 2 ^ k % 2 = 1) := Nat.testBit_eq_decide_div_mod_eq
    have hsplit : e % 2 ^ (k + 1) = e % 2 ^ k + 2 ^ k * (e / 2 ^ k % 2) := by rw [pow_succ, Nat.mod_mul]
    have h00 : r0 * r0 % m = b ^ (2 * p) % m := by
      rw [h0, ← Nat.mul_mod, ← pow_add, Nat.two_mul]
    have h01 : r0 * r1 % m = b ^ (2 * p + 1) % m := by
      rw [h0, h1, ← Nat.mul_mod, ← pow_add]; congr 2; omega
    have h11 : r1 * r1 % m = b ^ (2 * p + 1 + 1) % m := by
      rw [h1, ← Nat.mul_mod, ← pow_add]; congr 2; omega
    rw [ladderLoop]
    rcases Nat.mod_two_eq_zero_or_one (e / 2 ^ k) with hz | ho
    · simp only [hb, hz, decide_false, Bool.false_eq_true, if_false, zero_ne_one]
      rw [ih _ _ (2 * p) h00 h01, hsplit, hz, pow_succ]
      congr 2; ring
    · simp only [hb, ho, decide_true, if_true]
      rw [ih _ _ (2 * p + 1) h01 h11, hsplit, ho, pow_succ]
      congr 2; ring

/-- The Montgomery ladder computes `b^e mod m` (42_modular.md R172, R173). -/
theorem modexpLadder_eq (b e m : Nat) : modexpLadder b e m = b ^ e % m := by
  rw [modexpLadder, ladderLoop_eq b e m (bitlen e) _ _ 0 (by simp) (by simp),
    Nat.mod_eq_of_lt (lt_two_pow_bitlen e)]
  simp

/-- Either method computes `b^e mod m` (42_modular.md R170). -/
theorem modexp_eq (method : Method) (b e m : Nat) (hm : m ≠ 0) : modexp method b e m = b ^ e % m := by
  cases method
  · exact modexpBinary_eq b e m hm
  · exact modexpLadder_eq b e m

/-! ### Primality -/

/-- `small_case` decides exactly the numbers that are not odd and at least 5 (41_primality.md R130). -/
theorem smallCase_eq_none (n : Nat) : smallCase n = none ↔ 5 ≤ n ∧ n % 2 = 1 := by
  unfold smallCase
  constructor
  · intro h
    split at h
    · simp at h
    · split at h
      · simp at h
      · split at h
        · simp at h
        · omega
  · rintro ⟨h5, hodd⟩
    rw [if_neg (by omega), if_neg (by omega), if_neg (by omega)]

theorem smallCase_false (n : Nat) (h : n < 2 ∨ (4 ≤ n ∧ n % 2 = 0)) : smallCase n = some false := by
  unfold smallCase
  split
  · rfl
  · rw [if_neg (by omega), if_pos (by omega)]

theorem smallCase_true (n : Nat) (h : n = 2 ∨ n = 3) : smallCase n = some true := by
  unfold smallCase
  rw [if_neg (by omega), if_pos h]

theorem ctzLoop_eq (fuel d r : Nat) (hd : d % 2 = 1) (hf : r < fuel) : ctzLoop fuel (d * 2 ^ r) = r := by
  induction r generalizing fuel with
  | zero =>
    cases fuel with
    | zero => omega
    | succ fuel => simp [ctzLoop, hd]
  | succ r ih =>
    cases fuel with
    | zero => omega
    | succ fuel =>
      have h2 : d * 2 ^ (r + 1) = d * 2 ^ r * 2 := by rw [pow_succ, Nat.mul_assoc]
      rw [ctzLoop, h2, if_neg (by omega), Nat.mul_div_cancel _ (by decide), ih fuel (by omega)]

/-- `decomp` finds the decomposition `m = d·2^r` with `d` odd (41_primality.md R131). -/
theorem decomp_eq (d r : Nat) (hd : d % 2 = 1) : decomp (d * 2 ^ r) = (d, r) := by
  have hr : r < bitlen (d * 2 ^ r) := by
    rw [← Nat.not_le, bitlen_le_iff, Nat.not_lt]
    exact Nat.le_mul_of_pos_left _ (by omega)
  have hc : ctz (d * 2 ^ r) = r := ctzLoop_eq _ d r hd hr
  rw [decomp, hc, Nat.shiftRight_eq_div_pow, Nat.mul_div_cancel _ (by positivity)]

/-- Every positive number has such a decomposition. -/
theorem exists_decomp (m : Nat) (hm : m ≠ 0) : ∃ d r, d % 2 = 1 ∧ m = d * 2 ^ r := by
  obtain ⟨r, d, hd, h⟩ := Nat.exists_eq_two_pow_mul_odd hm
  exact ⟨d, r, Nat.odd_iff.mp hd, by rw [h, Nat.mul_comm]⟩

/-- The squarings of a round find `-1` among the later powers (41_primality.md R132). -/
theorem roundLoop_eq (n k y : Nat) : roundLoop n k y = true ↔ ∃ j, j < k ∧ y ^ 2 ^ (j + 1) % n = n - 1 := by
  induction k generalizing y with
  | zero => simp [roundLoop]
  | succ k ih =>
    have hy : ∀ j, (y * y % n) ^ 2 ^ (j + 1) % n = y ^ 2 ^ (j + 1 + 1) % n := by
      intro j
      rw [← Nat.pow_mod, ← Nat.pow_two, ← pow_mul]
      congr 2; rw [pow_succ 2 (j + 1), Nat.mul_comm]
    rw [roundLoop]
    split
    · rename_i h
      simp only [true_iff]
      exact ⟨0, by omega, by simpa [Nat.pow_two] using h⟩
    · rename_i h
      rw [ih]
      constructor
      · rintro ⟨j, hj, hj'⟩
        exact ⟨j + 1, by omega, by rw [← hy]; exact hj'⟩
      · rintro ⟨j, hj, hj'⟩
        cases j with
        | zero => exact absurd (by simpa [Nat.pow_two] using hj') h
        | succ j => exact ⟨j, by omega, by rw [hy]; exact hj'⟩

/-- A round passes exactly by the strong-probable-prime criterion (41_primality.md R132). -/
theorem mrRound_eq (n d r a : Nat) (hn : 2 ≤ n) (hr : 1 ≤ r) :
    mrRound n d r a = true ↔ a ^ d % n = 1 ∨ ∃ j, j < r ∧ a ^ (2 ^ j * d) % n = n - 1 := by
  have hpow : ∀ j, (a ^ d % n) ^ 2 ^ (j + 1) % n = a ^ (2 ^ (j + 1) * d) % n := by
    intro j; rw [← Nat.pow_mod, ← pow_mul, Nat.mul_comm d]
  simp only [mrRound, modexpBinary_eq a d n (by omega)]
  split
  · rename_i h
    simp only [true_iff]
    rcases h with h | h
    · exact .inl h
    · exact .inr ⟨0, by omega, by simpa using h⟩
  · rename_i h
    rw [roundLoop_eq]
    constructor
    · rintro ⟨j, hj, hj'⟩
      exact .inr ⟨j + 1, by omega, by rw [← hpow]; exact hj'⟩
    · rintro (h1 | ⟨j, hj, hj'⟩)
      · exact absurd (.inl h1) h
      · cases j with
        | zero => exact absurd (.inr (by simpa using hj')) h
        | succ j => exact ⟨j, by omega, by rw [hpow]; exact hj'⟩

/-- The rounds on delivered bases that all pass. -/
theorem mrRounds_pass (n d r : Nat) (bases rest : List Nat)
    (h : ∀ a ∈ bases, (2 ≤ a ∧ a ≤ n - 2) ∧ mrRound n d r a = true) :
    mrRounds n d r bases.length (bases ++ rest) = .verdict true rest := by
  induction bases with
  | nil => rfl
  | cons a bases ih =>
    have ha := h a (by simp)
    simp only [List.length_cons, List.cons_append, mrRounds, ha.1, ha.2, and_self, if_true]
    exact ih fun c hc => h c (by simp [hc])

/-- The rounds after a run of passing bases. -/
theorem mrRounds_append (n d r k : Nat) (bases rest : List Nat)
    (h : ∀ a ∈ bases, (2 ≤ a ∧ a ≤ n - 2) ∧ mrRound n d r a = true) :
    mrRounds n d r (bases.length + k) (bases ++ rest) = mrRounds n d r k rest := by
  induction bases with
  | nil => simp
  | cons a bases ih =>
    have ha := h a (by simp)
    have hk : (a :: bases).length + k = (bases.length + k) + 1 := by simp; omega
    simp only [hk, List.cons_append, mrRounds, ha.1, ha.2, and_self, if_true]
    exact ih fun c hc => h c (by simp [hc])

/-! ### Greatest common divisors -/

theorem euclidLoop_eq (fuel a b : Nat) (h : b ≤ fuel) : euclidLoop fuel a b = Nat.gcd a b := by
  induction fuel generalizing a b with
  | zero => simp [euclidLoop, Nat.le_zero.mp h]
  | succ fuel ih =>
    rw [euclidLoop]
    split
    · simp [*]
    · have hb : 0 < b := by omega
      rw [ih b (a % b) (by have := Nat.mod_lt a hb; omega), Nat.gcd_comm a b, Nat.gcd_rec b a, Nat.gcd_comm]

/-- The Euclidean algorithm computes the greatest common divisor (42_modular.md R180). -/
theorem euclid_eq (a b : Nat) : euclid a b = Nat.gcd a b := euclidLoop_eq b a b le_rfl

/-- The loop from general coefficients is the loop from the unit ones, combined: the running coefficients are linear. -/
theorem xgcdLoop_eq (fuel a b : Nat) (s0 s1 t0 t1 : Int) :
    xgcdLoop fuel a b s0 s1 t0 t1 =
      ((xgcdLoop fuel a b 1 0 0 1).1,
        (xgcdLoop fuel a b 1 0 0 1).2.1 * s0 + (xgcdLoop fuel a b 1 0 0 1).2.2 * s1,
        (xgcdLoop fuel a b 1 0 0 1).2.1 * t0 + (xgcdLoop fuel a b 1 0 0 1).2.2 * t1) := by
  induction fuel generalizing a b s0 s1 t0 t1 with
  | zero => simp [xgcdLoop]
  | succ fuel ih =>
    simp only [xgcdLoop]
    split
    · simp
    · rw [ih b (a % b) s1, ih b (a % b) 0]
      simp only [Prod.mk.injEq, true_and]
      constructor <;> ring

/-- One iteration of the loop as a step of the recursion (42_modular.md R187). -/
theorem xgcdLoop_succ (fuel a b : Nat) (hb : b ≠ 0) :
    xgcdLoop (fuel + 1) a b 1 0 0 1 =
      ((xgcdLoop fuel b (a % b) 1 0 0 1).1, (xgcdLoop fuel b (a % b) 1 0 0 1).2.2,
        (xgcdLoop fuel b (a % b) 1 0 0 1).2.1 - (a / b : Nat) * (xgcdLoop fuel b (a % b) 1 0 0 1).2.2) := by
  simp only [xgcdLoop, hb, if_false]
  rw [xgcdLoop_eq]
  simp only [Prod.mk.injEq, true_and]
  constructor <;> ring

/-- Fuel beyond the second number changes nothing. -/
theorem xgcdLoop_fuel (fuel fuel' a b : Nat) (h : b ≤ fuel) (h' : b ≤ fuel') (s0 s1 t0 t1 : Int) :
    xgcdLoop fuel a b s0 s1 t0 t1 = xgcdLoop fuel' a b s0 s1 t0 t1 := by
  induction fuel generalizing fuel' a b s0 s1 t0 t1 with
  | zero =>
    have hb : b = 0 := by omega
    subst hb
    cases fuel' <;> simp [xgcdLoop]
  | succ fuel ih =>
    by_cases hb : b = 0
    · subst hb; cases fuel' <;> simp [xgcdLoop]
    · cases fuel' with
      | zero => omega
      | succ fuel' =>
        have := Nat.mod_lt a (Nat.pos_of_ne_zero hb)
        simp only [xgcdLoop, hb, if_false]
        exact ih fuel' b (a % b) (by omega) (by omega) _ _ _ _

@[simp] theorem xgcd_zero (a : Nat) : xgcd a 0 = (a, 1, 0) := rfl

/-- The loop of R185 follows the recursion with base case `(a, 0) → (a, 1, 0)` (42_modular.md R187). -/
theorem xgcd_rec (a b : Nat) (hb : b ≠ 0) :
    xgcd a b =
      ((xgcd b (a % b)).1, (xgcd b (a % b)).2.2, (xgcd b (a % b)).2.1 - (a / b : Nat) * (xgcd b (a % b)).2.2) := by
  obtain ⟨c, rfl⟩ : ∃ c, b = c + 1 := ⟨b - 1, by omega⟩
  have hlt := Nat.mod_lt a (show 0 < c + 1 by omega)
  have hf : xgcdLoop c (c + 1) (a % (c + 1)) 1 0 0 1 = xgcd (c + 1) (a % (c + 1)) :=
    xgcdLoop_fuel _ _ _ _ (by omega) le_rfl _ _ _ _
  rw [xgcd, xgcdLoop_succ c a (c + 1) hb, hf]

/-- The first component is the greatest common divisor. -/
theorem xgcd_fst (a b : Nat) : (xgcd a b).1 = Nat.gcd a b := by
  induction b using Nat.strong_induction_on generalizing a with
  | _ b ih =>
    by_cases hb : b = 0
    · simp [hb]
    · rw [xgcd_rec a b hb, ih (a % b) (Nat.mod_lt a (Nat.pos_of_ne_zero hb)), Nat.gcd_comm a b, Nat.gcd_rec b a,
        Nat.gcd_comm]

/-- The coefficients satisfy `a·x + b·y = g` (42_modular.md R185). -/
theorem xgcd_bezout (a b : Nat) : (a : Int) * (xgcd a b).2.1 + b * (xgcd a b).2.2 = (xgcd a b).1 := by
  induction b using Nat.strong_induction_on generalizing a with
  | _ b ih =>
    by_cases hb : b = 0
    · simp [hb]
    · have h := ih (a % b) (Nat.mod_lt a (Nat.pos_of_ne_zero hb)) b
      have hdiv : (a : Int) = b * (a / b : Nat) + (a % b : Nat) := by exact_mod_cast (Nat.div_add_mod a b).symm
      rw [xgcd_rec a b hb]
      simp only
      rw [← h, hdiv]
      push_cast
      ring

end Sys2Proof.Machine
end

