-- ==== Sys2Proof/Laws/Bus.lean ====
section
/-! SUPPORT. The host bus: where an offset leads, what an access can do, and the words of the operand window. -/

namespace Sys2Proof.Machine

/-! ### The address map -/

/-- An offset below 64 KiB is the block's own. -/
theorem busOffset_base_add (p : Params) (off : Nat) (h : off < 0x10000) : busOffset p (p.mrtBase + off) = some off := by
  unfold busOffset
  rw [if_pos (by omega)]
  congr 1
  omega

/-- The control registers. -/
theorem targetOf_reg (p : Params) (k : Nat) (h : k < 13) : targetOf p (4 * k) 0xF#4 = some (.reg (ctrlRegs[k]'h)) := by
  unfold targetOf targetAt
  rw [if_pos ⟨by omega, rfl⟩, if_pos (by omega)]
  simp only [Nat.mul_div_cancel_left k (show 0 < 4 by decide)]
  rw [List.getElem?_eq_getElem h]
  rfl

/-- The operand window. -/
theorem targetOf_window (p : Params) (w : Nat) (h : w < p.opw / 32) (hw : w < 1024) :
    targetOf p (0x1000 + 4 * w) 0xF#4 = some (.window w) := by
  unfold targetOf targetAt
  rw [if_pos ⟨by omega, rfl⟩, if_neg (by omega), if_pos (by omega)]
  rw [show (0x1000 + 4 * w - 0x1000) / 4 = w by omega, if_pos h]

/-- The message window. -/
theorem targetOf_msg (p : Params) (w : Nat) (h : w < p.msgCap / 4) (hw : w < 4096) :
    targetOf p (0x4000 + 4 * w) 0xF#4 = some (.msg w) := by
  unfold targetOf targetAt
  rw [if_pos ⟨by omega, rfl⟩, if_neg (by omega), if_neg (by omega), if_neg (by omega), if_pos (by omega)]
  rw [show (0x4000 + 4 * w - 0x4000) / 4 = w by omega, if_pos h]

/-- The output window. -/
theorem targetOf_out (p : Params) (w : Nat) (h : w < p.outCap / 4) (hw : w < 4096) :
    targetOf p (0x8000 + 4 * w) 0xF#4 = some (.out w) := by
  unfold targetOf targetAt
  rw [if_pos ⟨by omega, rfl⟩, if_neg (by omega), if_neg (by omega), if_neg (by omega), if_neg (by omega),
    if_pos (by omega)]
  rw [show (0x8000 + 4 * w - 0x8000) / 4 = w by omega, if_pos h]

/-- A window target lies within the parameters. -/
theorem targetOf_within (p : Params) (off : Nat) (lanes : BitVec 4) (t : Target) (h : targetOf p off lanes = some t) :
    (∀ w, t = .window w → w < p.opw / 32) ∧ (∀ w, t = .msg w → w < p.msgCap / 4) ∧
      ∀ w, t = .out w → w < p.outCap / 4 := by
  unfold targetOf targetAt at h
  split at h
  swap
  · cases h
  split at h
  · simp only [Option.map_eq_some_iff] at h
    obtain ⟨r, -, rfl⟩ := h
    refine ⟨?_, ?_, ?_⟩ <;> intro w hw <;> cases hw
  repeat' split at h
  all_goals first | (cases h; done) | (cases h; refine ⟨?_, ?_, ?_⟩ <;> intro w hw <;> cases hw <;> omega)

/-! ### What an access can do -/

/-- Everything a host write can do. -/
theorem State.hostWrite_cases (s : State) (addr : Nat) (lanes : BitVec 4) (data : Word) :
    s.hostWrite addr lanes data = s ∨ s.hostWrite addr lanes data = s.respond true none ∨
    (s.rst = true ∧ s.hostWrite addr lanes data = s.respond false none) ∨
    (s.rst = false ∧ s.status.busy = true ∧
      s.hostWrite addr lanes data =
        State.respond { s with status := { s.status with ovr := true } } false none) ∨
    ∃ off t, s.rst = false ∧ busOffset s.params addr = some off ∧ targetOf s.params off lanes = some t ∧
      (s.status.busy = true → t.lockedWhileBusy = false) ∧
      s.hostWrite addr lanes data = (s.writeTarget data t).respond false none := by
  unfold State.hostWrite
  split
  · exact .inl rfl
  · rename_i off ho
    split
    · exact .inr (.inl rfl)
    · rename_i t ht
      by_cases hr : s.rst = true
      · exact .inr (.inr (.inl ⟨hr, by rw [if_pos hr]⟩))
      · rw [if_neg hr]
        have hr' : s.rst = false := by simpa using hr
        split
        · rename_i hb
          simp only [Bool.and_eq_true] at hb
          exact .inr (.inr (.inr (.inl ⟨hr', hb.1, rfl⟩)))
        · rename_i hb
          refine .inr (.inr (.inr (.inr ⟨off, t, hr', ho, ht, fun h => ?_, rfl⟩)))
          simpa [h] using hb

/-- Everything a host read can do: it answers, and may draw a free value. -/
theorem State.hostRead_cases (s : State) (addr : Nat) (lanes : BitVec 4) :
    s.hostRead addr lanes = s ∨ ∃ error data draws,
      s.hostRead addr lanes = { s with resp := some { error := error, data := some data }, draws := draws } := by
  unfold State.hostRead State.respond
  split
  · exact .inl rfl
  · refine .inr ?_
    split
    · exact ⟨_, _, _, rfl⟩
    · split
      · exact ⟨_, _, _, rfl⟩
      · split
        · exact ⟨_, _, _, rfl⟩
        · exact ⟨_, _, _, rfl⟩

/-! ### The words of a register -/

/-- Bit `k` of window word `w` is bit `32w + k` of the register. -/
theorem windowWord_getLsbD (v w k : Nat) (hk : k < 32) : (windowWord v w).getLsbD k = v.testBit (32 * w + k) := by
  have h : (windowWord v w).getLsbD k = (decide (k < 32) && (v / 2 ^ (32 * w)).testBit k) := by
    simp [windowWord, BitVec.getLsbD_ofNat]
  rw [h, Nat.testBit_div_two_pow, Nat.add_comm]
  simp [hk]

/-- The word just written reads back. -/
theorem windowWord_setWindowWord (v w : Nat) (data : Word) : windowWord (setWindowWord v w data) w = data := by
  apply BitVec.eq_of_toNat_eq
  have hd := data.isLt
  have hl := Nat.mod_lt v (Nat.two_pow_pos (32 * w))
  simp only [windowWord, setWindowWord, BitVec.toNat_ofNat]
  rw [show 2 ^ (32 * (w + 1)) = 2 ^ (32 * w) * 2 ^ 32 by rw [← pow_add]; ring_nf]
  rw [show v / (2 ^ (32 * w) * 2 ^ 32) * (2 ^ (32 * w) * 2 ^ 32) + data.toNat * 2 ^ (32 * w) + v % 2 ^ (32 * w) =
    v % 2 ^ (32 * w) + 2 ^ (32 * w) * (v / (2 ^ (32 * w) * 2 ^ 32) * 2 ^ 32 + data.toNat) by ring]
  rw [Nat.add_mul_div_left _ _ (Nat.two_pow_pos _), Nat.div_eq_of_lt hl, Nat.zero_add, Nat.add_comm,
    Nat.add_mul_mod_self_right, Nat.mod_eq_of_lt hd]

/-- A window write changes no bit outside its word. -/
theorem setWindowWord_testBit (v w : Nat) (data : Word) (j : Nat) (h : j < 32 * w ∨ 32 * (w + 1) ≤ j) :
    (setWindowWord v w data).testBit j = v.testBit j := by
  have hd := data.isLt
  have hl := Nat.mod_lt v (Nat.two_pow_pos (32 * w))
  have e : 2 ^ (32 * (w + 1)) = 2 ^ (32 * w) * 2 ^ 32 := by rw [← pow_add]; ring_nf
  rcases h with h | h
  · have h1 : setWindowWord v w data % 2 ^ (32 * w) = v % 2 ^ (32 * w) := by
      simp only [setWindowWord]
      rw [show v / 2 ^ (32 * (w + 1)) * 2 ^ (32 * (w + 1)) + data.toNat * 2 ^ (32 * w) + v % 2 ^ (32 * w) =
        v % 2 ^ (32 * w) + 2 ^ (32 * w) * (v / 2 ^ (32 * (w + 1)) * 2 ^ 32 + data.toNat) by rw [e]; ring]
      rw [Nat.add_mul_mod_self_left, Nat.mod_mod]
    have a := Nat.testBit_mod_two_pow (setWindowWord v w data) (32 * w) j
    rw [h1, Nat.testBit_mod_two_pow v (32 * w) j] at a
    simpa [h] using a.symm
  · have h1 : setWindowWord v w data / 2 ^ (32 * (w + 1)) = v / 2 ^ (32 * (w + 1)) := by
      simp only [setWindowWord]
      rw [show v / 2 ^ (32 * (w + 1)) * 2 ^ (32 * (w + 1)) + data.toNat * 2 ^ (32 * w) + v % 2 ^ (32 * w) =
        (data.toNat * 2 ^ (32 * w) + v % 2 ^ (32 * w)) + 2 ^ (32 * (w + 1)) * (v / 2 ^ (32 * (w + 1))) by ring]
      rw [Nat.add_mul_div_left _ _ (Nat.two_pow_pos _), Nat.div_eq_of_lt, Nat.zero_add]
      rw [e]
      nlinarith [Nat.two_pow_pos (32 * w)]
    obtain ⟨i, rfl⟩ : ∃ i, j = i + 32 * (w + 1) := ⟨j - 32 * (w + 1), by omega⟩
    rw [← Nat.testBit_div_two_pow, ← Nat.testBit_div_two_pow, h1]

/-- The other words read as before. -/
theorem windowWord_setWindowWord_ne (v w u : Nat) (data : Word) (h : u ≠ w) :
    windowWord (setWindowWord v w data) u = windowWord v u := by
  apply BitVec.eq_of_getLsbD_eq
  intro k hk
  rw [windowWord_getLsbD _ _ _ hk, windowWord_getLsbD _ _ _ hk, setWindowWord_testBit]
  omega

/-- A window write keeps a register within its width. -/
theorem setWindowWord_lt (opw v w : Nat) (data : Word) (hv : v < 2 ^ opw) (h : w < opw / 32) (ho : opw % 32 = 0) :
    setWindowWord v w data < 2 ^ opw := by
  apply Nat.lt_pow_two_of_testBit
  intro i hi
  rw [setWindowWord_testBit _ _ _ _ (by omega)]
  exact Nat.testBit_lt_two_pow (lt_of_lt_of_le hv (Nat.pow_le_pow_right (by decide) hi))

/-! ### Lanes -/

/-- The four lanes of a word give it back. -/
theorem laneWord_laneByte (data : Word) :
    laneWord (laneByte data 0) (laneByte data 1) (laneByte data 2) (laneByte data 3) = data := by
  apply BitVec.eq_of_getLsbD_eq
  intro k hk
  simp only [laneWord, laneByte, BitVec.getLsbD_append, BitVec.getLsbD_extractLsb']
  interval_cases k <;> simp

/-- Lane `k` of a word of four bytes is the byte put there. -/
theorem laneByte_laneWord (b0 b1 b2 b3 : Byte) (k : Nat) (hk : k < 4) :
    laneByte (laneWord b0 b1 b2 b3) k = [b0, b1, b2, b3][k]! := by
  apply BitVec.eq_of_getLsbD_eq
  intro j hj
  simp only [laneWord, laneByte, BitVec.getLsbD_append, BitVec.getLsbD_extractLsb']
  interval_cases k <;> interval_cases j <;> simp

end Sys2Proof.Machine
end

