-- ==== Sys2Proof/Laws/Bytes.lean ====
section
/-! SUPPORT. Big-endian numbers, minimal representations and the UTF-8 scan. -/

namespace Sys2Proof.Machine

/-- The first byte is the most significant (00_scope.md R13). -/
theorem be_cons (b : Byte) (bs : List Byte) : be (b :: bs) = b.toNat * 256 ^ bs.length + be bs := by
  have key : ∀ (cs : List Byte) (acc : Nat),
      cs.foldl (fun acc b => acc * 256 + b.toNat) acc = acc * 256 ^ cs.length + be cs := by
    intro cs
    induction cs with
    | nil => intro acc; simp [be]
    | cons c cs ih =>
      intro acc
      simp only [be, List.foldl_cons, List.length_cons]
      rw [ih, ih (0 * 256 + c.toNat)]
      ring
  simp only [be, List.foldl_cons]
  rw [key]
  simp [be]

@[simp] theorem be_nil : be [] = 0 := rfl

theorem be_lt (bs : List Byte) : be bs < 256 ^ bs.length := by
  induction bs with
  | nil => simp
  | cons b bs ih =>
    rw [be_cons, List.length_cons, pow_succ]
    have := b.isLt
    nlinarith [Nat.pow_pos (n := bs.length) (show 0 < 256 by decide)]

@[simp] theorem length_beBytes (v k : Nat) : (beBytes v k).length = k := by
  induction k with
  | zero => rfl
  | succ k ih => simp [beBytes, ih]

/-- The `k` low bytes denote the number modulo `256^k`. -/
theorem be_beBytes (v k : Nat) : be (beBytes v k) = v % 256 ^ k := by
  induction k with
  | zero => simp [beBytes, Nat.mod_one]
  | succ k ih =>
    rw [beBytes, be_cons, ih, length_beBytes, BitVec.toNat_ofNat, pow_succ 256 k, Nat.mod_mul, Nat.mul_comm,
      Nat.add_comm, show 2 ^ 8 = 256 from rfl]

theorem lt_256_pow (v : Nat) : v < 256 ^ ((bitlen v + 7) / 8) := by
  calc v < 2 ^ bitlen v := lt_two_pow_bitlen v
    _ ≤ 2 ^ (8 * ((bitlen v + 7) / 8)) := Nat.pow_le_pow_right (by decide) (by omega)
    _ = 256 ^ ((bitlen v + 7) / 8) := by rw [pow_mul]; norm_num

/-- The minimal representation denotes the number (00_scope.md R13). -/
theorem be_mbe (v : Nat) : be (mbe v) = v := by
  rw [mbe, be_beBytes, Nat.mod_eq_of_lt (lt_256_pow v)]

@[simp] theorem length_mbe (v : Nat) : (mbe v).length = (bitlen v + 7) / 8 := by simp [mbe]

/-- Byte sequences of one length that denote one number are the same. -/
theorem be_injective (bs cs : List Byte) (hl : bs.length = cs.length) (h : be bs = be cs) : bs = cs := by
  induction bs generalizing cs with
  | nil => cases cs <;> simp_all
  | cons b bs ih =>
    cases cs with
    | nil => simp at hl
    | cons c cs =>
      simp only [List.length_cons, Nat.add_right_cancel_iff] at hl
      rw [be_cons, be_cons, hl] at h
      have hb := be_lt bs
      have hc := be_lt cs
      rw [hl] at hb
      have hbc : b.toNat = c.toNat := by
        rcases Nat.lt_trichotomy b.toNat c.toNat with hlt | heq | hgt
        · nlinarith
        · exact heq
        · nlinarith
      rw [hbc] at h
      rw [BitVec.eq_of_toNat_eq hbc, ih cs hl (by omega)]

/-- A sequence that does not begin with 0 is the minimal representation of its number: nothing is lost
(43_block_codec.md R225). -/
theorem mbe_be (b : Byte) (bs : List Byte) (hb : b ≠ 0) : mbe (be (b :: bs)) = b :: bs := by
  apply be_injective
  · have hlt := be_lt (b :: bs)
    have hpos : 1 ≤ b.toNat := by
      rcases Nat.eq_zero_or_pos b.toNat with h | h
      · exact absurd (BitVec.eq_of_toNat_eq h) hb
      · exact h
    have hge : 256 ^ bs.length ≤ be (b :: bs) := by
      rw [be_cons]; nlinarith [Nat.pow_pos (n := bs.length) (show 0 < 256 by decide)]
    have hup : bitlen (be (b :: bs)) ≤ 8 * (bs.length + 1) := by
      rw [bitlen_le_iff, pow_mul]; simpa using hlt
    have hlow : ¬ bitlen (be (b :: bs)) ≤ 8 * bs.length := by
      rw [bitlen_le_iff, pow_mul]; simpa using hge
    rw [length_mbe, List.length_cons]
    omega
  · exact be_mbe _

/-- A chunk of at most `bs(n)` bytes denotes a number below `n` (43_block_codec.md R223). -/
theorem be_lt_of_blockSize (n : Nat) (hn : n ≠ 0) (bs : List Byte) (h : bs.length ≤ blockSize n) : be bs < n := by
  calc be bs < 256 ^ bs.length := be_lt bs
    _ = 2 ^ (8 * bs.length) := by rw [pow_mul]; norm_num
    _ ≤ 2 ^ (bitlen n - 1) := Nat.pow_le_pow_right (by decide) (by unfold blockSize at h; omega)
    _ ≤ n := two_pow_le_of_bitlen n hn

/-! ### UTF-8 -/

/-- A scan that expects more bytes takes them from the front. -/
theorem utf8Scan_cons (r : ByteRange) (rs : List ByteRange) (bs : List Byte) :
    utf8Scan (r :: rs) bs = true ↔ ∃ b cs, bs = b :: cs ∧ r.holds b = true ∧ utf8Scan rs cs = true := by
  cases bs with
  | nil => simp [utf8Scan]
  | cons b bs => simp [utf8Scan]

/-- A scan at a sequence boundary needs a first byte of some row, then that row's ranges. -/
theorem utf8Scan_nil (b : Byte) (bs : List Byte) :
    utf8Scan [] (b :: bs) = true ↔ ∃ rs, utf8Tail b = some rs ∧ utf8Scan rs bs = true := by
  simp only [utf8Scan]
  cases utf8Tail b <;> simp

end Sys2Proof.Machine
end

