-- ==== Sys2Proof/Laws/Encoding.lean ====
section
/-! SUPPORT. The fields and the reserved bits of format-R and format-I words. -/

namespace Sys2Proof

/-- Bits of a format-R word: the field that covers them. -/
theorem formatR_getLsbD (opc : BitVec 6) (f1 f2 f3 f4 f5 : RegIx) (imm6 : BitVec 6) (k : Nat) :
    (formatR opc f1 f2 f3 f4 f5 imm6).getLsbD k =
      if k < 6 then imm6.getLsbD k
      else if k < 10 then (BitVec.ofFin (w := 4) f5).getLsbD (k - 6)
      else if k < 14 then (BitVec.ofFin (w := 4) f4).getLsbD (k - 10)
      else if k < 18 then (BitVec.ofFin (w := 4) f3).getLsbD (k - 14)
      else if k < 22 then (BitVec.ofFin (w := 4) f2).getLsbD (k - 18)
      else if k < 26 then (BitVec.ofFin (w := 4) f1).getLsbD (k - 22)
      else opc.getLsbD (k - 26) := by
  simp only [formatR, BitVec.getLsbD_append]
  repeat' split
  all_goals first | rfl | omega

/-- Bits of a format-I word. -/
theorem formatI_getLsbD (opc : BitVec 6) (f1 : RegIx) (imm22 : BitVec 22) (k : Nat) :
    (formatI opc f1 imm22).getLsbD k =
      if k < 22 then imm22.getLsbD k
      else if k < 26 then (BitVec.ofFin (w := 4) f1).getLsbD (k - 22)
      else opc.getLsbD (k - 26) := by
  simp only [formatI, BitVec.getLsbD_append]
  repeat' split
  all_goals first | rfl | omega

/-- A register field whose bits are those of `f` is `f`. -/
theorem toFin_extract_eq (w : Word) (start : Nat) (f : RegIx)
    (h : ∀ i, i < 4 → w.getLsbD (start + i) = (BitVec.ofFin (w := 4) f).getLsbD i) :
    (w.extractLsb' start 4).toFin = f := by
  have : w.extractLsb' start 4 = BitVec.ofFin (w := 4) f := by
    apply BitVec.eq_of_getLsbD_eq
    intro i hi
    rw [BitVec.getLsbD_extractLsb', h i hi]
    simp [hi]
  rw [this]

section Fields

variable (opc : BitVec 6) (f1 f2 f3 f4 f5 : RegIx) (imm6 : BitVec 6)

@[simp] theorem opcOf_formatR : opcOf (formatR opc f1 f2 f3 f4 f5 imm6) = opc := by
  apply BitVec.eq_of_getLsbD_eq
  intro i hi
  simp only [opcOf, BitVec.getLsbD_extractLsb', hi, decide_true, Bool.true_and, formatR_getLsbD]
  repeat' split
  all_goals first | omega | (congr 1; omega)

@[simp] theorem imm6Of_formatR : imm6Of (formatR opc f1 f2 f3 f4 f5 imm6) = imm6 := by
  apply BitVec.eq_of_getLsbD_eq
  intro i hi
  simp [imm6Of, hi, formatR_getLsbD]

@[simp] theorem f1Of_formatR : f1Of (formatR opc f1 f2 f3 f4 f5 imm6) = f1 := by
  refine toFin_extract_eq _ _ _ fun i hi => ?_
  rw [formatR_getLsbD]
  repeat' split
  all_goals first | omega | (congr 1; omega)

@[simp] theorem f2Of_formatR : f2Of (formatR opc f1 f2 f3 f4 f5 imm6) = f2 := by
  refine toFin_extract_eq _ _ _ fun i hi => ?_
  rw [formatR_getLsbD]
  repeat' split
  all_goals first | omega | (congr 1; omega)

@[simp] theorem f3Of_formatR : f3Of (formatR opc f1 f2 f3 f4 f5 imm6) = f3 := by
  refine toFin_extract_eq _ _ _ fun i hi => ?_
  rw [formatR_getLsbD]
  repeat' split
  all_goals first | omega | (congr 1; omega)

@[simp] theorem f4Of_formatR : f4Of (formatR opc f1 f2 f3 f4 f5 imm6) = f4 := by
  refine toFin_extract_eq _ _ _ fun i hi => ?_
  rw [formatR_getLsbD]
  repeat' split
  all_goals first | omega | (congr 1; omega)

@[simp] theorem f5Of_formatR : f5Of (formatR opc f1 f2 f3 f4 f5 imm6) = f5 := by
  refine toFin_extract_eq _ _ _ fun i hi => ?_
  rw [formatR_getLsbD]
  repeat' split
  all_goals first | omega | (congr 1; omega)

@[simp] theorem methodOf_formatR (m : Method) : methodOf (formatR opc f1 f2 f3 f4 f5 m.imm6) = m := by
  simp only [methodOf, formatR_getLsbD]
  cases m <;> rfl

variable (imm22 : BitVec 22)

@[simp] theorem opcOf_formatI : opcOf (formatI opc f1 imm22) = opc := by
  apply BitVec.eq_of_getLsbD_eq
  intro i hi
  simp only [opcOf, BitVec.getLsbD_extractLsb', hi, decide_true, Bool.true_and, formatI_getLsbD]
  repeat' split
  all_goals first | omega | (congr 1; omega)

@[simp] theorem f1Of_formatI : f1Of (formatI opc f1 imm22) = f1 := by
  refine toFin_extract_eq _ _ _ fun i hi => ?_
  rw [formatI_getLsbD]
  repeat' split
  all_goals first | omega | (congr 1; omega)

@[simp] theorem imm22Of_formatI : imm22Of (formatI opc f1 imm22) = imm22 := by
  apply BitVec.eq_of_getLsbD_eq
  intro i hi
  simp [imm22Of, hi, formatI_getLsbD]

end Fields

/-- A format-R word whose fields sit where a mask has no bit meets that mask's reserved bits in 0 only: checked bit by
bit. -/
theorem reserved_clear (w mask : Word) (h : ∀ k, k < 26 → mask.getLsbD k = true → w.getLsbD k = false) :
    w &&& mask &&& 0x03FFFFFF#32 = 0#32 := by
  apply BitVec.eq_of_getLsbD_eq
  intro k hk
  simp only [BitVec.getLsbD_and, BitVec.getLsbD_zero]
  by_cases hk' : k < 26
  · cases hm : mask.getLsbD k
    · simp
    · simp [h k hk' hm]
  · have : (0x03FFFFFF#32).getLsbD k = false := by
      interval_cases k <;> first | omega | rfl
    simp [this]

/-- A row whose reserved bits are 0 accepts the word. -/
theorem takeRow_of (w mask : Word) (i : Instr) (h : w &&& mask &&& 0x03FFFFFF#32 = 0#32) : takeRow w mask i = .ok i := by
  rw [takeRow, if_pos h]

/-- What a row answers. -/
theorem takeRow_ok (w mask : Word) (i j : Instr) :
    takeRow w mask i = .ok j ↔ w &&& mask &&& 0x03FFFFFF#32 = 0#32 ∧ i = j := by
  unfold takeRow
  split <;> simp_all

end Sys2Proof
end

