-- ==== Sys2Proof/Laws/State.lean ====
section
/-! SUPPORT. The fields of each update of State, and the registers and bytes after it. -/

namespace Sys2Proof.Machine

variable (s : State)

/-! ### `State.setReg` -/

@[simp] theorem State.setReg_params (i : RegIx) (v : Nat) : (s.setReg i v).params = s.params := rfl
@[simp] theorem State.setReg_x (i : RegIx) (v : Nat) : (s.setReg i v).x = s.x.set i.val v := rfl
@[simp] theorem State.setReg_valid (i : RegIx) (v : Nat) :
    (s.setReg i v).valid = s.valid ||| BitVec.twoPow 16 i.val := rfl
@[simp] theorem State.setReg_msgBuf (i : RegIx) (v : Nat) : (s.setReg i v).msgBuf = s.msgBuf := rfl
@[simp] theorem State.setReg_msgLen (i : RegIx) (v : Nat) : (s.setReg i v).msgLen = s.msgLen := rfl
@[simp] theorem State.setReg_msgPtr (i : RegIx) (v : Nat) : (s.setReg i v).msgPtr = s.msgPtr := rfl
@[simp] theorem State.setReg_outBuf (i : RegIx) (v : Nat) : (s.setReg i v).outBuf = s.outBuf := rfl
@[simp] theorem State.setReg_outLen (i : RegIx) (v : Nat) : (s.setReg i v).outLen = s.outLen := rfl
@[simp] theorem State.setReg_rsel (i : RegIx) (v : Nat) : (s.setReg i v).rsel = s.rsel := rfl
@[simp] theorem State.setReg_ie (i : RegIx) (v : Nat) : (s.setReg i v).ie = s.ie := rfl
@[simp] theorem State.setReg_status (i : RegIx) (v : Nat) : (s.setReg i v).status = s.status := rfl
@[simp] theorem State.setReg_lastCmd (i : RegIx) (v : Nat) : (s.setReg i v).lastCmd = s.lastCmd := rfl
@[simp] theorem State.setReg_cmdCnt (i : RegIx) (v : Nat) : (s.setReg i v).cmdCnt = s.cmdCnt := rfl
@[simp] theorem State.setReg_rst (i : RegIx) (v : Nat) : (s.setReg i v).rst = s.rst := rfl
@[simp] theorem State.setReg_inputs (i : RegIx) (v : Nat) : (s.setReg i v).inputs = s.inputs := rfl
@[simp] theorem State.setReg_witness (i : RegIx) (v : Nat) : (s.setReg i v).witness = s.witness := rfl
@[simp] theorem State.setReg_resp (i : RegIx) (v : Nat) : (s.setReg i v).resp = s.resp := rfl
@[simp] theorem State.setReg_draws (i : RegIx) (v : Nat) : (s.setReg i v).draws = s.draws := rfl
@[simp] theorem State.setReg_epoch (i : RegIx) (v : Nat) : (s.setReg i v).epoch = s.epoch := rfl

/-! ### `State.setZU` -/

@[simp] theorem State.setZU_params (v : Nat) : (s.setZU v).params = s.params := rfl
@[simp] theorem State.setZU_x (v : Nat) : (s.setZU v).x = s.x := rfl
@[simp] theorem State.setZU_valid (v : Nat) : (s.setZU v).valid = s.valid := rfl
@[simp] theorem State.setZU_msgBuf (v : Nat) : (s.setZU v).msgBuf = s.msgBuf := rfl
@[simp] theorem State.setZU_msgLen (v : Nat) : (s.setZU v).msgLen = s.msgLen := rfl
@[simp] theorem State.setZU_msgPtr (v : Nat) : (s.setZU v).msgPtr = s.msgPtr := rfl
@[simp] theorem State.setZU_outBuf (v : Nat) : (s.setZU v).outBuf = s.outBuf := rfl
@[simp] theorem State.setZU_outLen (v : Nat) : (s.setZU v).outLen = s.outLen := rfl
@[simp] theorem State.setZU_rsel (v : Nat) : (s.setZU v).rsel = s.rsel := rfl
@[simp] theorem State.setZU_ie (v : Nat) : (s.setZU v).ie = s.ie := rfl
@[simp] theorem State.setZU_status (v : Nat) : (s.setZU v).status = { s.status with z := v == 0, u := v == 1 } := rfl
@[simp] theorem State.setZU_lastCmd (v : Nat) : (s.setZU v).lastCmd = s.lastCmd := rfl
@[simp] theorem State.setZU_cmdCnt (v : Nat) : (s.setZU v).cmdCnt = s.cmdCnt := rfl
@[simp] theorem State.setZU_rst (v : Nat) : (s.setZU v).rst = s.rst := rfl
@[simp] theorem State.setZU_inputs (v : Nat) : (s.setZU v).inputs = s.inputs := rfl
@[simp] theorem State.setZU_witness (v : Nat) : (s.setZU v).witness = s.witness := rfl
@[simp] theorem State.setZU_resp (v : Nat) : (s.setZU v).resp = s.resp := rfl
@[simp] theorem State.setZU_draws (v : Nat) : (s.setZU v).draws = s.draws := rfl
@[simp] theorem State.setZU_epoch (v : Nat) : (s.setZU v).epoch = s.epoch := rfl

/-! ### `State.setP` -/

@[simp] theorem State.setP_params (b : Bool) : (s.setP b).params = s.params := rfl
@[simp] theorem State.setP_x (b : Bool) : (s.setP b).x = s.x := rfl
@[simp] theorem State.setP_valid (b : Bool) : (s.setP b).valid = s.valid := rfl
@[simp] theorem State.setP_msgBuf (b : Bool) : (s.setP b).msgBuf = s.msgBuf := rfl
@[simp] theorem State.setP_msgLen (b : Bool) : (s.setP b).msgLen = s.msgLen := rfl
@[simp] theorem State.setP_msgPtr (b : Bool) : (s.setP b).msgPtr = s.msgPtr := rfl
@[simp] theorem State.setP_outBuf (b : Bool) : (s.setP b).outBuf = s.outBuf := rfl
@[simp] theorem State.setP_outLen (b : Bool) : (s.setP b).outLen = s.outLen := rfl
@[simp] theorem State.setP_rsel (b : Bool) : (s.setP b).rsel = s.rsel := rfl
@[simp] theorem State.setP_ie (b : Bool) : (s.setP b).ie = s.ie := rfl
@[simp] theorem State.setP_status (b : Bool) : (s.setP b).status = { s.status with p := b } := rfl
@[simp] theorem State.setP_lastCmd (b : Bool) : (s.setP b).lastCmd = s.lastCmd := rfl
@[simp] theorem State.setP_cmdCnt (b : Bool) : (s.setP b).cmdCnt = s.cmdCnt := rfl
@[simp] theorem State.setP_rst (b : Bool) : (s.setP b).rst = s.rst := rfl
@[simp] theorem State.setP_inputs (b : Bool) : (s.setP b).inputs = s.inputs := rfl
@[simp] theorem State.setP_witness (b : Bool) : (s.setP b).witness = s.witness := rfl
@[simp] theorem State.setP_resp (b : Bool) : (s.setP b).resp = s.resp := rfl
@[simp] theorem State.setP_draws (b : Bool) : (s.setP b).draws = s.draws := rfl
@[simp] theorem State.setP_epoch (b : Bool) : (s.setP b).epoch = s.epoch := rfl

/-! ### `State.setE` -/

@[simp] theorem State.setE_params (b : Bool) : (s.setE b).params = s.params := rfl
@[simp] theorem State.setE_x (b : Bool) : (s.setE b).x = s.x := rfl
@[simp] theorem State.setE_valid (b : Bool) : (s.setE b).valid = s.valid := rfl
@[simp] theorem State.setE_msgBuf (b : Bool) : (s.setE b).msgBuf = s.msgBuf := rfl
@[simp] theorem State.setE_msgLen (b : Bool) : (s.setE b).msgLen = s.msgLen := rfl
@[simp] theorem State.setE_msgPtr (b : Bool) : (s.setE b).msgPtr = s.msgPtr := rfl
@[simp] theorem State.setE_outBuf (b : Bool) : (s.setE b).outBuf = s.outBuf := rfl
@[simp] theorem State.setE_outLen (b : Bool) : (s.setE b).outLen = s.outLen := rfl
@[simp] theorem State.setE_rsel (b : Bool) : (s.setE b).rsel = s.rsel := rfl
@[simp] theorem State.setE_ie (b : Bool) : (s.setE b).ie = s.ie := rfl
@[simp] theorem State.setE_status (b : Bool) : (s.setE b).status = { s.status with e := b } := rfl
@[simp] theorem State.setE_lastCmd (b : Bool) : (s.setE b).lastCmd = s.lastCmd := rfl
@[simp] theorem State.setE_cmdCnt (b : Bool) : (s.setE b).cmdCnt = s.cmdCnt := rfl
@[simp] theorem State.setE_rst (b : Bool) : (s.setE b).rst = s.rst := rfl
@[simp] theorem State.setE_inputs (b : Bool) : (s.setE b).inputs = s.inputs := rfl
@[simp] theorem State.setE_witness (b : Bool) : (s.setE b).witness = s.witness := rfl
@[simp] theorem State.setE_resp (b : Bool) : (s.setE b).resp = s.resp := rfl
@[simp] theorem State.setE_draws (b : Bool) : (s.setE b).draws = s.draws := rfl
@[simp] theorem State.setE_epoch (b : Bool) : (s.setE b).epoch = s.epoch := rfl

/-! ### `State.outWrite` -/

@[simp] theorem State.outWrite_params (a : Nat) (bs : List Byte) : (s.outWrite a bs).params = s.params := rfl
@[simp] theorem State.outWrite_x (a : Nat) (bs : List Byte) : (s.outWrite a bs).x = s.x := rfl
@[simp] theorem State.outWrite_valid (a : Nat) (bs : List Byte) : (s.outWrite a bs).valid = s.valid := rfl
@[simp] theorem State.outWrite_msgBuf (a : Nat) (bs : List Byte) : (s.outWrite a bs).msgBuf = s.msgBuf := rfl
@[simp] theorem State.outWrite_msgLen (a : Nat) (bs : List Byte) : (s.outWrite a bs).msgLen = s.msgLen := rfl
@[simp] theorem State.outWrite_msgPtr (a : Nat) (bs : List Byte) : (s.outWrite a bs).msgPtr = s.msgPtr := rfl
@[simp] theorem State.outWrite_outBuf (a : Nat) (bs : List Byte) :
    (s.outWrite a bs).outBuf = s.outBuf.storeAll a bs := rfl
@[simp] theorem State.outWrite_outLen (a : Nat) (bs : List Byte) : (s.outWrite a bs).outLen = s.outLen := rfl
@[simp] theorem State.outWrite_rsel (a : Nat) (bs : List Byte) : (s.outWrite a bs).rsel = s.rsel := rfl
@[simp] theorem State.outWrite_ie (a : Nat) (bs : List Byte) : (s.outWrite a bs).ie = s.ie := rfl
@[simp] theorem State.outWrite_status (a : Nat) (bs : List Byte) : (s.outWrite a bs).status = s.status := rfl
@[simp] theorem State.outWrite_lastCmd (a : Nat) (bs : List Byte) : (s.outWrite a bs).lastCmd = s.lastCmd := rfl
@[simp] theorem State.outWrite_cmdCnt (a : Nat) (bs : List Byte) : (s.outWrite a bs).cmdCnt = s.cmdCnt := rfl
@[simp] theorem State.outWrite_rst (a : Nat) (bs : List Byte) : (s.outWrite a bs).rst = s.rst := rfl
@[simp] theorem State.outWrite_inputs (a : Nat) (bs : List Byte) : (s.outWrite a bs).inputs = s.inputs := rfl
@[simp] theorem State.outWrite_witness (a : Nat) (bs : List Byte) : (s.outWrite a bs).witness = s.witness := rfl
@[simp] theorem State.outWrite_resp (a : Nat) (bs : List Byte) : (s.outWrite a bs).resp = s.resp := rfl
@[simp] theorem State.outWrite_draws (a : Nat) (bs : List Byte) : (s.outWrite a bs).draws = s.draws := rfl
@[simp] theorem State.outWrite_epoch (a : Nat) (bs : List Byte) : (s.outWrite a bs).epoch = s.epoch := rfl

/-! ### `State.issue` -/

@[simp] theorem State.issue_params (c : Word) : (s.issue c).params = s.params := rfl
@[simp] theorem State.issue_x (c : Word) : (s.issue c).x = s.x := rfl
@[simp] theorem State.issue_valid (c : Word) : (s.issue c).valid = s.valid := rfl
@[simp] theorem State.issue_msgBuf (c : Word) : (s.issue c).msgBuf = s.msgBuf := rfl
@[simp] theorem State.issue_msgLen (c : Word) : (s.issue c).msgLen = s.msgLen := rfl
@[simp] theorem State.issue_msgPtr (c : Word) : (s.issue c).msgPtr = s.msgPtr := rfl
@[simp] theorem State.issue_outBuf (c : Word) : (s.issue c).outBuf = s.outBuf := rfl
@[simp] theorem State.issue_outLen (c : Word) : (s.issue c).outLen = s.outLen := rfl
@[simp] theorem State.issue_rsel (c : Word) : (s.issue c).rsel = s.rsel := rfl
@[simp] theorem State.issue_ie (c : Word) : (s.issue c).ie = s.ie := rfl
@[simp] theorem State.issue_status (c : Word) :
    (s.issue c).status = { s.status with busy := true, done := false, err := false, errCode := .noError } := rfl
@[simp] theorem State.issue_lastCmd (c : Word) : (s.issue c).lastCmd = c := rfl
@[simp] theorem State.issue_cmdCnt (c : Word) : (s.issue c).cmdCnt = s.cmdCnt := rfl
@[simp] theorem State.issue_rst (c : Word) : (s.issue c).rst = s.rst := rfl
@[simp] theorem State.issue_inputs (c : Word) : (s.issue c).inputs = s.inputs := rfl
@[simp] theorem State.issue_witness (c : Word) : (s.issue c).witness = s.witness := rfl
@[simp] theorem State.issue_resp (c : Word) : (s.issue c).resp = s.resp := rfl
@[simp] theorem State.issue_draws (c : Word) : (s.issue c).draws = s.draws := rfl
@[simp] theorem State.issue_epoch (c : Word) : (s.issue c).epoch = s.epoch := rfl

/-! ### `State.succeed` -/

@[simp] theorem State.succeed_params : s.succeed.params = s.params := rfl
@[simp] theorem State.succeed_x : s.succeed.x = s.x := rfl
@[simp] theorem State.succeed_valid : s.succeed.valid = s.valid := rfl
@[simp] theorem State.succeed_msgBuf : s.succeed.msgBuf = s.msgBuf := rfl
@[simp] theorem State.succeed_msgLen : s.succeed.msgLen = s.msgLen := rfl
@[simp] theorem State.succeed_msgPtr : s.succeed.msgPtr = s.msgPtr := rfl
@[simp] theorem State.succeed_outBuf : s.succeed.outBuf = s.outBuf := rfl
@[simp] theorem State.succeed_outLen : s.succeed.outLen = s.outLen := rfl
@[simp] theorem State.succeed_rsel : s.succeed.rsel = s.rsel := rfl
@[simp] theorem State.succeed_ie : s.succeed.ie = s.ie := rfl
@[simp] theorem State.succeed_status :
    s.succeed.status = { s.status with busy := false, done := true, err := false, errCode := .noError } := rfl
@[simp] theorem State.succeed_lastCmd : s.succeed.lastCmd = s.lastCmd := rfl
@[simp] theorem State.succeed_cmdCnt : s.succeed.cmdCnt = s.cmdCnt + 1 := rfl
@[simp] theorem State.succeed_rst : s.succeed.rst = s.rst := rfl
@[simp] theorem State.succeed_inputs : s.succeed.inputs = s.inputs := rfl
@[simp] theorem State.succeed_witness : s.succeed.witness = s.witness := rfl
@[simp] theorem State.succeed_resp : s.succeed.resp = s.resp := rfl
@[simp] theorem State.succeed_draws : s.succeed.draws = s.draws := rfl
@[simp] theorem State.succeed_epoch : s.succeed.epoch = s.epoch := rfl

/-! ### `State.fail` -/

@[simp] theorem State.fail_params (e : ErrCode) : (s.fail e).params = s.params := rfl
@[simp] theorem State.fail_x (e : ErrCode) : (s.fail e).x = s.x := rfl
@[simp] theorem State.fail_valid (e : ErrCode) : (s.fail e).valid = s.valid := rfl
@[simp] theorem State.fail_msgBuf (e : ErrCode) : (s.fail e).msgBuf = s.msgBuf := rfl
@[simp] theorem State.fail_msgLen (e : ErrCode) : (s.fail e).msgLen = s.msgLen := rfl
@[simp] theorem State.fail_msgPtr (e : ErrCode) : (s.fail e).msgPtr = s.msgPtr := rfl
@[simp] theorem State.fail_outBuf (e : ErrCode) : (s.fail e).outBuf = s.outBuf := rfl
@[simp] theorem State.fail_outLen (e : ErrCode) : (s.fail e).outLen = s.outLen := rfl
@[simp] theorem State.fail_rsel (e : ErrCode) : (s.fail e).rsel = s.rsel := rfl
@[simp] theorem State.fail_ie (e : ErrCode) : (s.fail e).ie = s.ie := rfl
@[simp] theorem State.fail_status (e : ErrCode) :
    (s.fail e).status = { s.status with busy := false, done := true, err := true, errCode := e } := rfl
@[simp] theorem State.fail_lastCmd (e : ErrCode) : (s.fail e).lastCmd = s.lastCmd := rfl
@[simp] theorem State.fail_cmdCnt (e : ErrCode) : (s.fail e).cmdCnt = s.cmdCnt + 1 := rfl
@[simp] theorem State.fail_rst (e : ErrCode) : (s.fail e).rst = s.rst := rfl
@[simp] theorem State.fail_inputs (e : ErrCode) : (s.fail e).inputs = s.inputs := rfl
@[simp] theorem State.fail_witness (e : ErrCode) : (s.fail e).witness = s.witness := rfl
@[simp] theorem State.fail_resp (e : ErrCode) : (s.fail e).resp = s.resp := rfl
@[simp] theorem State.fail_draws (e : ErrCode) : (s.fail e).draws = s.draws := rfl
@[simp] theorem State.fail_epoch (e : ErrCode) : (s.fail e).epoch = s.epoch := rfl

/-! ### `State.respond` -/

@[simp] theorem State.respond_params (error : Bool) (data : Option Word) :
    (s.respond error data).params = s.params := rfl
@[simp] theorem State.respond_x (error : Bool) (data : Option Word) : (s.respond error data).x = s.x := rfl
@[simp] theorem State.respond_valid (error : Bool) (data : Option Word) : (s.respond error data).valid = s.valid := rfl
@[simp] theorem State.respond_msgBuf (error : Bool) (data : Option Word) :
    (s.respond error data).msgBuf = s.msgBuf := rfl
@[simp] theorem State.respond_msgLen (error : Bool) (data : Option Word) :
    (s.respond error data).msgLen = s.msgLen := rfl
@[simp] theorem State.respond_msgPtr (error : Bool) (data : Option Word) :
    (s.respond error data).msgPtr = s.msgPtr := rfl
@[simp] theorem State.respond_outBuf (error : Bool) (data : Option Word) :
    (s.respond error data).outBuf = s.outBuf := rfl
@[simp] theorem State.respond_outLen (error : Bool) (data : Option Word) :
    (s.respond error data).outLen = s.outLen := rfl
@[simp] theorem State.respond_rsel (error : Bool) (data : Option Word) : (s.respond error data).rsel = s.rsel := rfl
@[simp] theorem State.respond_ie (error : Bool) (data : Option Word) : (s.respond error data).ie = s.ie := rfl
@[simp] theorem State.respond_status (error : Bool) (data : Option Word) :
    (s.respond error data).status = s.status := rfl
@[simp] theorem State.respond_lastCmd (error : Bool) (data : Option Word) :
    (s.respond error data).lastCmd = s.lastCmd := rfl
@[simp] theorem State.respond_cmdCnt (error : Bool) (data : Option Word) :
    (s.respond error data).cmdCnt = s.cmdCnt := rfl
@[simp] theorem State.respond_rst (error : Bool) (data : Option Word) : (s.respond error data).rst = s.rst := rfl
@[simp] theorem State.respond_inputs (error : Bool) (data : Option Word) :
    (s.respond error data).inputs = s.inputs := rfl
@[simp] theorem State.respond_witness (error : Bool) (data : Option Word) :
    (s.respond error data).witness = s.witness := rfl
@[simp] theorem State.respond_resp (error : Bool) (data : Option Word) :
    (s.respond error data).resp = some { error := error, data := data } := rfl
@[simp] theorem State.respond_draws (error : Bool) (data : Option Word) : (s.respond error data).draws = s.draws := rfl
@[simp] theorem State.respond_epoch (error : Bool) (data : Option Word) : (s.respond error data).epoch = s.epoch := rfl

/-! ### Registers and bytes after an update -/

@[simp] theorem State.reg_setReg (i j : RegIx) (v : Nat) : (s.setReg i v).reg j = if i = j then v else s.reg j := by
  simp only [State.reg, State.setReg_x, Vector.getElem_set, Fin.ext_iff]

@[simp] theorem State.isValid_setReg (i j : RegIx) (v : Nat) :
    (s.setReg i v).isValid j = (s.isValid j || decide (i = j)) := by
  simp only [State.isValid, State.setReg_valid, BitVec.getLsbD_or, BitVec.getLsbD_twoPow, Fin.ext_iff]
  simp [i.isLt]

theorem State.reg_congr {s t : State} (h : t.x = s.x) (i : RegIx) : t.reg i = s.reg i := by
  simp only [State.reg, h]

theorem State.isValid_congr {s t : State} (h : t.valid = s.valid) (i : RegIx) : t.isValid i = s.isValid i := by
  simp only [State.isValid, h]

theorem State.byteAt_congr {s t : State} (b : Buf) (hb : t.buffer b = s.buffer b) (he : t.epoch = s.epoch) (a : Nat) :
    t.byteAt b a = s.byteAt b a := by
  simp only [State.byteAt, hb, he]

theorem State.memRead_congr {s t : State} (b : Buf) (hb : t.buffer b = s.buffer b) (he : t.epoch = s.epoch)
    (a k : Nat) : t.memRead b a k = s.memRead b a k := by
  simp only [State.memRead, State.byteAt_congr b hb he]

@[simp] theorem State.length_memRead (b : Buf) (a k : Nat) : (s.memRead b a k).length = k := by
  simp [State.memRead]

/-- Reading on: the first byte and the rest. -/
theorem State.memRead_succ (b : Buf) (a k : Nat) : s.memRead b a (k + 1) = s.byteAt b a :: s.memRead b (a + 1) k := by
  simp only [State.memRead, List.range_succ_eq_map, List.map_cons, List.map_map, Nat.add_zero]
  congr 1
  apply List.map_congr_left
  intro j _
  simp [Nat.add_comm, Nat.add_left_comm]

end Sys2Proof.Machine
end

