-- ==== Sys2Proof/Laws/Exec.lean ====
section
/-! SUPPORT. Everything a command can do, said once: it completes with an error from the state it began in, it completes
with success after its writes, or it is an MRTEST that waits or is refused. -/

namespace Sys2Proof.Machine

theorem src_valid (i : RegIx) (s : State) (k : Nat → Result) (h : s.isValid i = true) : src i s k = k (s.reg i) := by
  rw [src, if_pos h]

theorem src_invalid (i : RegIx) (s : State) (k : Nat → Result) (h : s.isValid i = false) :
    src i s k = .next (s.fail .unwritten) := by
  rw [src, if_neg (by simp [h])]
  rfl

/-- What a source register's read leads to. -/
theorem src_cases (i : RegIx) (s : State) (k : Nat → Result) :
    (s.isValid i = true ∧ src i s k = k (s.reg i)) ∨ src i s k = .next (s.fail .unwritten) := by
  cases h : s.isValid i
  · exact .inr (src_invalid i s k h)
  · exact .inl ⟨rfl, src_valid i s k h⟩

/-- The writes of a command that completes with success, from `s` to `u`. -/
def Writes : Instr → State → State → Prop
  | .nop, s, u => u = s
  | .mov rd rs, s, u => u = s.writePrimary rd (s.reg rs)
  | .ldi rd imm22, s, u => u = s.writePrimary rd imm22.toNat
  | .mrtest rd _ _, s, u => ∃ pass rest, u = State.writeVerdict { s with witness := rest } rd pass
  | .mrround rd _ _, s, u => ∃ pass, u = s.writeVerdict rd pass
  | .mrdecomp rd rr rn, s, u =>
    rd ≠ rr ∧ 2 ≤ s.reg rn ∧ u = (s.writePrimary rd (decomp (s.reg rn - 1)).1).setReg rr (decomp (s.reg rn - 1)).2
  | .modexp rd rb re rm _, s, u => s.reg rm ≠ 0 ∧ u = s.writePrimary rd (s.reg rb ^ s.reg re % s.reg rm)
  | .gcd rd ra rb, s, u => u = s.writePrimary rd (Nat.gcd (s.reg ra) (s.reg rb))
  | .xgcd rg rx ry ra rb, s, u =>
    rg ≠ rx ∧ rg ≠ ry ∧ rx ≠ ry ∧
      u = ((s.writePrimary rg (Nat.gcd (s.reg ra) (s.reg rb))).setReg rx
        (tw s.params.opw (xgcd (s.reg ra) (s.reg rb)).2.1)).setReg ry
        (tw s.params.opw (xgcd (s.reg ra) (s.reg rb)).2.2)
  | .modinv rd ra rm, s, u =>
    s.reg rm ≠ 0 ∧ u = s.writePrimary rd ((xgcd (s.reg ra) (s.reg rm)).2.1 % (s.reg rm : Int)).toNat
  | .bsize rd rn, s, u => s.reg rn ≠ 0 ∧ u = s.writePrimary rd (blockSize (s.reg rn))
  | .bsplit rd rn, s, u =>
    (s.msgLen ≤ s.msgPtr ∧ u = s.setE true) ∨
      (s.msgPtr < s.msgLen ∧ chunkValue (s.reg rn) s < s.reg rn ∧
        u = (State.setE { s with msgPtr := s.msgPtr + chunkLength (s.reg rn) s }
          (decide (s.msgLen ≤ s.msgPtr + chunkLength (s.reg rn) s))).writePrimary rd (chunkValue (s.reg rn) s))
  | .bjoin rs, s, u =>
    s.outLen + (mbe (s.reg rs)).length ≤ s.params.outCap ∧
      u = { s.outWrite s.outLen (mbe (s.reg rs)) with outLen := s.outLen + (mbe (s.reg rs)).length }
  | .utf8chk, s, u => u = s

/-- What the writes of every command leave as it was. -/
structure KeepsRest (s u : State) : Prop where
  params  : u.params = s.params
  msgBuf  : u.msgBuf = s.msgBuf
  msgLen  : u.msgLen = s.msgLen
  rsel    : u.rsel = s.rsel
  ie      : u.ie = s.ie
  lastCmd : u.lastCmd = s.lastCmd
  cmdCnt  : u.cmdCnt = s.cmdCnt
  rst     : u.rst = s.rst
  inputs  : u.inputs = s.inputs
  resp    : u.resp = s.resp
  draws   : u.draws = s.draws
  epoch   : u.epoch = s.epoch
  ovr     : u.status.ovr = s.status.ovr

theorem Writes.keepsRest {i : Instr} {s u : State} (h : Writes i s u) : KeepsRest s u := by
  cases i with
  | nop => cases h; constructor <;> rfl
  | mov => cases h; constructor <;> rfl
  | ldi => cases h; constructor <;> rfl
  | mrtest => obtain ⟨_, _, rfl⟩ := h; constructor <;> rfl
  | mrround => obtain ⟨_, rfl⟩ := h; constructor <;> rfl
  | mrdecomp => obtain ⟨_, _, rfl⟩ := h; constructor <;> rfl
  | modexp => obtain ⟨_, rfl⟩ := h; constructor <;> rfl
  | gcd => cases h; constructor <;> rfl
  | xgcd => obtain ⟨_, _, _, rfl⟩ := h; constructor <;> rfl
  | modinv => obtain ⟨_, rfl⟩ := h; constructor <;> rfl
  | bsize => obtain ⟨_, rfl⟩ := h; constructor <;> rfl
  | bsplit => obtain ⟨_, rfl⟩ | ⟨_, _, rfl⟩ := h <;> constructor <;> rfl
  | bjoin => obtain ⟨_, rfl⟩ := h; constructor <;> rfl
  | utf8chk => cases h; constructor <;> rfl

/-- The errors a command raises (60_exceptions.md R288): ILLEGAL only for equal destinations (30_encoding.md R100), never
one of the reserved codes of R304, never ENCRYPTION by 43_block_codec.md R223. -/
def Raised (i : Instr) : ErrCode → Prop
  | .noError => False
  | .illegal => i.wellFormed = false
  | .unwritten => True
  | .operand => True
  | .invalidInput => True
  | .keygen => False
  | .encryption => False
  | .decryption => True
  | .signature => False
  | .noInverse => True
  | .outfull => True
  | .blocksize => True

/-- Everything a command can do. -/
theorem exec_cases (i : Instr) (s : State) :
    (∃ e, Raised i e ∧ exec i s = .next (s.fail e)) ∨ (∃ u, Writes i s u ∧ exec i s = .next u.succeed) ∨
      ((∃ rd rn k, i = .mrtest rd rn k) ∧ (exec i s = .next s ∨ exec i s = .refused .witnessOutOfContract)) := by
  have unw : Raised i .unwritten := trivial
  cases i with
  | nop => exact .inr (.inl ⟨s, rfl, rfl⟩)
  | mov rd rs =>
    rcases src_cases rs s fun v => finish (s.writePrimary rd v) with ⟨_, h⟩ | h
    · exact .inr (.inl ⟨_, rfl, h⟩)
    · exact .inl ⟨_, unw, h⟩
  | ldi rd imm22 => exact .inr (.inl ⟨_, rfl, rfl⟩)
  | mrtest rd rn k =>
    simp only [exec, execMrtest]
    rcases src_cases rn s _ with ⟨_, h⟩ | h
    · rw [h]
      split
      · exact .inr (.inl ⟨_, ⟨_, s.witness, rfl⟩, rfl⟩)
      · split
        · exact .inr (.inl ⟨_, ⟨_, _, rfl⟩, rfl⟩)
        · exact .inr (.inr ⟨⟨_, _, _, rfl⟩, .inl rfl⟩)
        · exact .inr (.inr ⟨⟨_, _, _, rfl⟩, .inr rfl⟩)
    · exact .inl ⟨_, unw, h⟩
  | mrround rd rn ra =>
    simp only [exec, execMrround]
    rcases src_cases rn s _ with ⟨_, h⟩ | h
    · rw [h]
      rcases src_cases ra s _ with ⟨_, h'⟩ | h'
      · rw [h']
        split
        · exact .inr (.inl ⟨_, ⟨_, rfl⟩, rfl⟩)
        · split
          · exact .inl ⟨.operand, trivial, rfl⟩
          · exact .inr (.inl ⟨_, ⟨_, rfl⟩, rfl⟩)
      · exact .inl ⟨_, unw, h'⟩
    · exact .inl ⟨_, unw, h⟩
  | mrdecomp rd rr rn =>
    simp only [exec, execMrdecomp]
    split
    · exact .inl ⟨.illegal, by simp_all [Raised, Instr.wellFormed, Instr.dests], rfl⟩
    · rename_i hne
      rcases src_cases rn s _ with ⟨_, h⟩ | h
      · rw [h]
        split
        · exact .inl ⟨.operand, trivial, rfl⟩
        · exact .inr (.inl ⟨_, ⟨hne, by omega, rfl⟩, rfl⟩)
      · exact .inl ⟨_, unw, h⟩
  | modexp rd rb re rm method =>
    simp only [exec, execModexp]
    rcases src_cases rb s _ with ⟨_, h⟩ | h
    · rw [h]
      rcases src_cases re s _ with ⟨_, h⟩ | h
      · rw [h]
        rcases src_cases rm s _ with ⟨_, h⟩ | h
        · rw [h]
          split
          · exact .inl ⟨.operand, trivial, rfl⟩
          · rename_i hm
            exact .inr (.inl ⟨_, ⟨hm, rfl⟩, by rw [modexp_eq _ _ _ _ hm]; rfl⟩)
        · exact .inl ⟨_, unw, h⟩
      · exact .inl ⟨_, unw, h⟩
    · exact .inl ⟨_, unw, h⟩
  | gcd rd ra rb =>
    simp only [exec, execGcd]
    rcases src_cases ra s _ with ⟨_, h⟩ | h
    · rw [h]
      rcases src_cases rb s _ with ⟨_, h⟩ | h
      · rw [h]
        exact .inr (.inl ⟨_, rfl, by rw [euclid_eq]; rfl⟩)
      · exact .inl ⟨_, unw, h⟩
    · exact .inl ⟨_, unw, h⟩
  | xgcd rg rx ry ra rb =>
    simp only [exec, execXgcd]
    split
    · rename_i heq
      refine .inl ⟨.illegal, ?_, rfl⟩
      rcases heq with rfl | rfl | rfl <;> simp [Raised, Instr.wellFormed, Instr.dests]
    · rename_i hne
      simp only [not_or] at hne
      rcases src_cases ra s _ with ⟨_, h⟩ | h
      · rw [h]
        rcases src_cases rb s _ with ⟨_, h⟩ | h
        · rw [h]
          exact .inr (.inl ⟨_, ⟨hne.1, hne.2.1, hne.2.2, rfl⟩, by rw [xgcd_fst]; rfl⟩)
        · exact .inl ⟨_, unw, h⟩
      · exact .inl ⟨_, unw, h⟩
  | modinv rd ra rm =>
    simp only [exec, execModinv]
    rcases src_cases ra s _ with ⟨_, h⟩ | h
    · rw [h]
      rcases src_cases rm s _ with ⟨_, h⟩ | h
      · rw [h]
        split
        · exact .inl ⟨.operand, trivial, rfl⟩
        · rename_i hm
          split
          · exact .inl ⟨.noInverse, trivial, rfl⟩
          · exact .inr (.inl ⟨_, ⟨hm, rfl⟩, rfl⟩)
      · exact .inl ⟨_, unw, h⟩
    · exact .inl ⟨_, unw, h⟩
  | bsize rd rn =>
    simp only [exec, execBsize]
    rcases src_cases rn s _ with ⟨_, h⟩ | h
    · rw [h]
      split
      · exact .inl ⟨.operand, trivial, rfl⟩
      · rename_i hn
        exact .inr (.inl ⟨_, ⟨hn, rfl⟩, rfl⟩)
    · exact .inl ⟨_, unw, h⟩
  | bsplit rd rn =>
    simp only [exec, execBsplit]
    rcases src_cases rn s _ with ⟨_, h⟩ | h
    · rw [h]
      split
      · exact .inl ⟨.operand, trivial, rfl⟩
      · rename_i hn
        have hlt : chunkValue (s.reg rn) s < s.reg rn :=
          be_lt_of_blockSize _ hn _ (by rw [State.length_memRead]; exact Nat.min_le_left _ _)
        split
        · exact .inl ⟨.blocksize, trivial, rfl⟩
        · split
          · exact .inl ⟨.invalidInput, trivial, rfl⟩
          · split
            · exact .inr (.inl ⟨_, .inl ⟨by assumption, rfl⟩, rfl⟩)
            · rw [if_neg (by omega)]
              exact .inr (.inl ⟨_, .inr ⟨by omega, hlt, rfl⟩, rfl⟩)
    · exact .inl ⟨_, unw, h⟩
  | bjoin rs =>
    simp only [exec, execBjoin]
    rcases src_cases rs s _ with ⟨_, h⟩ | h
    · rw [h]
      split
      · exact .inl ⟨.outfull, trivial, rfl⟩
      · exact .inr (.inl ⟨_, ⟨by omega, rfl⟩, rfl⟩)
    · exact .inl ⟨_, unw, h⟩
  | utf8chk =>
    simp only [exec, execUtf8chk]
    split
    · exact .inr (.inl ⟨_, rfl, rfl⟩)
    · exact .inl ⟨.decryption, trivial, rfl⟩

end Sys2Proof.Machine
end

