-- ==== Sys2Proof/Laws/Memory.lean ====
section
/-! SUPPORT. The buffers: reading back what was stored, and the canonical form. -/

namespace Sys2Proof.Machine

/-- A byte stored is read back; every other index reads as before. -/
@[simp] theorem Memory.lookup_store (m : Memory) (a i : Nat) (b : Byte) :
    (m.store a b).lookup i = if i = a then some b else m.lookup i := by
  induction m with
  | nil => simp [Memory.store, Memory.lookup]
  | cons cell m ih =>
    obtain ⟨c, d⟩ := cell
    simp only [Memory.store]
    split
    · simp [Memory.lookup]
    · split
      · subst_vars
        by_cases h : i = c <;> simp [Memory.lookup, h]
      · simp only [Memory.lookup, ih]
        by_cases h : i = c
        · have : i ≠ a := by omega
          simp [h]; omega
        · simp [h]

/-- A sequence stored is read back; every index outside it reads as before. -/
theorem Memory.lookup_storeAll (m : Memory) (a i : Nat) (bs : List Byte) :
    (m.storeAll a bs).lookup i = if a ≤ i ∧ i < a + bs.length then bs[i - a]? else m.lookup i := by
  induction bs generalizing m a with
  | nil => simp [Memory.storeAll]
  | cons b bs ih =>
    rw [Memory.storeAll, ih, Memory.lookup_store]
    by_cases h : i = a
    · subst h; simp
    · by_cases h' : a + 1 ≤ i ∧ i < a + 1 + bs.length
      · have hi : i - a = (i - (a + 1)) + 1 := by omega
        rw [if_pos h', if_pos (by simp only [List.length_cons]; omega), hi, List.getElem?_cons_succ]
      · rw [if_neg h', if_neg h, if_neg (by simp only [List.length_cons]; omega)]

theorem Memory.wf_tail (cell : Host.Cell) (m : Memory) (h : Memory.wf (cell :: m) = true) : Memory.wf m = true := by
  cases m with
  | nil => rfl
  | cons cell' m => simp only [Memory.wf, Bool.and_eq_true] at h; exact h.2

/-- Storing keeps the indexes rising, and never puts one before both the old first and the new index. -/
theorem Memory.wf_store (m : Memory) (a : Nat) (b : Byte) (h : m.wf = true) : (m.store a b).wf = true := by
  induction m with
  | nil => simp [Memory.store, Memory.wf]
  | cons cell m ih =>
    obtain ⟨c, d⟩ := cell
    simp only [Memory.store]
    split
    · simp [Memory.wf, *]
    · split
      · cases m <;> simp_all [Memory.wf]
      · cases m with
        | nil => simp [Memory.store, Memory.wf]; omega
        | cons cell' m =>
          obtain ⟨c', d'⟩ := cell'
          simp only [Memory.wf, Bool.and_eq_true, decide_eq_true_eq] at h
          have ih' := ih h.2
          simp only [Memory.store] at ih' ⊢
          split at ih' <;> rename_i h1
          · simp only [h1, if_true, Memory.wf, Bool.and_eq_true, decide_eq_true_eq] at ih' ⊢
            exact ⟨by omega, ih'⟩
          · split at ih' <;> rename_i h2
            · simp only [h2, if_true, lt_self_iff_false, if_false, Memory.wf] at ih' ⊢
              cases m <;> simp_all [Memory.wf]
            · simp only [h1, h2, if_false]
              simp only [Memory.wf, Bool.and_eq_true, decide_eq_true_eq]
              exact ⟨h.1, ih'⟩

theorem Memory.wf_storeAll (m : Memory) (a : Nat) (bs : List Byte) (h : m.wf = true) :
    (m.storeAll a bs).wf = true := by
  induction bs generalizing m a with
  | nil => exact h
  | cons b bs ih => exact ih _ _ (Memory.wf_store m a b h)

theorem Memory.below_store (m : Memory) (a cap : Nat) (b : Byte) (h : m.below cap = true) (ha : a < cap) :
    (m.store a b).below cap = true := by
  induction m with
  | nil => simp [Memory.store, Memory.below, ha]
  | cons cell m ih =>
    obtain ⟨c, d⟩ := cell
    simp only [Memory.below, List.all_cons, Bool.and_eq_true, decide_eq_true_eq] at h ih ⊢
    simp only [Memory.store]
    split
    · simp [ha, h]
    · split
      · simp [ha, h]
      · simp only [List.all_cons, Bool.and_eq_true, decide_eq_true_eq]
        exact ⟨h.1, ih h.2⟩

theorem Memory.below_storeAll (m : Memory) (a cap : Nat) (bs : List Byte) (h : m.below cap = true)
    (ha : a + bs.length ≤ cap) : (m.storeAll a bs).below cap = true := by
  induction bs generalizing m a with
  | nil => exact h
  | cons b bs ih =>
    simp only [List.length_cons] at ha
    exact ih _ _ (Memory.below_store m a cap b h (by omega)) (by omega)

/-- The lowest listed index bounds every listed index from below. -/
theorem Memory.lookup_lt (m : Memory) (c i : Nat) (d : Byte) (h : Memory.wf ((c, d) :: m) = true) (hi : i < c) :
    m.lookup i = none := by
  induction m generalizing c d with
  | nil => rfl
  | cons cell m ih =>
    obtain ⟨c', d'⟩ := cell
    simp only [Memory.wf, Bool.and_eq_true, decide_eq_true_eq] at h
    simp only [Memory.lookup]
    rw [if_neg (by omega)]
    exact ih c' d' h.2 (by omega)

/-- Equal contents are equal data: two canonical memories that list the same bytes are the same list. -/
theorem Memory.ext_of_wf (m n : Memory) (hm : m.wf = true) (hn : n.wf = true)
    (h : ∀ i, m.lookup i = n.lookup i) : m = n := by
  induction m generalizing n with
  | nil =>
    cases n with
    | nil => rfl
    | cons cell n => have := h cell.1; simp [Memory.lookup] at this
  | cons cell m ih =>
    obtain ⟨c, d⟩ := cell
    cases n with
    | nil => have := h c; simp [Memory.lookup] at this
    | cons cell' n =>
      obtain ⟨c', d'⟩ := cell'
      have hmt := Memory.wf_tail _ _ hm
      have hnt := Memory.wf_tail _ _ hn
      have hc : c = c' := by
        rcases Nat.lt_trichotomy c c' with hlt | heq | hgt
        · have := h c
          simp [Memory.lookup, Nat.ne_of_lt hlt, Memory.lookup_lt n c' c d' hn hlt] at this
        · exact heq
        · have := h c'
          simp [Memory.lookup, Nat.ne_of_lt hgt, Memory.lookup_lt m c c' d hm hgt] at this
      subst hc
      have hd : d = d' := by have := h c; simpa [Memory.lookup] using this
      subst hd
      congr 1
      refine ih n hmt hnt fun i => ?_
      have hi := h i
      simp only [Memory.lookup] at hi
      by_cases he : i = c
      · subst he
        have key : ∀ k : Memory, Memory.wf ((i, d) :: k) = true → k.lookup i = none := by
          intro k hk
          cases k with
          | nil => rfl
          | cons cell'' k =>
            obtain ⟨c'', d''⟩ := cell''
            simp only [Memory.wf, Bool.and_eq_true, decide_eq_true_eq] at hk
            simp only [Memory.lookup]
            rw [if_neg (by omega)]
            exact Memory.lookup_lt k c'' i d'' hk.2 hk.1
        rw [key m hm, key n hn]
      · simpa [he] using hi

/-- One byte of a buffer after OUTBUF bytes were written: inside the written range the new bytes. -/
theorem State.byteAt_outWrite (s : State) (a i : Nat) (bs : List Byte) :
    (s.outWrite a bs).byteAt .out i =
      if h : a ≤ i ∧ i < a + bs.length then bs[i - a]'(by omega) else s.byteAt .out i := by
  simp only [State.byteAt, State.buffer, State.outWrite_outBuf, State.outWrite_epoch, Memory.lookup_storeAll]
  split
  · rename_i h
    rw [List.getElem?_eq_getElem (by omega)]
    rfl
  · rfl

end Sys2Proof.Machine
end

