-- ==== Sys2Proof/Laws/PerInstr.lean ====
section
/-! SUPPORT. Facts about every command's encoding, one lemma per constructor. -/

namespace Sys2Proof.Laws

open Sys2Proof

/-- The mask column of 30_encoding.md R96. -/
def maskOf : Instr → Word
  | .nop => 0xFFFFFFFF#32
  | .mov _ _ => 0xFC03FFFF#32
  | .ldi _ _ => 0xFC000000#32
  | .mrtest _ _ _ => 0xFC03FFC0#32
  | .mrround _ _ _ => 0xFC003FFF#32
  | .mrdecomp _ _ _ => 0xFC003FFF#32
  | .modexp _ _ _ _ _ => 0xFC0003FE#32
  | .gcd _ _ _ => 0xFC003FFF#32
  | .xgcd _ _ _ _ _ => 0xFC00003F#32
  | .modinv _ _ _ => 0xFC003FFF#32
  | .bsize _ _ => 0xFC03FFFF#32
  | .bsplit _ _ => 0xFC03FFFF#32
  | .bjoin _ => 0xFFC3FFFF#32
  | .utf8chk => 0xFFFFFFFF#32

/-- The encoding has its row's reserved bits 0 (30_encoding.md R98). -/
def ReservedBits.Statement (i : Instr) : Prop := encode i &&& maskOf i &&& 0x03FFFFFF#32 = 0#32

theorem ReservedBits.nop : ReservedBits.Statement .nop := by
  refine reserved_clear _ _ fun k hk hm => ?_
  have hlow : ∀ k < 26, (0xFFFFFFFF#32).getLsbD k = true → k < 26 := by decide
  have hlow := hlow k hk hm
  simp only [encode, formatR_getLsbD]
  repeat' split
  all_goals first | omega | simp

theorem ReservedBits.mov (rd rs : RegIx) : ReservedBits.Statement (.mov rd rs) := by
  refine reserved_clear _ _ fun k hk hm => ?_
  have hlow : ∀ k < 26, (0xFC03FFFF#32).getLsbD k = true → k < 18 := by decide
  have hlow := hlow k hk hm
  simp only [encode, formatR_getLsbD]
  repeat' split
  all_goals first | omega | simp

theorem ReservedBits.ldi (rd : RegIx) (imm22 : BitVec 22) : ReservedBits.Statement (.ldi rd imm22) := by
  refine reserved_clear _ _ fun k hk hm => ?_
  have hlow : ∀ k < 26, (0xFC000000#32).getLsbD k = true → False := by decide
  exact absurd (hlow k hk hm) id

theorem ReservedBits.mrtest (rd rn : RegIx) (rounds : Fin 64) : ReservedBits.Statement (.mrtest rd rn rounds) := by
  refine reserved_clear _ _ fun k hk hm => ?_
  have hlow : ∀ k < 26, (0xFC03FFC0#32).getLsbD k = true → 6 ≤ k ∧ k < 18 := by decide
  have hlow := hlow k hk hm
  simp only [encode, formatR_getLsbD]
  repeat' split
  all_goals first | omega | simp

theorem ReservedBits.mrround (rd rn ra : RegIx) : ReservedBits.Statement (.mrround rd rn ra) := by
  refine reserved_clear _ _ fun k hk hm => ?_
  have hlow : ∀ k < 26, (0xFC003FFF#32).getLsbD k = true → k < 14 := by decide
  have hlow := hlow k hk hm
  simp only [encode, formatR_getLsbD]
  repeat' split
  all_goals first | omega | simp

theorem ReservedBits.mrdecomp (rd rr rn : RegIx) : ReservedBits.Statement (.mrdecomp rd rr rn) := by
  refine reserved_clear _ _ fun k hk hm => ?_
  have hlow : ∀ k < 26, (0xFC003FFF#32).getLsbD k = true → k < 14 := by decide
  have hlow := hlow k hk hm
  simp only [encode, formatR_getLsbD]
  repeat' split
  all_goals first | omega | simp

theorem ReservedBits.modexp (rd rb re rm : RegIx) (method : Method) :
    ReservedBits.Statement (.modexp rd rb re rm method) := by
  refine reserved_clear _ _ fun k hk hm => ?_
  have hlow : ∀ k < 26, (0xFC0003FE#32).getLsbD k = true → 1 ≤ k ∧ k < 10 := by decide
  have hlow := hlow k hk hm
  simp only [encode, formatR_getLsbD]
  have hk0 : k ≠ 0 := by omega
  cases method <;> (repeat' split) <;> first | omega | simp [Method.imm6, hk0]

theorem ReservedBits.gcd (rd ra rb : RegIx) : ReservedBits.Statement (.gcd rd ra rb) := by
  refine reserved_clear _ _ fun k hk hm => ?_
  have hlow : ∀ k < 26, (0xFC003FFF#32).getLsbD k = true → k < 14 := by decide
  have hlow := hlow k hk hm
  simp only [encode, formatR_getLsbD]
  repeat' split
  all_goals first | omega | simp

theorem ReservedBits.xgcd (rg rx ry ra rb : RegIx) : ReservedBits.Statement (.xgcd rg rx ry ra rb) := by
  refine reserved_clear _ _ fun k hk hm => ?_
  have hlow : ∀ k < 26, (0xFC00003F#32).getLsbD k = true → k < 6 := by decide
  have hlow := hlow k hk hm
  simp only [encode, formatR_getLsbD]
  repeat' split
  all_goals first | omega | simp

theorem ReservedBits.modinv (rd ra rm : RegIx) : ReservedBits.Statement (.modinv rd ra rm) := by
  refine reserved_clear _ _ fun k hk hm => ?_
  have hlow : ∀ k < 26, (0xFC003FFF#32).getLsbD k = true → k < 14 := by decide
  have hlow := hlow k hk hm
  simp only [encode, formatR_getLsbD]
  repeat' split
  all_goals first | omega | simp

theorem ReservedBits.bsize (rd rn : RegIx) : ReservedBits.Statement (.bsize rd rn) := by
  refine reserved_clear _ _ fun k hk hm => ?_
  have hlow : ∀ k < 26, (0xFC03FFFF#32).getLsbD k = true → k < 18 := by decide
  have hlow := hlow k hk hm
  simp only [encode, formatR_getLsbD]
  repeat' split
  all_goals first | omega | simp

theorem ReservedBits.bsplit (rd rn : RegIx) : ReservedBits.Statement (.bsplit rd rn) := by
  refine reserved_clear _ _ fun k hk hm => ?_
  have hlow : ∀ k < 26, (0xFC03FFFF#32).getLsbD k = true → k < 18 := by decide
  have hlow := hlow k hk hm
  simp only [encode, formatR_getLsbD]
  repeat' split
  all_goals first | omega | simp

theorem ReservedBits.bjoin (rs : RegIx) : ReservedBits.Statement (.bjoin rs) := by
  refine reserved_clear _ _ fun k hk hm => ?_
  have hlow : ∀ k < 26, (0xFFC3FFFF#32).getLsbD k = true → k < 18 ∨ (22 ≤ k ∧ k < 26) := by decide
  have hlow := hlow k hk hm
  simp only [encode, formatR_getLsbD]
  repeat' split
  all_goals first | omega | simp

theorem ReservedBits.utf8chk : ReservedBits.Statement .utf8chk := by
  refine reserved_clear _ _ fun k hk hm => ?_
  have hlow : ∀ k < 26, (0xFFFFFFFF#32).getLsbD k = true → k < 26 := by decide
  have hlow := hlow k hk hm
  simp only [encode, formatR_getLsbD]
  repeat' split
  all_goals first | omega | simp

end Sys2Proof.Laws
end

