-- ==== Sys2Proof/Tests/Slice0.lean ====
section
/-! SUPPORT. Tests: ill-formed terms, words written out from the encoding tables, single steps on small states with the
results of spec/95_test_vectors.md, and for each statement with hypotheses states and operands that meet them. -/

namespace Sys2Proof.Tests

open Sys2Proof Sys2Proof.Machine

/-! ### Helpers -/

/-- A small legal block: 64-bit registers, 16-byte buffers, at a base of its own. -/
def toy : State :=
  { State.reset with params := { opw := 64, msgCap := 16, outCap := 16, mrtBase := 0x20000 } }

/-- Write registers. -/
def load (l : List (RegIx × Nat)) (s : State) : State := l.foldl (fun t p => t.setReg p.1 p.2) s

/-- What to look at in the next state of an outcome. -/
def see {α : Type} (f : State → α) : Result → Option α
  | .next t => some (f t)
  | .fault _ => none
  | .refused _ => none

/-- A register and the STATUS word. -/
def regStatus (i : RegIx) (t : State) : Nat × Word := (t.reg i, t.status.toWord)

/-- A message in MSGBUF, with its length and the pointer. -/
def message (bs : List Byte) (ptr : Nat) (s : State) : State :=
  { s with msgBuf := s.msgBuf.storeAll 0 bs, msgLen := bs.length, msgPtr := ptr }

/-- An output in OUTBUF, with its length. -/
def output (bs : List Byte) (s : State) : State :=
  { s with outBuf := s.outBuf.storeAll 0 bs, outLen := bs.length }

/-- The outcome of the engine's turn on a word just issued. -/
def runWord (w : Word) (s : State) : Result := step (s.issue w)

/-- The state after one host access. -/
def host (i : Input) (s : State) : Result := step { s with inputs := [i] }

/-- A full-word host write at an offset of `toy`'s block. -/
def put (off : Nat) (data : Word) : Input := .write (0x20000 + off) 0xF#4 data

/-- A full-word host read at an offset of `toy`'s block. -/
def get (off : Nat) : Input := .read (0x20000 + off) 0xF#4

/-- The error code a word leaves. -/
def code (w : Word) (s : State) : Option (Bool × ErrCode) := see (fun t => (t.status.err, t.status.errCode)) (runWord w s)

/-! ### Ill-formed terms (30_encoding.md R100) -/

theorem test_wf_refuses_xgcd_g_is_x : (Instr.xgcd 8 8 9 1 6).wellFormed = false := by decide
theorem test_wf_refuses_xgcd_g_is_y : (Instr.xgcd 8 9 8 1 6).wellFormed = false := by decide
theorem test_wf_refuses_xgcd_x_is_y : (Instr.xgcd 8 9 9 1 6).wellFormed = false := by decide
theorem test_wf_refuses_mrdecomp : (Instr.mrdecomp 1 1 1).wellFormed = false := by decide
theorem test_wf_accepts_destination_as_source : (Instr.xgcd 1 2 3 1 2).wellFormed = true := by decide

/-! ### Decoding (95_test_vectors.md V-EN1 to V-EN22, V-IL1 to V-IL8) -/

theorem test_decode_nop : decode 0x00000000#32 = .ok .nop := by decide
theorem test_decode_mov : decode 0x04C80000#32 = .ok (.mov 3 2) := by decide
theorem test_decode_ldi : decode 0x083FFFFF#32 = .ok (.ldi 0 4194303#22) := by decide
theorem test_decode_ldi_clr : decode 0x0BC00000#32 = .ok (.ldi 15 0#22) := by decide
theorem test_decode_mrtest : decode 0x2184003F#32 = .ok (.mrtest 6 1 63) := by decide
theorem test_decode_mrtest_zero : decode 0x21840000#32 = .ok (.mrtest 6 1 0) := by decide
theorem test_decode_mrround : decode 0x25448000#32 = .ok (.mrround 5 1 2) := by decide
theorem test_decode_mrdecomp : decode 0x2848C000#32 = .ok (.mrdecomp 1 2 3) := by decide
theorem test_decode_modexp : decode 0x41948400#32 = .ok (.modexp 6 5 2 1 .binary) := by decide
theorem test_decode_modexp_ladder : decode 0x4048D001#32 = .ok (.modexp 1 2 3 4 .ladder) := by decide
theorem test_decode_gcd : decode 0x4550C000#32 = .ok (.gcd 5 4 3) := by decide
theorem test_decode_xgcd : decode 0x4BFB72C0#32 = .ok (.xgcd 15 14 13 12 11) := by decide
theorem test_decode_modinv : decode 0x4D90C000#32 = .ok (.modinv 6 4 3) := by decide
theorem test_decode_bsize : decode 0x61040000#32 = .ok (.bsize 4 1) := by decide
theorem test_decode_bsplit : decode 0x65440000#32 = .ok (.bsplit 5 1) := by decide
theorem test_decode_bjoin : decode 0x681C0000#32 = .ok (.bjoin 7) := by decide
theorem test_decode_utf8chk : decode 0x6C000000#32 = .ok .utf8chk := by decide

theorem test_decode_illegal :
    decode 0x0C000000#32 = .error .unassignedOpcode ∧ decode 0xFC000000#32 = .error .unassignedOpcode ∧
    decode 0x00000001#32 = .error .reservedBits ∧ decode 0x40000002#32 = .error .reservedBits ∧
    decode 0x20444000#32 = .error .reservedBits ∧ decode 0x68400000#32 = .error .reservedBits := by decide

theorem test_table_word : decodeTableWord 32 0x4048D001 = some (.modexp 1 2 3 4 .ladder) := by decide
theorem test_table_word_illegal : decodeTableWord 32 0x0C000000 = none := by decide

theorem test_illegal_words_complete :
    code 0x0C000000#32 toy = some (true, .illegal) ∧ code 0x40000002#32 toy = some (true, .illegal) ∧
    code 0x4A224580#32 toy = some (true, .illegal) ∧ code 0x28444000#32 toy = some (true, .illegal) := by decide

/-- 95_test_vectors.md P4 step 18: IMM6 = 1 is legal, and `m = 0` is OPERAND. -/
theorem test_ladder_word_is_legal : code 0x40C44801#32 (load [(1, 7), (2, 0)] toy) = some (true, .operand) := by decide

theorem test_first_step_after_reset :
    see (regStatus 0) (step (State.reset.withFetchWord 32 0x083FFFFF)) = some (4194303, 0x0002#32) := by decide

/-! ### Single commands -/

/-- V-MV1. -/
theorem test_nop : see (fun t => (t.status.toWord, t.cmdCnt)) (runWord 0#32 toy) = some (0x0002#32, 1#32) := by decide
/-- V-MV2 and V-MV3. -/
theorem test_mov : see (regStatus 3) (exec (.mov 3 2) (load [(2, 65537)] toy)) = some (65537, 0x0002#32) := by decide
theorem test_mov_unwritten : see (regStatus 3) (exec (.mov 3 3) toy) = some (0, 0x0206#32) := by decide
/-- V-MV5. -/
theorem test_ldi_zero : see (regStatus 15) (exec (.ldi 15 0#22) toy) = some (0, 0x0022#32) := by decide
/-- V-MR43: 91 fails at its third draw, and the draws after it stay. -/
theorem test_mrtest_fails :
    see (fun t => (t.reg 6, t.status.toWord, t.witness))
      (exec (.mrtest 6 1 10) (load [(1, 91)] { toy with witness := [9, 10, 2, 12] })) =
      some (0, 0x0022#32, [12]) := by decide
/-- V-MR44 and V-MR51: liars, and no round at all. -/
theorem test_mrtest_composite_passes :
    see (regStatus 6) (exec (.mrtest 6 1 3) (load [(1, 91)] { toy with witness := [9, 10, 12] })) = some (1, 0x0052#32) ∧
    see (regStatus 6) (exec (.mrtest 6 1 0) (load [(1, 99)] toy)) = some (1, 0x0052#32) := by decide
/-- V-MR28, V-MR26. -/
theorem test_mrround_squares :
    see (regStatus 5) (exec (.mrround 5 1 2) (load [(1, 25), (2, 7)] toy)) = some (1, 0x0052#32) ∧
    see (regStatus 5) (exec (.mrround 5 1 2) (load [(1, 9), (2, 2)] toy)) = some (0, 0x0022#32) := by decide
/-- V-MR37, V-MR39: `n - 1` is no base, and an even `n` asks for none. -/
theorem test_mrround_bases :
    see (regStatus 5) (exec (.mrround 5 1 2) (load [(1, 9), (2, 8)] toy)) = some (0, 0x0306#32) ∧
    see (regStatus 5) (exec (.mrround 5 1 2) (load [(1, 4), (2, 999)] toy)) = some (0, 0x0022#32) := by decide
/-- V-MR8, V-MR3. -/
theorem test_mrdecomp :
    see (fun t => (t.reg 1, t.reg 2, t.status.toWord)) (exec (.mrdecomp 1 2 3) (load [(3, 97)] toy)) =
      some (3, 5, 0x0002#32) ∧
    see (fun t => (t.reg 1, t.reg 2, t.status.toWord)) (exec (.mrdecomp 1 2 3) (load [(3, 2)] toy)) =
      some (1, 0, 0x0042#32) := by decide
/-- V-ME1, by both methods. -/
theorem test_modexp :
    see (regStatus 1) (exec (.modexp 1 2 3 4 .binary) (load [(2, 4), (3, 13), (4, 497)] toy)) = some (445, 0x0002#32) ∧
    see (regStatus 1) (exec (.modexp 1 2 3 4 .ladder) (load [(2, 4), (3, 13), (4, 497)] toy)) = some (445, 0x0002#32) :=
  by decide
/-- V-ME13, V-ME10: the modulus 1, and 0 to the 0. -/
theorem test_modexp_corners :
    see (regStatus 1) (exec (.modexp 1 2 3 4 .ladder) (load [(2, 5), (3, 0), (4, 1)] toy)) = some (0, 0x0022#32) ∧
    see (regStatus 1) (exec (.modexp 1 2 3 4 .binary) (load [(2, 0), (3, 0), (4, 7)] toy)) = some (1, 0x0042#32) := by
  decide
/-- V-GC5, V-GC1. -/
theorem test_gcd :
    see (regStatus 5) (exec (.gcd 5 4 3) (load [(4, 1071), (3, 462)] toy)) = some (21, 0x0002#32) ∧
    see (regStatus 5) (exec (.gcd 5 4 3) (load [(4, 0), (3, 0)] toy)) = some (0, 0x0022#32) := by decide
/-- V-XG1 at OPW = 64: `tw(-9)` is `2^64 - 9`. -/
theorem test_xgcd :
    see (fun t => (t.reg 7, t.reg 8, t.reg 9)) (exec (.xgcd 7 8 9 4 3) (load [(4, 240), (3, 46)] toy)) =
      some (2, 18446744073709551607, 47) := by decide
/-- V-XG11: the base case. -/
theorem test_xgcd_base :
    see (fun t => (t.reg 7, t.reg 8, t.reg 9)) (exec (.xgcd 7 8 9 4 3) (load [(4, 7), (3, 0)] toy)) =
      some (7, 1, 0) := by decide
/-- V-MI3, V-MI8. -/
theorem test_modinv :
    see (regStatus 6) (exec (.modinv 6 4 3) (load [(4, 3), (3, 7)] toy)) = some (5, 0x0002#32) ∧
    see (regStatus 6) (exec (.modinv 6 4 3) (load [(4, 5), (3, 1)] toy)) = some (0, 0x0022#32) := by decide
/-- V-MI11, V-MI14. -/
theorem test_modinv_errors :
    see (regStatus 6) (exec (.modinv 6 4 3) (load [(4, 6), (3, 9)] toy)) = some (0, 0x1506#32) ∧
    see (regStatus 6) (exec (.modinv 6 4 3) (load [(4, 7), (3, 0)] toy)) = some (0, 0x0306#32) := by decide
/-- V-BS4, V-BS5, V-BS9. -/
theorem test_bsize :
    see (regStatus 4) (exec (.bsize 4 1) (load [(1, 255)] toy)) = some (0, 0x0022#32) ∧
    see (regStatus 4) (exec (.bsize 4 1) (load [(1, 256)] toy)) = some (1, 0x0042#32) ∧
    see (regStatus 4) (exec (.bsize 4 1) (load [(1, 65536)] toy)) = some (2, 0x0002#32) := by decide
/-- V-SP5, V-SP6: a full chunk and the short last one. -/
theorem test_bsplit :
    see (fun t => (t.reg 5, t.msgPtr, t.status.e))
      (exec (.bsplit 5 1) (load [(1, 65536)] (message [0x48, 0x45, 0x4C, 0x4C, 0x4F] 2 toy))) =
      some (19532, 4, false) ∧
    see (fun t => (t.reg 5, t.msgPtr, t.status.e))
      (exec (.bsplit 5 1) (load [(1, 65536)] (message [0x48, 0x45, 0x4C, 0x4C, 0x4F] 4 toy))) =
      some (79, 5, true) := by decide
/-- V-SP11, V-SP13: the order of the checks. -/
theorem test_bsplit_errors :
    see (regStatus 5) (exec (.bsplit 5 1) (load [(1, 5)] toy)) = some (0, 0x2106#32) ∧
    see (regStatus 5) (exec (.bsplit 5 1) (load [(1, 3233)] toy)) = some (0, 0x1006#32) := by decide
/-- V-BJ3, V-BJ1. -/
theorem test_bjoin :
    see (fun t => (t.outBuf, t.outLen)) (exec (.bjoin 7) (load [(7, 0x4845)] (output [0x41] toy))) =
      some ([(0, 0x41), (1, 0x48), (2, 0x45)], 3) ∧
    see (fun t => (t.outBuf, t.outLen)) (exec (.bjoin 7) (load [(7, 0)] toy)) = some ([], 0) := by decide
/-- V-BJ6 at OUTCAP = 16. -/
theorem test_bjoin_outfull :
    see (fun t => (t.outLen, t.status.toWord)) (exec (.bjoin 7) (load [(7, 0x4845)] { toy with outLen := 15 })) =
      some (15, 0x2006#32) := by decide
/-- V-U5, V-U7, V-U11, V-U9. -/
theorem test_utf8_ok :
    utf8Valid [0xE2, 0x82, 0xAC] = true ∧ utf8Valid [0xED, 0x9F, 0xBF] = true ∧
    utf8Valid [0xF4, 0x8F, 0xBF, 0xBF] = true ∧ utf8Valid [0xF0, 0x90, 0x80, 0x80] = true := by decide
/-- V-U12 to V-U20, through the command for the lone 0xFF of P4 step 14. -/
theorem test_utf8_bad :
    utf8Valid [0xC0, 0x80] = false ∧ utf8Valid [0xE0, 0x80, 0x80] = false ∧ utf8Valid [0xF0, 0x8F, 0x80, 0x80] = false ∧
    utf8Valid [0xED, 0xA0, 0x80] = false ∧ utf8Valid [0xF4, 0x90, 0x80, 0x80] = false ∧ utf8Valid [0x80] = false ∧
    utf8Valid [0xE2, 0x82] = false ∧
    see (fun t => t.status.toWord) (exec .utf8chk (output [0xFF] toy)) = some 0x1306#32 := by decide

/-! ### The host bus (95_test_vectors.md V-H1 to V-H20) -/

/-- V-H3, V-H5: the window write zeroes a register that was not valid, and keeps the other words of one that is. -/
theorem test_window_write :
    see (fun t => (t.reg 3, t.valid)) (host (put 0x1004 1#32) { toy with rsel := 3 }) = some (2 ^ 32, 0x0008#16) ∧
    see (fun t => t.reg 3) (host (put 0x1000 5#32) (load [(3, 2 ^ 32)] { toy with rsel := 3 })) =
      some (2 ^ 32 + 5) := by decide
/-- V-H8: reserved, unaligned, beyond the window. -/
theorem test_bus_errors :
    see State.resp (host (get 0x34) toy) = some (some ⟨true, some 0#32⟩) ∧
    see State.resp (host (get 0x1002) toy) = some (some ⟨true, some 0#32⟩) ∧
    see State.resp (host (get 0x1008) toy) = some (some ⟨true, some 0#32⟩) := by decide
/-- V-H10: "HELL", lane 0 first. -/
theorem test_message_window :
    see (fun t => t.msgBuf) (host (put 0x4000 0x4C4C4548#32) toy) =
      some [(0, 0x48), (1, 0x45), (2, 0x4C), (3, 0x4C)] := by decide
/-- V-H11. -/
theorem test_msg_len_clamps : see (fun t => t.msgLen) (host (put 0x24 0xFFFFFFFF#32) toy) = some 16 := by decide
/-- 20_memory.md R69: OUTBUF is read through its window, lane 0 first; 10_state.md R45, R32: CTRL and OUT_LEN read as they are. -/
theorem test_idle_reads :
    see State.resp (host (get 0x8000) (output [0x48, 0x49, 0x4C, 0x4C] toy)) =
      some (some ⟨false, some 0x4C4C4948#32⟩) ∧
    see State.resp (host (get 0x10) { toy with ie := true }) = some (some ⟨false, some 1#32⟩) ∧
    see State.resp (host (get 0x2C) (output [0x48, 0x49] toy)) = some (some ⟨false, some 2#32⟩) := by decide
/-- V-H16: BUSY writes of CMD and RSEL. -/
theorem test_busy_writes :
    see (fun t => (t.lastCmd, t.status.ovr)) (host (put 0x18 0#32) (toy.issue 0x6C000000#32)) =
      some (0x6C000000#32, true) ∧
    see (fun t => (t.rsel, t.status.ovr)) (host (put 0x20 5#32) (toy.issue 0x6C000000#32)) = some (0, true) := by decide
/-- V-H20. -/
theorem test_reset_while_busy :
    see (fun t => (t.status.toWord, t.cmdCnt, t.valid, t.rst))
      (host (.rst true) (load [(1, 7)] { toy with cmdCnt := 4#32 } |>.issue 0x4048D000#32)) =
      some (0#32, 0#32, 0#16, true) := by decide

/-! ### States that meet the hypotheses of the statements

Each theorem `witness_<Name>_<clause>` shows a concrete state and operands that meet the hypotheses of that clause of
`Obligations.<Name>` together. A statement with no hypothesis has none. -/

/-- The toy key of 95_test_vectors.md P2: n = 61·53 in r1, e in r2, d in r3, a block in r5. -/
def key : State := load [(1, 3233), (2, 17), (3, 2753), (5, 72)] toy

/-- A pending UTF8CHK on two bytes of output. -/
def pending : State := (output [0x48, 0x49] toy).issue 0x6C000000#32

/-- `rst` = 1, the reset state held. -/
def held : State := toy.assertReset

theorem witness_EncodeDecodeRoundTrip : decode 0x4048D001#32 = .ok (.modexp 1 2 3 4 .ladder) := by decide

theorem witness_DecodeFollowsOpcodeTable :
    decode 0x083FFFFF#32 = .ok (.ldi 0 4194303#22) ∧
    (0x08000000#32, 0xFC000000#32) ∈ Spec.opcodeTable ∧ 0x083FFFFF#32 &&& 0xFC000000#32 = 0x08000000#32 := by decide

theorem witness_UnmatchedWordsAreIllegal_pending :
    (toy.issue 0x0C000000#32).inputs = [] ∧ (toy.issue 0x0C000000#32).rst = false ∧
    (toy.issue 0x0C000000#32).status.busy = true ∧
    ∀ row ∈ Spec.opcodeTable, (toy.issue 0x0C000000#32).lastCmd &&& row.2 ≠ row.1 := by
  refine ⟨rfl, rfl, rfl, ?_⟩
  rw [show (toy.issue 0x0C000000#32).lastCmd = 0x0C000000#32 from rfl]
  simp [Spec.opcodeTable]

theorem witness_UnmatchedWordsAreIllegal_opcodes :
    Spec.Unassigned ((0x0C000000#32).toNat / 2 ^ 26) ∧
    Spec.Unassigned ((0x1FFFFFFF#32).toNat / 2 ^ 26) ∧ Spec.Unassigned ((0x2C000000#32).toNat / 2 ^ 26) ∧
    Spec.Unassigned ((0x5FFFFFFF#32).toNat / 2 ^ 26) ∧ Spec.Unassigned ((0xFFFFFFFF#32).toNat / 2 ^ 26) := by
  simp only [Spec.Unassigned]; decide

theorem witness_UnmatchedWordsAreIllegal_modexp : 2 ≤ 2 ∧ 2 < 64 ∧ 2 ≤ 63 ∧ 63 < 64 := by decide

theorem witness_OnlyEqualDestinationsAreIllegal_fields :
    (∃ rg rx ry : RegIx, rg = rx ∨ rg = ry ∨ rx = ry) ∧ ¬ (∀ rg rx ry : RegIx, rg = rx ∨ rg = ry ∨ rx = ry) :=
  ⟨⟨0, 0, 1, by decide⟩, fun h => absurd (h 0 1 2) (by decide)⟩

theorem witness_OnlyEqualDestinationsAreIllegal_run :
    ∃ t, exec (.xgcd 1 2 3 1 2) (key.issue 0x4848C080#32) = .next t ∧
      (Instr.xgcd 1 2 3 1 2).wellFormed = true ∧ (key.issue 0x4848C080#32).status.busy = true ∧
      (key.issue 0x4848C080#32).status.errCode = .noError := ⟨_, rfl, by decide, by decide, by decide⟩

theorem witness_StepRunsPendingCommand_idle :
    pending.rst = false ∧ pending.status.busy = true ∧ decode pending.lastCmd = .ok .utf8chk ∧ pending.inputs = [] := by
  decide

theorem witness_StepRunsPendingCommand_turn :
    ({ pending with inputs := [.engine, .read 0 0xF#4] }).inputs = .engine :: [.read 0 0xF#4] ∧
    ({ pending with inputs := [.engine, .read 0 0xF#4] }).rst = false ∧
    ({ pending with inputs := [.engine, .read 0 0xF#4] }).status.busy = true ∧
    decode ({ pending with inputs := [.engine, .read 0 0xF#4] }).lastCmd = .ok .utf8chk := by decide

theorem witness_PlacedWordRunsNext :
    0x4048D001 < 2 ^ 32 ∧ decode (BitVec.ofNat 32 0x4048D001) = .ok (.modexp 1 2 3 4 .ladder) := by decide

theorem witness_IdleRestsUntilCommand :
    toy.status.busy = false ∧ toy.inputs = [] ∧
    ∃ t, step { toy with inputs := [put 0x18 0x6C000000#32] } = .next t ∧ t.status.busy = true :=
  ⟨rfl, rfl, _, rfl, by decide⟩

theorem witness_NopOnlyCompletes :
    (0x00000001#32).toNat / 2 ^ 26 = 0 ∧ 0x00000001#32 ≠ 0x00000000#32 ∧
    (0x03FFFFFF#32).toNat / 2 ^ 26 = 0 ∧ 0x03FFFFFF#32 ≠ 0x00000000#32 ∧
    (toy.issue 1#32).inputs = [] ∧ (toy.issue 1#32).rst = false ∧ (toy.issue 1#32).status.busy = true ∧
    (toy.issue 1#32).lastCmd.toNat / 2 ^ 26 = 0 ∧ (toy.issue 1#32).lastCmd ≠ 0x00000000#32 := by decide

theorem witness_MovCopiesRegister : ¬ Spec.Valid key 0 ∧ Spec.Valid key 5 := by simp only [Spec.Valid]; decide

theorem witness_LdiLoadsImmediate : 0 < 2 ^ 22 ∧ 4194303 < 2 ^ 22 := by decide

/-- The strong-pass criterion holds of 97 and 2: 97 - 1 = 3·2^5 and 2^24 is -1 (V-MR10). -/
theorem strong_97_2 : Spec.StrongPass 97 2 := ⟨3, 5, by decide, by decide, .inr ⟨3, by decide, by decide⟩⟩

/-- The strong-pass criterion holds of 97 and 3 (V-MR11). -/
theorem strong_97_3 : Spec.StrongPass 97 3 := ⟨3, 5, by decide, by decide, .inr ⟨3, by decide, by decide⟩⟩

/-- The strong-pass criterion holds of the strong liar 9 for 91 (V-MR22). -/
theorem strong_91_9 : Spec.StrongPass 91 9 := ⟨45, 1, by decide, by decide, .inl (by decide)⟩

/-- 2 is a witness for 91: 91 - 1 = 45·2 is the only split (V-MR21). -/
theorem not_strong_91_2 : ¬ Spec.StrongPass 91 2 := by
  rintro ⟨d, r, hd, hn, h⟩
  have hr : r = 1 := by
    rcases r with _ | _ | r
    · omega
    · rfl
    · rw [show d * 2 ^ (r + 1 + 1) = 4 * (d * 2 ^ r) by ring] at hn; omega
  subst hr
  obtain rfl : d = 45 := by omega
  rcases h with h | ⟨j, hj, h⟩
  · exact absurd h (by decide)
  · obtain rfl : j = 0 := by omega
    exact absurd h (by decide)

theorem witness_MrtestResultFromDraws_smallCase :
    ¬ Spec.Valid toy 1 ∧ Spec.Valid (load [(1, 1)] toy) 1 ∧ (load [(1, 1)] toy).x[1] < 2 ∧
    Spec.Valid (load [(1, 4)] toy) 1 ∧ 4 ≤ (load [(1, 4)] toy).x[1] ∧ (load [(1, 4)] toy).x[1] % 2 = 0 ∧
    Spec.Valid (load [(1, 3)] toy) 1 ∧ (load [(1, 3)] toy).x[1] = 3 := by simp only [Spec.Valid]; decide

/-- Two rounds on 97 that both pass, with a base left over. -/
def twoDraws : State := load [(1, 97)] { toy with witness := [2, 3, 95] }

theorem witness_MrtestResultFromDraws_pass :
    Spec.Valid twoDraws 1 ∧ 5 ≤ twoDraws.x[1] ∧ twoDraws.x[1] % 2 = 1 ∧ twoDraws.witness = [2, 3] ++ [95] ∧
    [2, 3].length = (2 : Fin 64).val ∧ ∀ a ∈ [2, 3], Spec.InContract twoDraws.x[1] a ∧ Spec.StrongPass twoDraws.x[1] a := by
  refine ⟨by simp only [Spec.Valid]; decide, by decide, by decide, by decide, by decide, ?_⟩
  intro a ha
  have h97 : twoDraws.x[1] = 97 := by decide
  simp only [List.mem_cons, List.not_mem_nil, or_false] at ha
  rcases ha with rfl | rfl <;> rw [h97]
  · exact ⟨by simp only [Spec.InContract]; decide, strong_97_2⟩
  · exact ⟨by simp only [Spec.InContract]; decide, strong_97_3⟩

/-- 91 with a liar, a witness and another base delivered. -/
def liarThenWitness : State := load [(1, 91)] { toy with witness := [9, 2, 12] }

theorem witness_MrtestResultFromDraws_fail :
    Spec.Valid liarThenWitness 1 ∧ 5 ≤ liarThenWitness.x[1] ∧ liarThenWitness.x[1] % 2 = 1 ∧
    liarThenWitness.witness = [9] ++ 2 :: [12] ∧ [9].length < (63 : Fin 64).val ∧
    (∀ c ∈ [9], Spec.InContract liarThenWitness.x[1] c ∧ Spec.StrongPass liarThenWitness.x[1] c) ∧
    Spec.InContract liarThenWitness.x[1] 2 ∧ ¬ Spec.StrongPass liarThenWitness.x[1] 2 := by
  have h91 : liarThenWitness.x[1] = 91 := by decide
  refine ⟨by simp only [Spec.Valid]; decide, by decide, by decide, by decide, by decide, ?_, ?_, ?_⟩
  · intro c hc
    obtain rfl : c = 9 := by simpa using hc
    rw [h91]; exact ⟨by simp only [Spec.InContract]; decide, strong_91_9⟩
  · simp only [Spec.InContract]; decide
  · rw [h91]; exact not_strong_91_2

theorem witness_MrtestWaitsForWitness_short :
    Spec.Valid (load [(1, 91)] { toy with witness := [9] }) 1 ∧
    (load [(1, 91)] { toy with witness := [9] }).x[1] = 91 ∧
    (load [(1, 91)] { toy with witness := [9] }).witness.length < (2 : Fin 64).val ∧
    Spec.InContract 91 9 ∧ Spec.StrongPass 91 9 :=
  ⟨by simp only [Spec.Valid]; decide, by decide, by decide, by simp only [Spec.InContract]; decide, strong_91_9⟩

/-- The bases 1 and n - 1 lie just outside the contract. -/
theorem witness_MrtestWaitsForWitness_contract :
    (load [(1, 91)] { toy with witness := [9, 1] }).witness = [9] ++ 1 :: [] ∧ [9].length < (2 : Fin 64).val ∧
    (load [(1, 91)] { toy with witness := [9, 1] }).x[1] = 91 ∧
    Spec.InContract 91 9 ∧ Spec.StrongPass 91 9 ∧ ¬ Spec.InContract 91 1 ∧ ¬ Spec.InContract 91 90 :=
  ⟨by decide, by decide, by decide, by simp only [Spec.InContract]; decide, strong_91_9,
    by simp only [Spec.InContract]; decide, by simp only [Spec.InContract]; decide⟩

theorem witness_PrimePassesUnderEveryDraw :
    Spec.Valid twoDraws 1 ∧ Nat.Prime twoDraws.x[1] ∧ (∀ a ∈ twoDraws.witness, Spec.InContract twoDraws.x[1] a) ∧
    (2 : Fin 64).val ≤ twoDraws.witness.length := by
  refine ⟨by simp only [Spec.Valid]; decide, ?_, by simp only [Spec.InContract]; decide, by decide⟩
  rw [show twoDraws.x[1] = 97 by decide]; norm_num

theorem witness_MrtestIsRepeatedMrround :
    (1 : RegIx) ≠ 2 ∧ Spec.Valid liarThenWitness 1 ∧ 5 ≤ liarThenWitness.x[1] ∧ liarThenWitness.x[1] % 2 = 1 ∧
    liarThenWitness.witness = [9, 2] ++ [12] ∧ [9, 2].length = (2 : Fin 64).val ∧
    ∀ a ∈ [9, 2], Spec.InContract liarThenWitness.x[1] a := by
  simp only [Spec.Valid, Spec.InContract]; decide

theorem witness_MrroundDecidesOneBase :
    ¬ (Spec.Valid liarThenWitness 1 ∧ Spec.Valid liarThenWitness 2) ∧
    Spec.Valid (load [(1, 91), (2, 9)] toy) 1 ∧ Spec.Valid (load [(1, 91), (2, 9)] toy) 2 ∧
    (load [(1, 91), (2, 9)] toy).x[1] = 91 ∧ (load [(1, 91), (2, 9)] toy).x[2] = 9 ∧
    Spec.InContract 91 9 ∧ Spec.StrongPass 91 9 ∧ Spec.InContract 91 2 ∧ ¬ Spec.StrongPass 91 2 ∧
    ¬ Spec.InContract 91 1 ∧ Spec.InContract 91 89 ∧ ¬ Spec.InContract 91 90 :=
  ⟨by simp only [Spec.Valid]; decide, by simp only [Spec.Valid]; decide, by simp only [Spec.Valid]; decide,
    by decide, by decide, by simp only [Spec.InContract]; decide, strong_91_9,
    by simp only [Spec.InContract]; decide, not_strong_91_2, by simp only [Spec.InContract]; decide,
    by simp only [Spec.InContract]; decide, by simp only [Spec.InContract]; decide⟩

theorem witness_MrdecompSplitsPowerOfTwo :
    (1 : RegIx) ≠ 2 ∧ ¬ Spec.Valid toy 3 ∧ Spec.Valid (load [(3, 97)] toy) 3 ∧ 2 ≤ (load [(3, 97)] toy).x[3] ∧
    3 % 2 = 1 ∧ (load [(3, 97)] toy).x[3] - 1 = 3 * 2 ^ 5 ∧ (load [(3, 97)] toy).x[3] < 2 ^ toy.params.opw ∧
    Spec.Valid (load [(3, 1)] toy) 3 ∧ (load [(3, 1)] toy).x[3] ≤ 1 ∧
    2 ≤ (load [(3, 2)] toy).x[3] ∧ (load [(3, 2)] toy).x[3] - 1 = 1 * 2 ^ 0 := by simp only [Spec.Valid]; decide

theorem witness_ModexpComputesPower :
    ¬ (Spec.Valid key 5 ∧ Spec.Valid key 2 ∧ Spec.Valid key 4) ∧
    (Spec.Valid key 5 ∧ Spec.Valid key 2 ∧ Spec.Valid key 1 ∧ key.x[1] ≠ 0) ∧
    Spec.Valid (load [(1, 0)] key) 5 ∧ Spec.Valid (load [(1, 0)] key) 2 ∧ Spec.Valid (load [(1, 0)] key) 1 ∧
    (load [(1, 0)] key).x[1] = 0 := by simp only [Spec.Valid]; decide

theorem witness_GcdComputesGreatestCommonDivisor :
    ¬ (Spec.Valid key 1 ∧ Spec.Valid key 4) ∧ Spec.Valid key 1 ∧ Spec.Valid key 2 := by simp only [Spec.Valid]; decide

theorem witness_XgcdWritesBezoutPair :
    Spec.Bezout 7 3 1 1 (-2) ∧ (7 : RegIx) ≠ 8 ∧ (7 : RegIx) ≠ 9 ∧ (8 : RegIx) ≠ 9 ∧
    Spec.Valid (load [(4, 7), (3, 3)] toy) 4 ∧ Spec.Valid (load [(4, 7), (3, 3)] toy) 3 ∧
    (load [(4, 7), (3, 3)] toy).x[4] = 7 ∧ (load [(4, 7), (3, 3)] toy).x[3] = 3 ∧ ¬ Spec.Valid toy 4 :=
  ⟨.step 7 3 1 0 1 (by decide) (.step 3 1 1 1 0 (by decide) (.base 1)), by decide, by decide, by decide,
    by simp only [Spec.Valid]; decide, by simp only [Spec.Valid]; decide, by decide, by decide,
    by simp only [Spec.Valid]; decide⟩

theorem witness_BezoutCoefficientsFit_bound :
    64 ≤ 64 ∧ 7 < 2 ^ 64 ∧ 3 < 2 ^ 64 ∧ Spec.Bezout 7 3 1 1 (-2) :=
  ⟨by decide, by decide, by decide, .step 7 3 1 0 1 (by decide) (.step 3 1 1 1 0 (by decide) (.base 1))⟩

theorem witness_BezoutCoefficientsFit_registers :
    64 ≤ toy.params.opw ∧ (7 : RegIx) ≠ 8 ∧ (7 : RegIx) ≠ 9 ∧ (8 : RegIx) ≠ 9 ∧
    Spec.Valid (load [(4, 7), (3, 3)] toy) 4 ∧ Spec.Valid (load [(4, 7), (3, 3)] toy) 3 ∧
    (load [(4, 7), (3, 3)] toy).x[4] = 7 ∧ (load [(4, 7), (3, 3)] toy).x[3] = 3 ∧
    7 < 2 ^ (load [(4, 7), (3, 3)] toy).params.opw ∧ Spec.Bezout 7 3 1 1 (-2) :=
  ⟨by decide, by decide, by decide, by decide, by simp only [Spec.Valid]; decide, by simp only [Spec.Valid]; decide,
    by decide, by decide, by decide, .step 7 3 1 0 1 (by decide) (.step 3 1 1 1 0 (by decide) (.base 1))⟩

theorem witness_ModinvInvertsOrFails :
    ¬ (Spec.Valid toy 4 ∧ Spec.Valid toy 3) ∧
    Spec.Valid (load [(4, 7), (3, 3)] toy) 4 ∧ Spec.Valid (load [(4, 7), (3, 3)] toy) 3 ∧
    (load [(4, 7), (3, 3)] toy).x[4] = 7 ∧ (load [(4, 7), (3, 3)] toy).x[3] = 3 ∧ Spec.Bezout 7 3 1 1 (-2) ∧
    (load [(4, 6), (3, 9)] toy).x[3] ≠ 0 ∧
    Nat.gcd (load [(4, 6), (3, 9)] toy).x[4] (load [(4, 6), (3, 9)] toy).x[3] ≠ 1 ∧
    (load [(4, 7), (3, 0)] toy).x[3] = 0 :=
  ⟨by simp only [Spec.Valid]; decide, by simp only [Spec.Valid]; decide, by simp only [Spec.Valid]; decide,
    by decide, by decide, .step 7 3 1 0 1 (by decide) (.step 3 1 1 1 0 (by decide) (.base 1)), by decide,
    by decide, by decide⟩

theorem witness_ModinvWritesUniqueInverse :
    Spec.Valid (load [(4, 1), (3, 2)] toy) 4 ∧ Spec.Valid (load [(4, 1), (3, 2)] toy) 3 ∧
    1 < (load [(4, 1), (3, 2)] toy).x[3] ∧
    Nat.gcd (load [(4, 1), (3, 2)] toy).x[4] (load [(4, 1), (3, 2)] toy).x[3] = 1 := by
  simp only [Spec.Valid]; decide

theorem witness_BsizeWritesBlockSize :
    ¬ Spec.Valid toy 1 ∧ Spec.Valid (load [(1, 0)] toy) 1 ∧ (load [(1, 0)] toy).x[1] = 0 ∧
    Spec.Valid key 1 ∧ key.x[1] ≠ 0 ∧ key.x[1] < 2 ^ key.params.opw := by simp only [Spec.Valid]; decide

/-- A two-byte message under the toy modulus. -/
def hi : State := message [0x48, 0x49] 1 key

theorem bs_3233 : Spec.bs 3233 = 1 := by
  have h : Nat.size 3233 = 12 := by decide
  rw [Spec.bs, h]

theorem witness_BsplitTakesNextChunk_errors :
    ¬ Spec.Valid toy 1 ∧ Spec.Valid (load [(1, 0)] toy) 1 ∧ (load [(1, 0)] toy).x[1] = 0 ∧
    Spec.Valid (load [(1, 255)] toy) 1 ∧ (load [(1, 255)] toy).x[1] ≠ 0 ∧ Spec.bs (load [(1, 255)] toy).x[1] = 0 ∧
    Spec.Valid key 1 ∧ Spec.bs key.x[1] ≠ 0 ∧ key.msgLen = 0 := by
  simp only [Spec.Valid, Spec.bs]; decide

theorem witness_BsplitTakesNextChunk_chunk :
    Spec.Valid hi 1 ∧ Spec.bs hi.x[1] ≠ 0 ∧ hi.msgPtr < hi.msgLen ∧
    Spec.Valid { hi with msgPtr := 2 } 1 ∧ Spec.bs ({ hi with msgPtr := 2 } : State).x[1] ≠ 0 ∧
    ({ hi with msgPtr := 2 } : State).msgLen ≠ 0 ∧
    ({ hi with msgPtr := 2 } : State).msgLen ≤ ({ hi with msgPtr := 2 } : State).msgPtr := by
  simp only [Spec.Valid, Spec.bs]; decide

/-- A one-byte block fits when 15 of 16 bytes are used, and a two-byte block does not. -/
theorem witness_BjoinAppendsMinimalBytes :
    ¬ Spec.Valid toy 7 ∧
    Spec.Valid (load [(7, 72)] { toy with outLen := 15 }) 7 ∧
    (load [(7, 72)] { toy with outLen := 15 }).outLen + (Nat.size (load [(7, 72)] { toy with outLen := 15 }).x[7] + 7) / 8 ≤
      (load [(7, 72)] { toy with outLen := 15 }).params.outCap ∧
    Spec.Valid (load [(7, 256)] { toy with outLen := 15 }) 7 ∧
    (load [(7, 256)] { toy with outLen := 15 }).params.outCap <
      (load [(7, 256)] { toy with outLen := 15 }).outLen +
        (Nat.size (load [(7, 256)] { toy with outLen := 15 }).x[7] + 7) / 8 := by
  simp only [Spec.Valid]; decide

theorem witness_Utf8chkDecidesWellFormedness_ok :
    Spec.Utf8 (Spec.bytes (output [0xC3, 0xA9] toy) .out 0 (output [0xC3, 0xA9] toy).outLen) := by
  refine ⟨[[0xC3, 0xA9]], by decide, ?_⟩
  intro q hq
  obtain rfl : q = [0xC3, 0xA9] := by simpa using hq
  simp only [Spec.Utf8Sequence, Spec.In]; decide

theorem witness_Utf8chkDecidesWellFormedness_bad :
    ¬ Spec.Utf8 (Spec.bytes (output [0xFF] toy) .out 0 (output [0xFF] toy).outLen) := by
  rw [show Spec.bytes (output [0xFF] toy) .out 0 (output [0xFF] toy).outLen = [0xFF] by decide]
  rintro ⟨seqs, hf, hq⟩
  have hm : (0xFF : Byte) ∈ seqs.flatten := by rw [hf]; simp
  obtain ⟨q, hqs, hqm⟩ := List.mem_flatten.1 hm
  have hlen : q.length ≤ 1 := by
    have h : q.length ≤ seqs.flatten.length := by
      rw [List.length_flatten]
      exact List.single_le_sum (by simp) _ (List.mem_map_of_mem hqs)
    rwa [hf] at h
  have hs := hq q hqs
  match q, hlen, hqm, hs with
  | [a], _, hqm, hs =>
    obtain rfl : (0xFF : Byte) = a := by simpa using hqm
    simp only [Spec.Utf8Sequence, Spec.In] at hs
    exact absurd hs (by decide)

theorem witness_SplitThenJoinReturnsChunk :
    ∃ t u, exec (.bsplit 5 1) hi = .next t ∧ exec (.bjoin 5) t = .next u ∧ t.status.err = false ∧
      u.status.err = false ∧ hi.msgPtr < hi.msgLen ∧ hi.byteAt .msg hi.msgPtr ≠ 0 :=
  ⟨_, _, rfl, rfl, by decide, by decide, by decide, by decide⟩

theorem witness_ModexpTwiceReturnsBlock :
    ∃ t u, exec (.modexp 6 5 2 1 .binary) key = .next t ∧ exec (.modexp 7 6 3 1 .ladder) t = .next u ∧
      t.status.err = false ∧ u.status.err = false ∧ Nat.Prime 61 ∧ Nat.Prime 53 ∧ 61 ≠ 53 ∧ key.x[1] = 61 * 53 ∧
      key.x[2] * key.x[3] % ((61 - 1) * (53 - 1)) = 1 ∧ key.x[5] < 61 * 53 ∧ (6 : RegIx) ≠ 3 ∧ (6 : RegIx) ≠ 1 :=
  ⟨_, _, rfl, rfl, by decide, by decide, by norm_num, by norm_num, by decide, by decide, by decide, by decide,
    by decide, by decide⟩

/-- The register of the modulus is overwritten, and the second command still completes. -/
theorem witness_ModexpTwiceReturnsBlock_overwritten :
    ∃ t u, exec (.modexp 1 5 2 1 .binary) key = .next t ∧ exec (.modexp 7 1 3 1 .ladder) t = .next u ∧
      t.status.err = false ∧ u.status.err = false ∧ key.x[1] = 61 * 53 ∧ key.x[5] < 61 * 53 :=
  ⟨_, _, rfl, rfl, by decide, by decide, by decide, by decide⟩

/-- A state of the middle of a run, with a command pending. -/
def midRun : State := (message [0x48, 0x49] 1 (output [0x41] key)).issue 0x65440000#32

theorem midRun_inv : midRun.Inv where
  params := by decide
  regs := by decide
  msgBuf := by decide
  outBuf := by decide
  msgLen := by decide
  msgPtr := by decide
  outLen := by decide
  errCode := by decide
  raised := by decide
  busy := by decide
  held := fun h => absurd h (by decide)

theorem witness_StepKeepsInvariant : midRun.Inv ∧ ∃ t, step midRun = .next t ∧ t.status.e = true ∧ t.reg 5 = 73 :=
  ⟨midRun_inv, _, rfl, by decide, by decide⟩

theorem witness_ErrorsArePrecise :
    ∃ t, exec (.mov 1 0) midRun = .next t ∧ midRun.status.busy = true ∧ t.status.busy = false ∧ t.status.err = true :=
  ⟨_, rfl, by decide, by decide, by decide⟩

theorem witness_InvalidSourceIsUnwritten :
    (Instr.xgcd 1 2 3 1 0).wellFormed = true ∧ ∃ r ∈ (Instr.xgcd 1 2 3 1 0).sources, ¬ Spec.Valid key r :=
  ⟨by decide, 0, by decide, by simp only [Spec.Valid]; decide⟩

theorem witness_ReservedCodesNeverRaised :
    ∃ t, exec (.bsplit 5 1) midRun = .next t ∧ midRun.status.busy = true ∧ t.status.busy = false :=
  ⟨_, rfl, by decide, by decide⟩

theorem witness_OnlyDestinationsChange :
    ∃ t, exec (.xgcd 7 8 9 1 2) key = .next t ∧ (0 : RegIx) ∉ (Instr.xgcd 7 8 9 1 2).dests ∧ Spec.Valid key 1 ∧
      t.x[9] ≠ key.x[9] := ⟨_, rfl, by decide, by simp only [Spec.Valid]; decide, by decide⟩

theorem witness_CommandsLeaveTheRest :
    ∃ t, exec .utf8chk midRun = .next t ∧ (∀ rd rn, Instr.utf8chk ≠ .bsplit rd rn) ∧
      (∀ rs, Instr.utf8chk ≠ .bjoin rs) ∧ ¬ Spec.IsMrtest .utf8chk :=
  ⟨_, rfl, by intros; simp, by intros; simp, by simp [Spec.IsMrtest]⟩

theorem witness_FlagPOnlyFromPrimality :
    (∃ t, exec (.mov 4 5) midRun = .next t ∧ midRun.status.busy = true ∧ (∀ rd rn k, Instr.mov 4 5 ≠ .mrtest rd rn k) ∧
      ∀ rd rn ra, Instr.mov 4 5 ≠ .mrround rd rn ra) ∧
    ∃ t, exec (.mrround 4 1 2) midRun = .next t ∧ midRun.status.busy = true ∧
      ((∃ rn k, Instr.mrround 4 1 2 = .mrtest 4 rn k) ∨ ∃ rn ra, Instr.mrround 4 1 2 = .mrround 4 rn ra) ∧
      t.status.busy = false ∧ t.status.err = false :=
  ⟨⟨_, rfl, by decide, by intros; simp, by intros; simp⟩, _, rfl, by decide, .inr ⟨1, 2, rfl⟩, by decide, by decide⟩

theorem witness_FlagsZUFollowPrimary :
    (∃ t, exec (.mov 4 0) midRun = .next t ∧ midRun.status.busy = true ∧ t.status.err = true ∧ t.status.busy = false) ∧
    (∃ t, exec (.bsplit 4 1) { midRun with msgPtr := 2 } = .next t ∧ t.status.err = false ∧ t.status.busy = false ∧
      ({ midRun with msgPtr := 2 } : State).msgLen ≤ ({ midRun with msgPtr := 2 } : State).msgPtr) ∧
    ∃ t, exec (.bsplit 4 1) midRun = .next t ∧ (Instr.bsplit 4 1).dests = [4] ∧ t.status.busy = false ∧
      t.status.err = false ∧ midRun.msgPtr < midRun.msgLen :=
  ⟨⟨_, rfl, by decide, by decide, by decide⟩, ⟨_, rfl, by decide, by decide, by decide⟩, _, rfl, by decide, by decide,
    by decide, by decide⟩

theorem witness_FlagEOnlyFromBsplit :
    (∃ t, exec (.mov 4 5) midRun = .next t ∧ midRun.status.busy = true ∧ (∀ rd rn, Instr.mov 4 5 ≠ .bsplit rd rn) ∧
      t.status.busy = false) ∧
    ∃ t, exec (.bsplit 4 1) midRun = .next t ∧ t.status.err = false :=
  ⟨⟨_, rfl, by decide, by intros; simp, by decide⟩, _, rfl, by decide⟩

theorem witness_InvalidRegistersUnobservable :
    Spec.AgreeOnValid midRun { midRun with x := midRun.x.set 0 5 } ∧ midRun ≠ { midRun with x := midRun.x.set 0 5 } ∧
    (∃ t, step midRun = .next t) ∧
    step (load [(1, 91)] { toy with witness := [1] } |>.issue 0x2184000A#32) = .refused .witnessOutOfContract := by
  refine ⟨⟨rfl, ?_⟩, by decide, ⟨_, rfl⟩, rfl⟩
  simp only [Spec.Valid]; decide

theorem witness_PendingCommandCompletesInBound :
    ({ pending with inputs := [.witness 5, put 0x14 0#32] } : State).rst = false ∧
    ({ pending with inputs := [.witness 5, put 0x14 0#32] } : State).status.busy = true ∧
    (∀ rd rn k, decode pending.lastCmd ≠ .ok (.mrtest rd rn k)) ∧
    ∀ level, Input.rst level ∉ [.witness 5, put 0x14 0#32] := by
  have h : decode pending.lastCmd = .ok .utf8chk := by decide
  refine ⟨by decide, by decide, ?_, by decide⟩
  intro rd rn k hk
  rw [h] at hk
  cases hk

theorem witness_CmdWriteIssues :
    toy.rst = false ∧ toy.status.busy = false ∧ pending.rst = false ∧ pending.status.busy = true := by decide

theorem witness_BusyWritesOnlySetOvr :
    pending.rst = false ∧ pending.status.busy = true ∧
    (Spec.LegalOffset pending.params 0x18 ∧ 0x18 ∈ [0x18, 0x1C, 0x20, 0x24, 0x28, 0x2C]) ∧
    (Spec.LegalOffset pending.params 0x1004 ∧ 0x1000 ≤ 0x1004) ∧ Spec.LegalOffset pending.params 0x400C ∧
    Spec.LegalOffset pending.params 0x800C := by simp only [Spec.LegalOffset]; decide

theorem witness_BusyReads :
    pending.rst = false ∧ pending.status.busy = true ∧
    (Spec.LegalOffset pending.params 0x2C ∧ 0x2C ∈ [0x1C, 0x28, 0x2C]) ∧ Spec.LegalOffset pending.params 0x1004 ∧
    Spec.LegalOffset pending.params 0x30 ∧ 0x30 ∈ [0x00, 0x04, 0x08, 0x0C, 0x10, 0x14, 0x18, 0x20, 0x24, 0x30] := by
  simp only [Spec.LegalOffset]; decide

/-- Reserved, unaligned, beyond each window, the end of the block, and a partial access. -/
theorem witness_IllegalAccessesOnlyRespond :
    ¬ Spec.LegalOffset toy.params 0x34 ∧ ¬ Spec.LegalOffset toy.params 0x1002 ∧ ¬ Spec.LegalOffset toy.params 0x1008 ∧
    ¬ Spec.LegalOffset toy.params 0x4010 ∧ ¬ Spec.LegalOffset toy.params 0x8010 ∧ ¬ Spec.LegalOffset toy.params 0xFFFC ∧
    0xFFFC < 0x10000 ∧ ¬ (0x7#4 = 0xF#4 ∧ Spec.LegalOffset toy.params 0x1000) ∧
    ({ toy with inputs := [.read (0x20000 + 0x34) 0xF#4] } : State).inputs = .read (toy.params.mrtBase + 0x34) 0xF#4 :: [] ∧
    ({ toy with inputs := [.write (0x20000 + 0x1000) 0x7#4 0#32] } : State).inputs =
      .write (toy.params.mrtBase + 0x1000) 0x7#4 0#32 :: [] := by
  refine ⟨?_, ?_, ?_, ?_, ?_, ?_, by decide, ?_, by decide, by decide⟩ <;> simp only [Spec.LegalOffset] <;> decide

theorem witness_OperandWindowReadsBack :
    toy.params.Legal ∧ toy.rst = false ∧ toy.status.busy = false ∧ 1 < toy.params.opw / 32 ∧ 0 < toy.params.opw / 32 ∧
    (0 : Nat) ≠ 1 ∧ ¬ Spec.Valid toy toy.rsel ∧ Spec.Valid { key with rsel := 1 } 1 := by
  simp only [Spec.Valid]; decide

theorem witness_OperandWindowShowsRegister :
    key.params.Legal ∧ key.rst = false ∧ key.status.busy = false ∧ 1 < key.params.opw / 32 ∧ ¬ Spec.Valid key key.rsel ∧
    Spec.Valid { key with rsel := 1 } ({ key with rsel := 1 } : State).rsel := by simp only [Spec.Valid]; decide

theorem witness_BufferWindowsReadBack :
    toy.params.Legal ∧ toy.rst = false ∧ toy.status.busy = false ∧ 3 < toy.params.msgCap / 4 ∧
    3 < toy.params.outCap / 4 := by decide

theorem witness_ControlRegisterWrites :
    midRun.rst = false ∧ midRun.status.busy = true ∧ key.rst = false ∧ key.status.busy = false := by decide

theorem witness_ReadOnlyRegisters : midRun.rst = false := by decide

theorem witness_StatusFieldsAndClear : midRun.rst = false := by decide

theorem witness_ValidWriteClearsBits :
    key.rst = false ∧ key.status.busy = false ∧ (0x00000002#32).getLsbD (5 : RegIx).val = false := by decide

theorem witness_ReadsHaveNoSideEffect :
    ({ pending with inputs := [get 0x1000] } : State).inputs = .read (0x20000 + 0x1000) 0xF#4 :: [] := by decide

theorem held_atReset : held.AtReset := by constructor <;> decide

theorem witness_ResetInputHoldsState :
    ({ midRun with inputs := [.rst true] } : State).inputs = .rst true :: [] ∧
    held.rst = true ∧ held.AtReset ∧ (∀ level rest, held.inputs ≠ .rst level :: rest) ∧ (∃ t, step held = .next t) ∧
    0x1000 < 0x10000 ∧ ({ held with inputs := [.rst false] } : State).AtReset ∧
    ({ held with inputs := [.rst false] } : State).rst = true := by
  refine ⟨rfl, by decide, held_atReset, ?_, ⟨_, rfl⟩, by decide, by constructor <;> decide, by decide⟩
  intro level rest h
  rw [show held.inputs = [] by decide] at h
  cases h

theorem witness_InterruptFollowsDone :
    (∃ t, exec (.mov 4 5) midRun = .next t ∧ midRun.status.busy = true ∧ t.status.busy = false) ∧
    toy.rst = false ∧ toy.status.busy = false ∧ (∃ t, step (Spec.writing toy 0x18 0#32) = .next t) ∧
    (0x00000002#32).getLsbD 1 = true ∧ (∃ t, step (Spec.writing toy 0x14 2#32) = .next t) ∧
    ∃ t, step (Spec.writing toy 0x10 1#32) = .next t :=
  ⟨⟨_, rfl, by decide, by decide⟩, by decide, by decide, ⟨_, rfl⟩, by decide, ⟨_, rfl⟩, _, rfl⟩

end Sys2Proof.Tests
end

section
/-! ### The invariant is kept (Safety.lean, `State.Inv`)

One lemma for each update of the state that a step makes, then one for each kind of step. -/

namespace Sys2Proof.Machine

/-! #### Updates outside the block's registers -/

theorem State.AtReset.outside {s : State} (h : s.AtReset) (inputs : List Input) (witness : List Nat)
    (resp : Option BusResp) (draws : Nat) :
    State.AtReset { s with inputs := inputs, witness := witness, resp := resp, draws := draws } :=
  { h with }

/-- What the outside world does next, its bases, the response and the counter of free values bear on no clause. -/
theorem State.Inv.outside {s : State} (h : s.Inv) (inputs : List Input) (witness : List Nat)
    (resp : Option BusResp) (draws : Nat) :
    State.Inv { s with inputs := inputs, witness := witness, resp := resp, draws := draws } :=
  { h with held := fun hr => (h.held hr).outside inputs witness resp draws }

theorem State.Inv.respond {s : State} (h : s.Inv) (error : Bool) (data : Option Word) : (s.respond error data).Inv :=
  h.outside s.inputs s.witness (some { error := error, data := data }) s.draws

theorem State.reset_atReset : State.reset.AtReset := by constructor <;> rfl

theorem State.assertReset_atReset (s : State) : s.assertReset.AtReset := by constructor <;> rfl

theorem State.reset_reg (i : RegIx) : State.reset.reg i = 0 := by simp [State.reg, State.reset]

/-- A state with the values of 10_state.md R49, legal parameters and 0 in every register meets the invariant. -/
theorem State.AtReset.inv {s : State} (h : s.AtReset) (hp : s.params.Legal) (hx : ∀ i, s.reg i = 0) : s.Inv where
  params := hp
  regs i := by rw [hx]; exact Nat.two_pow_pos _
  msgBuf := by rw [h.msgBuf]; exact ⟨rfl, rfl⟩
  outBuf := by rw [h.outBuf]; exact ⟨rfl, rfl⟩
  msgLen := by rw [h.msgLen]; exact Nat.zero_le _
  msgPtr := by rw [h.msgPtr]; exact Nat.zero_le _
  outLen := by rw [h.outLen]; exact Nat.zero_le _
  errCode := by rw [h.status]; decide
  raised := by rw [h.status]; decide
  busy := by rw [h.status]; decide
  held _ := h

/-- The clause on `rst` = 1 is met where `rst` = 0. -/
theorem held_of_running {s : State} (hr : s.rst = false) : s.rst = true → s.AtReset := by simp [hr]

theorem State.Inv.releaseReset {s : State} (h : s.Inv) : State.Inv { s with rst := false } :=
  { h with held := held_of_running rfl }

/-! #### The writes of a command -/

section Running

variable {s : State} (h : s.Inv) (hr : s.rst = false)
include h hr

theorem State.Inv.setRegs {x : Vector Nat 16} (hx : ∀ i : RegIx, x[i.val] < 2 ^ s.params.opw) (valid : BitVec 16)
    (draws : Nat) : State.Inv { s with x := x, valid := valid, draws := draws } :=
  { h with regs := hx, held := held_of_running hr }

theorem State.Inv.setReg (i : RegIx) {v : Nat} (hv : v < 2 ^ s.params.opw) : (s.setReg i v).Inv := by
  refine h.setRegs hr (fun j => ?_) _ s.draws
  rw [Vector.getElem_set]
  split
  · exact hv
  · exact h.regs j

/-- A write of VALID (10_state.md R26): a cleared register holds a free value of its width. -/
theorem State.Inv.clearValid (bits : BitVec 16) : (s.clearValid bits).Inv := by
  refine h.setRegs hr (fun i => ?_) _ _
  rw [Vector.getElem_ofFn]
  split
  · exact Nat.mod_lt _ (Nat.two_pow_pos _)
  · exact h.regs i

theorem State.Inv.writeStatus (data : Word) : State.Inv { s with status := s.status.writeOneToClear data } :=
  { h with
    busy := fun hb => ⟨by rw [Status.writeOneToClear, (h.busy hb).1, Bool.false_and], (h.busy hb).2⟩
    held := held_of_running hr }

theorem State.Inv.setZU (v : Nat) : (s.setZU v).Inv := { h with held := held_of_running hr }

theorem State.Inv.setP (b : Bool) : (s.setP b).Inv := { h with held := held_of_running hr }

theorem State.Inv.setE (b : Bool) : (s.setE b).Inv := { h with held := held_of_running hr }

theorem State.Inv.writePrimary (rd : RegIx) {v : Nat} (hv : v < 2 ^ s.params.opw) : (s.writePrimary rd v).Inv :=
  (h.setReg hr rd hv).setZU hr v

theorem State.Inv.writeVerdict (rd : RegIx) (pass : Bool) : (s.writeVerdict rd pass).Inv := by
  have hopw : s.params.opw ≠ 0 := by have := h.params.1.2.1; omega
  have hfit : pass.toNat < 2 ^ s.params.opw := lt_of_lt_of_le pass.toNat_lt (Nat.le_self_pow hopw 2)
  exact (h.writePrimary hr rd hfit).setP hr pass

theorem State.Inv.setOvr (b : Bool) : State.Inv { s with status := { s.status with ovr := b } } :=
  { h with held := held_of_running hr }

theorem State.Inv.setMsgPtr {p : Nat} (hp : p ≤ s.params.msgCap) : State.Inv { s with msgPtr := p } :=
  { h with msgPtr := hp, held := held_of_running hr }

theorem State.Inv.storeMsg {a : Nat} {bs : List Byte} (ha : a + bs.length ≤ s.params.msgCap) :
    State.Inv { s with msgBuf := s.msgBuf.storeAll a bs } :=
  { h with
    msgBuf := ⟨Memory.wf_storeAll _ _ _ h.msgBuf.1, Memory.below_storeAll _ _ _ _ h.msgBuf.2 ha⟩
    held := held_of_running hr }

theorem State.Inv.outWrite {a : Nat} {bs : List Byte} (ha : a + bs.length ≤ s.params.outCap) : (s.outWrite a bs).Inv :=
  { h with
    outBuf := ⟨Memory.wf_storeAll _ _ _ h.outBuf.1, Memory.below_storeAll _ _ _ _ h.outBuf.2 ha⟩
    held := held_of_running hr }

theorem State.Inv.setOutLen {n : Nat} (hn : n ≤ s.params.outCap) : State.Inv { s with outLen := n } :=
  { h with outLen := hn, held := held_of_running hr }

theorem State.Inv.succeed : s.succeed.Inv :=
  { h with
    errCode := by simp
    raised := by simp
    busy := by simp
    held := held_of_running hr }

theorem State.Inv.fail {e : ErrCode} (he : e ≠ .noError)
    (hres : e ≠ .keygen ∧ e ≠ .signature ∧ e ≠ .encryption) : (s.fail e).Inv :=
  { h with
    errCode := by simp [he]
    raised := hres
    busy := by simp
    held := held_of_running hr }

theorem State.Inv.issue (c : Word) : (s.issue c).Inv :=
  { h with
    errCode := by simp
    raised := by simp
    busy := by simp
    held := held_of_running hr }

end Running

/-! #### The values a command writes fit the registers -/

theorem decomp_fst_le (m : Nat) : (decomp m).1 ≤ m := by
  rw [decomp, Nat.shiftRight_eq_div_pow]
  exact Nat.div_le_self _ _

theorem ctzLoop_le (fuel v : Nat) : ctzLoop fuel v ≤ fuel := by
  induction fuel generalizing v with
  | zero => exact le_rfl
  | succ fuel ih =>
    rw [ctzLoop]
    split
    · exact Nat.zero_le _
    · exact Nat.succ_le_succ (ih _)

theorem decomp_snd_le (m : Nat) : (decomp m).2 ≤ bitlen m := ctzLoop_le _ _

theorem tw_lt (opw : Nat) (v : Int) : tw opw v < 2 ^ opw := by
  have hpos : (0 : Int) < ((2 ^ opw : Nat) : Int) := by exact_mod_cast Nat.two_pow_pos opw
  have hlt := Int.emod_lt_of_pos v hpos
  have hnonneg := Int.emod_nonneg v hpos.ne'
  unfold tw
  omega

theorem toNat_emod_lt (v : Int) {m : Nat} (hm : m ≠ 0) : (v % (m : Int)).toNat < m := by
  have hpos : (0 : Int) < m := by omega
  have hlt := Int.emod_lt_of_pos v hpos
  have hnonneg := Int.emod_nonneg v hpos.ne'
  omega

/-- A greatest common divisor is no wider than its arguments, both 0 among them. -/
theorem gcd_lt_two_pow {a b k : Nat} (ha : a < 2 ^ k) (hb : b < 2 ^ k) : Nat.gcd a b < 2 ^ k := by
  rcases Nat.eq_zero_or_pos a with rfl | hpos
  · simpa using hb
  · exact lt_of_le_of_lt (Nat.gcd_le_left b hpos) ha

theorem blockSize_le {n k : Nat} (hn : n < 2 ^ k) : blockSize n ≤ k := by
  have := (bitlen_le_iff n k).mpr hn
  unfold blockSize
  omega

/-- The writes of every command keep the invariant. -/
theorem Writes.inv {i : Instr} {s u : State} (hw : Writes i s u) (h : s.Inv) (hr : s.rst = false) : u.Inv := by
  have hopw : 64 ≤ s.params.opw := h.params.1.2.1
  have hself : s.params.opw < 2 ^ s.params.opw := Nat.lt_two_pow_self
  cases i with
  | nop => cases hw; exact h
  | mov rd rs => cases hw; exact h.writePrimary hr rd (h.regs rs)
  | ldi rd imm22 =>
    cases hw
    exact h.writePrimary hr rd (lt_of_lt_of_le imm22.isLt (Nat.pow_le_pow_right (by decide) (by omega)))
  | mrtest rd _ _ =>
    obtain ⟨pass, rest, rfl⟩ := hw
    exact (h.outside s.inputs rest s.resp s.draws).writeVerdict hr rd pass
  | mrround rd _ _ =>
    obtain ⟨pass, rfl⟩ := hw
    exact h.writeVerdict hr rd pass
  | mrdecomp rd rr rn =>
    obtain ⟨_, _, rfl⟩ := hw
    have hn : s.reg rn - 1 < 2 ^ s.params.opw := lt_of_le_of_lt (Nat.sub_le _ _) (h.regs rn)
    have hd := lt_of_le_of_lt (decomp_fst_le _) hn
    have hexp := (decomp_snd_le _).trans ((bitlen_le_iff _ _).mpr hn)
    exact (h.writePrimary hr rd hd).setReg hr rr (lt_of_le_of_lt hexp hself)
  | modexp rd rb re rm _ =>
    obtain ⟨hm, rfl⟩ := hw
    exact h.writePrimary hr rd ((Nat.mod_lt _ (Nat.pos_of_ne_zero hm)).trans (h.regs rm))
  | gcd rd ra rb => cases hw; exact h.writePrimary hr rd (gcd_lt_two_pow (h.regs ra) (h.regs rb))
  | xgcd rg rx ry ra rb =>
    obtain ⟨_, _, _, rfl⟩ := hw
    exact ((h.writePrimary hr rg (gcd_lt_two_pow (h.regs ra) (h.regs rb))).setReg hr rx (tw_lt _ _)).setReg hr ry
      (tw_lt _ _)
  | modinv rd ra rm =>
    obtain ⟨hm, rfl⟩ := hw
    exact h.writePrimary hr rd ((toNat_emod_lt _ hm).trans (h.regs rm))
  | bsize rd rn =>
    obtain ⟨_, rfl⟩ := hw
    exact h.writePrimary hr rd (lt_of_le_of_lt (blockSize_le (h.regs rn)) hself)
  | bsplit rd rn =>
    obtain ⟨_, rfl⟩ | ⟨hptr, hval, rfl⟩ := hw
    · exact h.setE hr true
    · have hlen : chunkLength (s.reg rn) s ≤ s.msgLen - s.msgPtr := Nat.min_le_right _ _
      have hcap := h.msgLen
      have hnext : s.msgPtr + chunkLength (s.reg rn) s ≤ s.params.msgCap := by omega
      exact ((h.setMsgPtr hr hnext).setE hr _).writePrimary hr rd (hval.trans (h.regs rn))
  | bjoin rs =>
    obtain ⟨hfit, rfl⟩ := hw
    exact (h.outWrite hr hfit).setOutLen hr hfit
  | utf8chk => cases hw; exact h

/-! #### The steps -/

theorem Raised.ne_noError {i : Instr} {e : ErrCode} (h : Raised i e) : e ≠ .noError := by rintro rfl; exact h

theorem Raised.not_reserved {i : Instr} {e : ErrCode} (h : Raised i e) :
    e ≠ .keygen ∧ e ≠ .signature ∧ e ≠ .encryption := by
  refine ⟨?_, ?_, ?_⟩ <;> rintro rfl <;> exact h

theorem State.Inv.exec {s t : State} (h : s.Inv) (hr : s.rst = false) {i : Instr} (ht : exec i s = .next t) :
    t.Inv := by
  obtain ⟨e, he, hx⟩ | ⟨u, hw, hx⟩ | ⟨_, hx | hx⟩ := exec_cases i s <;> cases hx.symm.trans ht
  · exact h.fail hr he.ne_noError he.not_reserved
  · exact (hw.inv h hr).succeed (hw.keepsRest.rst.trans hr)
  · exact h

theorem State.Inv.engineStep {s t : State} (h : s.Inv) (ht : engineStep s = .next t) : t.Inv := by
  unfold Machine.engineStep at ht
  split at ht
  · cases ht; exact h
  · rename_i hr
    rw [Bool.not_eq_true] at hr
    split at ht
    · split at ht
      · exact h.exec hr ht
      · cases ht; exact h.fail hr (by decide) (by decide)
    · cases ht; exact h

theorem State.Inv.writeReg {s : State} (h : s.Inv) (hr : s.rst = false) (data : Word) (r : CtrlReg) :
    (s.writeReg data r).Inv := by
  cases r with
  | id => exact h
  | cfgOpw => exact h
  | cfgMsgCap => exact h
  | cfgOutCap => exact h
  | ctrl => exact { h with held := held_of_running hr }
  | status => exact h.writeStatus hr data
  | cmd => exact h.issue hr data
  | valid => exact h.clearValid hr _
  | rsel => exact { h with held := held_of_running hr }
  | msgLen => exact { h with msgLen := Nat.min_le_right _ _, held := held_of_running hr }
  | msgPtr => exact h.setMsgPtr hr (Nat.min_le_right _ _)
  | outLen => exact h.setOutLen hr (Nat.min_le_right _ _)
  | cmdCnt => exact h

theorem State.Inv.writeTarget {s : State} (h : s.Inv) (hr : s.rst = false) {off : Nat} {lanes : BitVec 4} {t : Target}
    (ht : targetOf s.params off lanes = some t) (data : Word) : (s.writeTarget data t).Inv := by
  obtain ⟨hwin, hmsg, hout⟩ := targetOf_within _ _ _ _ ht
  cases t with
  | reg r => exact h.writeReg hr data r
  | window w =>
    refine h.setReg hr s.rsel (setWindowWord_lt _ _ _ _ ?_ (hwin w rfl) h.params.1.1)
    split
    · exact h.regs s.rsel
    · exact Nat.two_pow_pos _
  | msg w =>
    have := hmsg w rfl
    exact h.storeMsg hr (show 4 * w + 4 ≤ s.params.msgCap by omega)
  | out w =>
    have := hout w rfl
    exact h.outWrite hr (show 4 * w + 4 ≤ s.params.outCap by omega)

theorem State.Inv.hostWrite {s : State} (h : s.Inv) (addr : Nat) (lanes : BitVec 4) (data : Word) :
    (s.hostWrite addr lanes data).Inv := by
  obtain hx | hx | ⟨_, hx⟩ | ⟨hr, _, hx⟩ | ⟨_, _, hr, _, ht, _, hx⟩ := s.hostWrite_cases addr lanes data <;> rw [hx]
  · exact h
  · exact h.respond _ _
  · exact h.respond _ _
  · exact (h.setOvr hr true).respond _ _
  · exact (h.writeTarget hr ht data).respond _ _

theorem State.Inv.hostRead {s : State} (h : s.Inv) (addr : Nat) (lanes : BitVec 4) : (s.hostRead addr lanes).Inv := by
  obtain hx | ⟨_, _, draws, hx⟩ := s.hostRead_cases addr lanes <;> rw [hx]
  · exact h
  · exact h.outside s.inputs s.witness _ draws

theorem State.Inv.handleInput {s t : State} (h : s.Inv) {i : Input} (ht : handleInput i s = .next t) : t.Inv := by
  cases i with
  | write addr lanes data => cases ht; exact h.hostWrite addr lanes data
  | read addr lanes => cases ht; exact h.hostRead addr lanes
  | witness base => cases ht; exact h.outside s.inputs (s.witness ++ [base]) s.resp s.draws
  | rst level =>
    cases ht
    cases level with
    | false => exact h.releaseReset
    | true => exact s.assertReset_atReset.inv h.params State.reset_reg
  | engine => exact h.engineStep ht

/-- A step is the engine's turn, or an input handled by the state it was taken from. -/
theorem step_cases (s : State) :
    (s.inputs = [] ∧ step s = engineStep s) ∨
      ∃ i rest, s.inputs = i :: rest ∧ step s = handleInput i { s with inputs := rest } := by
  unfold step
  split
  · exact .inl ⟨by assumption, rfl⟩
  · exact .inr ⟨_, _, by assumption, rfl⟩

/-- Settles O33: each update a step is made of keeps `State.Inv`. -/
theorem stepKeepsInvariant : Obligations.StepKeepsInvariant := by
  intro s t h ht
  obtain ⟨_, hx⟩ | ⟨_, rest, _, hx⟩ := step_cases s <;> rw [hx] at ht
  · exact h.engineStep ht
  · exact (h.outside rest s.witness s.resp s.draws).handleInput ht

/-- Settles O34: the reset state has the values of 10_state.md R49. -/
theorem resetMeetsInvariant : Obligations.ResetMeetsInvariant :=
  State.reset_atReset.inv (by decide) State.reset_reg

/-- Settles O58, from the values of `State.reset`. -/
theorem resetValues : Obligations.ResetValues :=
  ⟨State.reset_atReset, rfl, rfl, rfl, rfl, by decide⟩

end Sys2Proof.Machine
end

section
/-! ### What an invalid register holds is not observed (10_state.md R26)

The two states of `Spec.AgreeOnValid` differ by their register file only, so every part of the model that reads no
register computes the same on both by unfolding; what is left to prove is that a register is read through `src` or
through the operand window, and both look at its valid bit first. -/

namespace Sys2Proof.Machine

/-- Outcomes that are the same but for registers that are invalid in the next states. -/
inductive SameOutcome : Result → Result → Prop where
  | next {t t' : State} (h : Spec.AgreeOnValid t t') : SameOutcome (.next t) (.next t')
  | refused (r : Refusal) : SameOutcome (.refused r) (.refused r)

theorem SameOutcome.next_inv {t : State} {r' : Result} (h : SameOutcome (.next t) r') :
    ∃ t', r' = .next t' ∧ Spec.AgreeOnValid t t' := by
  cases h with
  | next h => exact ⟨_, rfl, h⟩

theorem SameOutcome.refused_inv {r : Refusal} {r' : Result} (h : SameOutcome (.refused r) r') : r' = .refused r := by
  cases h
  rfl

/-- Both outcomes branch on one condition. -/
theorem SameOutcome.ite {c : Prop} [Decidable c] {a a' b b' : Result} (ha : SameOutcome a a')
    (hb : SameOutcome b b') : SameOutcome (if c then a else b) (if c then a' else b') := by
  split
  · exact ha
  · exact hb

/-! #### Updates keep the agreement -/

/-- `s` with another register file. -/
abbrev State.withRegs (s : State) (y : Vector Nat 16) : State := { s with x := y }

/-- `y` holds what the valid registers of `s` hold. -/
def FitsValid (s : State) (y : Vector Nat 16) : Prop := ∀ i : RegIx, s.isValid i = true → s.reg i = y[i.val]

theorem State.writeReg_x (s : State) (data : Word) {r : CtrlReg} (hr : r ≠ .valid) : (s.writeReg data r).x = s.x := by
  cases r with
  | valid => exact absurd rfl hr
  | _ => rfl

theorem State.writeReg_valid (s : State) (data : Word) {r : CtrlReg} (hr : r ≠ .valid) :
    (s.writeReg data r).valid = s.valid := by
  cases r with
  | valid => exact absurd rfl hr
  | _ => rfl

theorem State.writeReg_withRegs (s : State) (y : Vector Nat 16) (data : Word) {r : CtrlReg} (hr : r ≠ .valid) :
    (s.withRegs y).writeReg data r = (s.writeReg data r).withRegs y := by
  cases r with
  | valid => exact absurd rfl hr
  | _ => rfl

theorem agreeOnValid_iff {s s' : State} :
    Spec.AgreeOnValid s s' ↔ ∃ y, s' = s.withRegs y ∧ FitsValid s y := by
  constructor
  · rintro ⟨heq, h⟩
    exact ⟨s'.x, heq, h⟩
  · rintro ⟨y, rfl, h⟩
    exact ⟨rfl, h⟩

section Agree

variable {s : State} {y : Vector Nat 16} (h : FitsValid s y)
include h

/-- An update that leaves the registers and their valid bits keeps the agreement. -/
theorem FitsValid.agree_of_frame {t : State} (hx : t.x = s.x) (hv : t.valid = s.valid) :
    Spec.AgreeOnValid t (t.withRegs y) := by
  refine agreeOnValid_iff.mpr ⟨y, rfl, fun i hi => ?_⟩
  rw [State.isValid_congr hv] at hi
  rw [State.reg_congr hx, h i hi]

/-- Writing one value to one register in both states. -/
theorem FitsValid.setReg (i : RegIx) (v : Nat) : FitsValid (s.setReg i v) (y.set i.val v) := by
  intro j hj
  rw [State.reg_setReg, Vector.getElem_set]
  by_cases hij : i = j
  · simp [hij]
  · rw [State.isValid_setReg, decide_eq_false hij, Bool.or_false] at hj
    simp [hij, Fin.val_inj, h j hj]

/-- `VALID` bits that are cleared in both states, with one free value for each cleared register (log 4). -/
theorem FitsValid.clearValid (bits : BitVec 16) :
    Spec.AgreeOnValid (s.clearValid bits) ((s.withRegs y).clearValid bits) := by
  refine ⟨rfl, fun i hi => ?_⟩
  simp only [Spec.Valid, State.clearValid, BitVec.getLsbD_and, Bool.and_eq_true] at hi ⊢
  rw [Vector.getElem_ofFn, Vector.getElem_ofFn]
  split
  · rfl
  · exact h i hi.1

/-- `src` reads the same from both, or finds the register invalid in both. -/
theorem FitsValid.src (i : RegIx) {k k' : Nat → Result} (hk : ∀ v, SameOutcome (k v) (k' v)) :
    SameOutcome (src i s k) (src i (s.withRegs y) k') := by
  have hv : (s.withRegs y).isValid i = s.isValid i := rfl
  cases hi : s.isValid i with
  | false =>
    rw [src_invalid _ _ _ hi, src_invalid _ _ _ (hv.trans hi)]
    exact .next (h.agree_of_frame (t := s.fail .unwritten) rfl rfl)
  | true =>
    rw [src_valid _ _ _ hi, src_valid _ _ _ (hv.trans hi)]
    have hreg : (s.withRegs y).reg i = s.reg i := (h i hi).symm
    rw [hreg]
    exact hk _

theorem FitsValid.raise (e : ErrCode) : SameOutcome (raise e s) (raise e (s.withRegs y)) :=
  .next (h.agree_of_frame (t := s.fail e) rfl rfl)

theorem FitsValid.finish : SameOutcome (finish s) (finish (s.withRegs y)) :=
  .next (h.agree_of_frame (t := s.succeed) rfl rfl)

theorem FitsValid.finish_writePrimary (rd : RegIx) (v : Nat) :
    SameOutcome (Machine.finish (s.writePrimary rd v)) (Machine.finish ((s.withRegs y).writePrimary rd v)) :=
  FitsValid.finish (s := s.writePrimary rd v) (h.setReg rd v)

theorem FitsValid.finish_writeVerdict (rd : RegIx) (pass : Bool) :
    SameOutcome (Machine.finish (s.writeVerdict rd pass)) (Machine.finish ((s.withRegs y).writeVerdict rd pass)) :=
  FitsValid.finish (s := s.writeVerdict rd pass) (h.setReg rd pass.toNat)

/-- A command takes the same outcome from both states. -/
theorem FitsValid.exec (i : Instr) : SameOutcome (exec i s) (exec i (s.withRegs y)) := by
  cases i with
  | nop => exact h.finish
  | mov rd rs => exact h.src rs fun v => h.finish_writePrimary rd v
  | ldi rd imm22 => exact h.finish_writePrimary rd _
  | mrtest rd rn k =>
    dsimp only [Machine.exec, execMrtest]
    refine h.src rn fun n => ?_
    cases smallCase n with
    | some pass => exact h.finish_writeVerdict rd pass
    | none =>
      dsimp only
      cases mrRounds n (decomp (n - 1)).1 (decomp (n - 1)).2 k.val s.witness with
      | verdict pass rest => exact FitsValid.finish_writeVerdict (s := { s with witness := rest }) h rd pass
      | waiting => exact .next (h.agree_of_frame rfl rfl)
      | outOfContract => exact .refused _
  | mrround rd rn ra =>
    dsimp only [Machine.exec, execMrround]
    refine h.src rn fun n => h.src ra fun a => ?_
    cases smallCase n with
    | some pass => exact h.finish_writeVerdict rd pass
    | none => exact .ite (h.raise _) (h.finish_writeVerdict rd _)
  | mrdecomp rd rr rn =>
    dsimp only [Machine.exec, execMrdecomp]
    refine .ite (h.raise _) (h.src rn fun n => .ite (h.raise _) ?_)
    exact FitsValid.finish (s := (s.writePrimary rd _).setReg rr _) (FitsValid.setReg (h.setReg rd _) rr _)
  | modexp rd rb re rm method =>
    dsimp only [Machine.exec, execModexp]
    exact h.src rb fun _ => h.src re fun _ => h.src rm fun _ => .ite (h.raise _) (h.finish_writePrimary rd _)
  | gcd rd ra rb => exact h.src ra fun _ => h.src rb fun _ => h.finish_writePrimary rd _
  | xgcd rg rx ry ra rb =>
    dsimp only [Machine.exec, execXgcd]
    refine .ite (h.raise _) (h.src ra fun a => h.src rb fun b => ?_)
    exact FitsValid.finish (s := ((s.writePrimary rg _).setReg rx _).setReg ry _)
      (FitsValid.setReg (FitsValid.setReg (h.setReg rg _) rx _) ry _)
  | modinv rd ra rm =>
    dsimp only [Machine.exec, execModinv]
    exact h.src ra fun _ => h.src rm fun _ =>
      .ite (h.raise _) (.ite (h.raise _) (h.finish_writePrimary rd _))
  | bsize rd rn =>
    dsimp only [Machine.exec, execBsize]
    exact h.src rn fun _ => .ite (h.raise _) (h.finish_writePrimary rd _)
  | bsplit rd rn =>
    dsimp only [Machine.exec, execBsplit]
    refine h.src rn fun n => .ite (h.raise _) (.ite (h.raise _) (.ite (h.raise _) (.ite ?_ (.ite (h.raise _) ?_))))
    · exact FitsValid.finish (s := s.setE true) h
    · exact FitsValid.finish_writePrimary (s := State.setE { s with msgPtr := s.msgPtr + chunkLength n s } _) h rd _
  | bjoin rs =>
    dsimp only [Machine.exec, execBjoin]
    refine h.src rs fun v => .ite (h.raise _) ?_
    exact FitsValid.finish
      (s := { s.outWrite s.outLen (mbe v) with outLen := s.outLen + (mbe v).length }) h
  | utf8chk => exact .ite h.finish (h.raise _)

/-! #### The host's side -/

/-- What a target reads as: the operand window shows 0 for an invalid register (10_state.md R25). -/
theorem FitsValid.targetWord (t : Target) : (s.withRegs y).targetWord t = s.targetWord t := by
  cases t with
  | reg r => cases r <;> rfl
  | msg w => rfl
  | out w => rfl
  | window w =>
    simp only [State.targetWord]
    have hv : (s.withRegs y).isValid s.rsel = s.isValid s.rsel := rfl
    rw [hv]
    split
    · rename_i hi
      rw [h _ hi]
      rfl
    · rfl

theorem FitsValid.writeWindow (w : Nat) (data : Word) :
    Spec.AgreeOnValid (s.writeWindow w data) ((s.withRegs y).writeWindow w data) := by
  have hbase : (if s.isValid s.rsel then y[s.rsel.val] else 0) = if s.isValid s.rsel then s.reg s.rsel else 0 := by
    split
    · rename_i hi
      exact (h _ hi).symm
    · rfl
  refine agreeOnValid_iff.mpr ⟨_, ?_, h.setReg s.rsel _⟩
  exact congrArg (fun v => (s.withRegs y).setReg s.rsel (setWindowWord v w data)) hbase

theorem FitsValid.writeReg (data : Word) (r : CtrlReg) :
    Spec.AgreeOnValid (s.writeReg data r) ((s.withRegs y).writeReg data r) := by
  by_cases hr : r = .valid
  · subst hr
    exact h.clearValid _
  · rw [State.writeReg_withRegs s y data hr]
    exact h.agree_of_frame (State.writeReg_x s data hr) (State.writeReg_valid s data hr)

theorem FitsValid.writeTarget (data : Word) (t : Target) :
    Spec.AgreeOnValid (s.writeTarget data t) ((s.withRegs y).writeTarget data t) := by
  cases t with
  | reg r => exact h.writeReg data r
  | window w => exact h.writeWindow w data
  | msg w => exact h.agree_of_frame (t := s.writeTarget data (.msg w)) rfl rfl
  | out w => exact h.agree_of_frame (t := s.writeTarget data (.out w)) rfl rfl

end Agree

theorem agreeOnValid_respond {s s' : State} (h : Spec.AgreeOnValid s s') (error : Bool) (data : Option Word) :
    Spec.AgreeOnValid (s.respond error data) (s'.respond error data) := by
  obtain ⟨y, rfl, hy⟩ := agreeOnValid_iff.mp h
  exact hy.agree_of_frame (t := s.respond error data) rfl rfl

section Steps

variable {s : State} {y : Vector Nat 16} (h : FitsValid s y)
include h

theorem FitsValid.self : Spec.AgreeOnValid s (s.withRegs y) := agreeOnValid_iff.mpr ⟨y, rfl, h⟩

theorem FitsValid.hostWrite (addr : Nat) (lanes : BitVec 4) (data : Word) :
    Spec.AgreeOnValid (s.hostWrite addr lanes data) ((s.withRegs y).hostWrite addr lanes data) := by
  simp only [State.hostWrite]
  cases busOffset s.params addr with
  | none => exact h.self
  | some off =>
    dsimp only
    cases targetOf s.params off lanes with
    | none => exact agreeOnValid_respond h.self _ _
    | some t =>
      dsimp only
      split
      · exact agreeOnValid_respond h.self _ _
      · split
        · exact h.agree_of_frame
            (t := State.respond { s with status := { s.status with ovr := true } } false none) rfl rfl
        · exact agreeOnValid_respond (h.writeTarget data t) _ _

theorem FitsValid.hostRead (addr : Nat) (lanes : BitVec 4) :
    Spec.AgreeOnValid (s.hostRead addr lanes) ((s.withRegs y).hostRead addr lanes) := by
  simp only [State.hostRead]
  cases busOffset s.params addr with
  | none => exact h.self
  | some off =>
    dsimp only
    cases targetOf s.params off lanes with
    | none => exact agreeOnValid_respond h.self _ _
    | some t =>
      dsimp only
      rw [h.targetWord]
      split
      · exact agreeOnValid_respond h.self _ _
      · split
        · exact h.agree_of_frame (t := State.respond { s with draws := s.draws + 1 } false _) rfl rfl
        · exact agreeOnValid_respond h.self _ _

theorem FitsValid.engineStep : SameOutcome (engineStep s) (engineStep (s.withRegs y)) := by
  refine .ite (.next h.self) (.ite ?_ (.next h.self))
  dsimp only
  cases decode s.lastCmd with
  | ok i => exact h.exec i
  | error _ => exact h.raise _

theorem FitsValid.handleInput (i : Input) : SameOutcome (handleInput i s) (handleInput i (s.withRegs y)) := by
  cases i with
  | write addr lanes data => exact .next (h.hostWrite addr lanes data)
  | read addr lanes => exact .next (h.hostRead addr lanes)
  | witness base => exact .next (h.agree_of_frame (t := { s with witness := s.witness ++ [base] }) rfl rfl)
  | rst level =>
    cases level with
    | false => exact .next (h.agree_of_frame (t := { s with rst := false }) rfl rfl)
    | true => exact .next ⟨rfl, fun _ _ => rfl⟩
  | engine => exact h.engineStep

theorem FitsValid.step : SameOutcome (step s) (step (s.withRegs y)) := by
  simp only [Machine.step]
  cases s.inputs with
  | nil => exact h.engineStep
  | cons i rest => exact FitsValid.handleInput (s := { s with inputs := rest }) h i

end Steps

/-- Settles O44: a step's two outcomes are the same but for invalid registers. -/
theorem invalidRegistersUnobservable : Obligations.InvalidRegistersUnobservable := by
  intro s s' h
  obtain ⟨y, rfl, hy⟩ := agreeOnValid_iff.mp h
  have hstep := hy.step
  refine ⟨fun t ht => ?_, fun r hr => ?_⟩
  · rw [ht] at hstep
    exact hstep.next_inv
  · rw [hr] at hstep
    exact hstep.refused_inv

end Sys2Proof.Machine
end

section
/-! ### What a command changes and what it leaves (10_state.md R20 to R40)

`exec_cases` leaves three ends of a command, and `Writes` says what a successful one wrote; here the writes of each
command are read field by field. -/

namespace Sys2Proof.Machine

/-! #### The register file -/

/-- How a pending command ends: it is still pending with nothing changed, it failed, or it succeeded after its
writes. -/
theorem exec_ends {i : Instr} {s t : State} (h : exec i s = .next t) :
    t = s ∨ (∃ e, t = s.fail e) ∨ ∃ u, Writes i s u ∧ t = u.succeed := by
  obtain ⟨e, _, hx⟩ | ⟨u, hw, hx⟩ | ⟨_, hx | hx⟩ := exec_cases i s <;> cases hx.symm.trans h
  · exact .inr (.inl ⟨e, rfl⟩)
  · exact .inr (.inr ⟨u, hw, rfl⟩)
  · exact .inl rfl

/-- A register is untouched from `s` to `u`, or it is one of `D` and valid in `u`. -/
def WritesWithin (D : List RegIx) (s u : State) : Prop :=
  ∀ r : RegIx, (u.reg r = s.reg r ∧ u.isValid r = s.isValid r) ∨ (r ∈ D ∧ u.isValid r = true)

theorem WritesWithin.of_frame {s u : State} (D : List RegIx) (hx : u.x = s.x) (hv : u.valid = s.valid) :
    WritesWithin D s u :=
  fun r => .inl ⟨State.reg_congr hx r, State.isValid_congr hv r⟩

theorem WritesWithin.setReg {D : List RegIx} {s u : State} (h : WritesWithin D s u) {i : RegIx} (hi : i ∈ D) (v : Nat) :
    WritesWithin D s (u.setReg i v) := by
  intro r
  by_cases hir : i = r
  · exact .inr ⟨hir ▸ hi, by simp [hir]⟩
  · simpa [hir] using h r

/-- One register write, and then nothing that touches the register file. -/
theorem WritesWithin.of_setReg {s u : State} {i : RegIx} {v : Nat} (hx : u.x = s.x.set i.val v)
    (hv : u.valid = s.valid ||| BitVec.twoPow 16 i.val) : WritesWithin [i] s u := by
  have h : WritesWithin [i] s (s.setReg i v) :=
    (WritesWithin.of_frame (u := s) [i] rfl rfl).setReg (List.mem_singleton.mpr rfl) v
  intro r
  rw [State.reg_congr (s := s.setReg i v) hx, State.isValid_congr (s := s.setReg i v) hv]
  exact h r

theorem Writes.within_dests {i : Instr} {s u : State} (h : Writes i s u) : WritesWithin i.dests s u := by
  cases i with
  | nop => cases h; exact .of_frame _ rfl rfl
  | mov => cases h; exact .of_setReg rfl rfl
  | ldi => cases h; exact .of_setReg rfl rfl
  | mrtest => obtain ⟨_, _, rfl⟩ := h; exact .of_setReg rfl rfl
  | mrround => obtain ⟨_, rfl⟩ := h; exact .of_setReg rfl rfl
  | mrdecomp rd rr rn =>
    obtain ⟨_, _, rfl⟩ := h
    have hs : WritesWithin [rd, rr] s s := .of_frame _ rfl rfl
    exact (hs.setReg (i := rd) (by simp) _).setReg (u := s.writePrimary rd _) (by simp) _
  | modexp => obtain ⟨_, rfl⟩ := h; exact .of_setReg rfl rfl
  | gcd => cases h; exact .of_setReg rfl rfl
  | xgcd rg rx ry ra rb =>
    obtain ⟨_, _, _, rfl⟩ := h
    have hs : WritesWithin [rg, rx, ry] s s := .of_frame _ rfl rfl
    exact ((hs.setReg (i := rg) (by simp) _).setReg (u := s.writePrimary rg _) (i := rx) (by simp) _).setReg (by simp) _
  | modinv => obtain ⟨_, rfl⟩ := h; exact .of_setReg rfl rfl
  | bsize => obtain ⟨_, rfl⟩ := h; exact .of_setReg rfl rfl
  | bsplit =>
    obtain ⟨_, rfl⟩ | ⟨_, _, rfl⟩ := h
    · exact .of_frame _ rfl rfl
    · exact .of_setReg rfl rfl
  | bjoin => obtain ⟨_, rfl⟩ := h; exact .of_frame _ rfl rfl
  | utf8chk => cases h; exact .of_frame _ rfl rfl

theorem exec_within_dests {i : Instr} {s t : State} (h : exec i s = .next t) : WritesWithin i.dests s t := by
  obtain rfl | ⟨e, rfl⟩ | ⟨u, hw, rfl⟩ := exec_ends h
  · exact .of_frame _ rfl rfl
  · exact .of_frame _ rfl rfl
  · exact hw.within_dests

/-- Settles O39: by `exec_within_dests`, register by register. -/
theorem onlyDestinationsChange : Obligations.OnlyDestinationsChange := by
  intro i s t h
  have hwithin := exec_within_dests h
  refine ⟨fun r hr => ?_, fun r hr => ?_, fun r hr => ?_⟩
  · obtain ⟨hreg, hvalid⟩ | ⟨hmem, _⟩ := hwithin r
    · exact ⟨hreg, Bool.eq_iff_iff.mp hvalid⟩
    · exact absurd hmem hr
  · obtain ⟨_, hvalid⟩ | ⟨_, hvalid⟩ := hwithin r
    · exact hvalid.trans hr
    · exact hvalid
  · obtain ⟨hreg, _⟩ | ⟨_, hvalid⟩ := hwithin r
    · exact absurd hreg hr
    · exact hvalid

/-! #### The buffers, the pointers and the control registers -/

/-- What only a command of one kind writes, left by every other: MSG_PTR and E by BSPLIT, OUT_LEN and OUTBUF by BJOIN,
the delivered bases by MRTEST, P by the two primality tests. -/
structure KeepsOthers (i : Instr) (s u : State) : Prop where
  msgPtr  : (∀ rd rn, i ≠ .bsplit rd rn) → u.msgPtr = s.msgPtr
  e       : (∀ rd rn, i ≠ .bsplit rd rn) → u.status.e = s.status.e
  outLen  : (∀ rs, i ≠ .bjoin rs) → u.outLen = s.outLen
  outBuf  : (∀ rs, i ≠ .bjoin rs) → u.outBuf = s.outBuf
  witness : ¬ Spec.IsMrtest i → u.witness = s.witness
  p       : (∀ rd rn k, i ≠ .mrtest rd rn k) → (∀ rd rn ra, i ≠ .mrround rd rn ra) → u.status.p = s.status.p

theorem Writes.keepsOthers {i : Instr} {s u : State} (h : Writes i s u) : KeepsOthers i s u := by
  cases i with
  | nop => cases h; constructor <;> intros <;> rfl
  | mov => cases h; constructor <;> intros <;> rfl
  | ldi => cases h; constructor <;> intros <;> rfl
  | mrtest rd rn k =>
    obtain ⟨_, _, rfl⟩ := h
    exact ⟨fun _ => rfl, fun _ => rfl, fun _ => rfl, fun _ => rfl, fun hi => absurd trivial hi,
      fun hi _ => absurd rfl (hi rd rn k)⟩
  | mrround rd rn ra =>
    obtain ⟨_, rfl⟩ := h
    exact ⟨fun _ => rfl, fun _ => rfl, fun _ => rfl, fun _ => rfl, fun _ => rfl, fun _ hi => absurd rfl (hi rd rn ra)⟩
  | mrdecomp => obtain ⟨_, _, rfl⟩ := h; constructor <;> intros <;> rfl
  | modexp => obtain ⟨_, rfl⟩ := h; constructor <;> intros <;> rfl
  | gcd => cases h; constructor <;> intros <;> rfl
  | xgcd => obtain ⟨_, _, _, rfl⟩ := h; constructor <;> intros <;> rfl
  | modinv => obtain ⟨_, rfl⟩ := h; constructor <;> intros <;> rfl
  | bsize => obtain ⟨_, rfl⟩ := h; constructor <;> intros <;> rfl
  | bsplit rd rn =>
    obtain ⟨_, rfl⟩ | ⟨_, _, rfl⟩ := h <;>
      exact ⟨fun hi => absurd rfl (hi rd rn), fun hi => absurd rfl (hi rd rn), fun _ => rfl, fun _ => rfl,
        fun _ => rfl, fun _ _ => rfl⟩
  | bjoin rs =>
    obtain ⟨_, rfl⟩ := h
    exact ⟨fun _ => rfl, fun _ => rfl, fun hi => absurd rfl (hi rs), fun hi => absurd rfl (hi rs), fun _ => rfl,
      fun _ _ => rfl⟩
  | utf8chk => cases h; constructor <;> intros <;> rfl

/-- Settles O40: a failure and a wait change none of it; a success by `KeepsRest` and `KeepsOthers`. -/
theorem commandsLeaveTheRest : Obligations.CommandsLeaveTheRest := by
  intro i s t h
  obtain rfl | ⟨e, rfl⟩ | ⟨u, hw, rfl⟩ := exec_ends h
  · exact ⟨rfl, rfl, rfl, rfl, rfl, rfl, rfl, rfl, rfl, rfl, rfl, fun _ => rfl, fun _ => rfl,
      fun _ => ⟨rfl, fun _ => rfl⟩, fun _ => rfl⟩
  · exact ⟨rfl, rfl, rfl, rfl, rfl, rfl, rfl, rfl, rfl, rfl, rfl, fun _ => rfl, fun _ => rfl,
      fun _ => ⟨rfl, fun _ => rfl⟩, fun _ => rfl⟩
  · have hk := hw.keepsRest
    have ho := hw.keepsOthers
    exact ⟨hk.params, hk.msgLen, hk.rsel, hk.ie, hk.lastCmd, hk.ovr, hk.rst, hk.inputs, hk.resp, hk.draws, hk.epoch,
      State.byteAt_congr .msg hk.msgBuf hk.epoch, ho.msgPtr,
      fun hi => ⟨ho.outLen hi, State.byteAt_congr .out (ho.outBuf hi) hk.epoch⟩, ho.witness⟩

/-! #### The flags -/

/-- P and the register agree on the verdict (10_state.md R37). -/
theorem State.writeVerdict_agrees (s : State) (rd : RegIx) (pass : Bool) :
    ((s.writeVerdict rd pass).status.p = true ∧ (s.writeVerdict rd pass).reg rd = 1) ∨
      ((s.writeVerdict rd pass).status.p = false ∧ (s.writeVerdict rd pass).reg rd = 0) := by
  cases pass <;> simp [State.writeVerdict, State.writePrimary, State.reg]

/-- Settles O41: a success of MRTEST or MRROUND writes one verdict to P and to the register. -/
theorem flagPOnlyFromPrimality : Obligations.FlagPOnlyFromPrimality := by
  intro i s t hbusy h
  obtain rfl | ⟨e, rfl⟩ | ⟨u, hw, rfl⟩ := exec_ends h
  · exact ⟨fun _ _ => rfl, fun _ _ hidle => by simp [hbusy] at hidle⟩
  · exact ⟨fun _ _ => rfl, fun _ _ _ herr => by simp at herr⟩
  · refine ⟨hw.keepsOthers.p, fun rd hi _ _ => ?_⟩
    obtain ⟨rn, k, rfl⟩ | ⟨rn, ra, rfl⟩ := hi
    · obtain ⟨pass, rest, rfl⟩ := hw
      exact State.writeVerdict_agrees _ rd pass
    · obtain ⟨pass, rfl⟩ := hw
      exact s.writeVerdict_agrees rd pass

/-- Z and U tell whether a register holds 0 and 1 (10_state.md R38, R39). -/
def ShowsZU (u : State) (rd : RegIx) : Prop :=
  u.status.z = decide (u.reg rd = 0) ∧ u.status.u = decide (u.reg rd = 1)

theorem showsZU_writePrimary (s : State) (rd : RegIx) (v : Nat) : ShowsZU (s.writePrimary rd v) rd := by
  have hreg : (s.writePrimary rd v).reg rd = v := by simp [State.writePrimary, State.reg]
  rw [ShowsZU, hreg]
  exact ⟨rfl, rfl⟩

theorem ShowsZU.setReg {u : State} {rd : RegIx} (h : ShowsZU u rd) {i : RegIx} (hi : rd ≠ i) (v : Nat) :
    ShowsZU (u.setReg i v) rd := by
  rw [ShowsZU, State.reg_setReg, if_neg hi.symm]
  exact h

/-- The commands that write their primary destination. -/
theorem Writes.showsZU {i : Instr} {s u : State} (h : Writes i s u) {rd : RegIx} {others : List RegIx}
    (hd : i.dests = rd :: others) (hchunk : ∀ rn, i = .bsplit rd rn → s.msgPtr < s.msgLen) : ShowsZU u rd := by
  cases i with
  | nop => cases hd
  | mov => cases hd; cases h; exact showsZU_writePrimary _ _ _
  | ldi => cases hd; cases h; exact showsZU_writePrimary _ _ _
  | mrtest => cases hd; obtain ⟨_, _, rfl⟩ := h; exact showsZU_writePrimary _ _ _
  | mrround => cases hd; obtain ⟨_, rfl⟩ := h; exact showsZU_writePrimary _ _ _
  | mrdecomp => cases hd; obtain ⟨hne, _, rfl⟩ := h; exact (showsZU_writePrimary _ _ _).setReg hne _
  | modexp => cases hd; obtain ⟨_, rfl⟩ := h; exact showsZU_writePrimary _ _ _
  | gcd => cases hd; cases h; exact showsZU_writePrimary _ _ _
  | xgcd =>
    cases hd
    obtain ⟨hgx, hgy, _, rfl⟩ := h
    exact ((showsZU_writePrimary _ _ _).setReg hgx _).setReg hgy _
  | modinv => cases hd; obtain ⟨_, rfl⟩ := h; exact showsZU_writePrimary _ _ _
  | bsize => cases hd; obtain ⟨_, rfl⟩ := h; exact showsZU_writePrimary _ _ _
  | bsplit rd rn =>
    cases hd
    have hlt := hchunk rn rfl
    obtain ⟨hend, _⟩ | ⟨_, _, rfl⟩ := h
    · omega
    · exact showsZU_writePrimary _ _ _
  | bjoin => cases hd
  | utf8chk => cases hd

/-- The successes that write no primary destination. -/
theorem Writes.keepsZU {i : Instr} {s u : State} (h : Writes i s u)
    (hi : i.dests = [] ∨ ∃ rd rn, i = .bsplit rd rn ∧ s.msgLen ≤ s.msgPtr) :
    u.status.z = s.status.z ∧ u.status.u = s.status.u := by
  obtain hd | ⟨rd, rn, rfl, hend⟩ := hi
  · cases i with
    | nop => cases h; exact ⟨rfl, rfl⟩
    | bjoin => obtain ⟨_, rfl⟩ := h; exact ⟨rfl, rfl⟩
    | utf8chk => cases h; exact ⟨rfl, rfl⟩
    | _ => cases hd
  · obtain ⟨_, rfl⟩ | ⟨hlt, _⟩ := h
    · exact ⟨rfl, rfl⟩
    · omega

/-- Settles O42: by `Writes.keepsZU` and `Writes.showsZU` for a success. -/
theorem flagsZUFollowPrimary : Obligations.FlagsZUFollowPrimary := by
  intro i s t hbusy h
  obtain rfl | ⟨e, rfl⟩ | ⟨u, hw, rfl⟩ := exec_ends h
  · exact ⟨fun _ _ => ⟨rfl, rfl⟩, fun _ _ _ hidle => by simp [hbusy] at hidle⟩
  · exact ⟨fun _ _ => ⟨rfl, rfl⟩, fun _ _ _ _ herr => by simp at herr⟩
  · refine ⟨fun hi _ => hw.keepsZU (hi.resolve_left (by simp)), fun rd others hd _ _ hchunk => ?_⟩
    exact hw.showsZU hd hchunk

/-- Settles O43: by the two ways BSPLIT succeeds, and `KeepsOthers` for the other commands. -/
theorem flagEOnlyFromBsplit : Obligations.FlagEOnlyFromBsplit := by
  intro i s t hbusy h
  refine ⟨fun hi hidle => ?_, fun rd rn hi herr => ?_⟩
  · obtain rfl | ⟨e, rfl⟩ | ⟨u, hw, rfl⟩ := exec_ends h
    · rfl
    · rfl
    · exact hw.keepsOthers.e (hi.resolve_right (by simp))
  · subst hi
    obtain ⟨e, _, hx⟩ | ⟨u, hw, hx⟩ | ⟨⟨_, _, _, himp⟩, _⟩ := exec_cases (.bsplit rd rn) s
    · cases hx.symm.trans h
      simp at herr
    · cases hx.symm.trans h
      obtain ⟨hend, rfl⟩ | ⟨_, _, rfl⟩ := hw
      · exact (decide_eq_true hend).symm
      · rfl
    · cases himp

end Sys2Proof.Machine
end

section
/-! ### Host accesses to legal places (20_memory.md R60 to R74) -/

namespace Sys2Proof.Machine

/-! #### One access, one step -/

/-- The offset of a control register (20_memory.md R64). -/
def CtrlReg.offset : CtrlReg → Nat
  | .id => 0x00
  | .cfgOpw => 0x04
  | .cfgMsgCap => 0x08
  | .cfgOutCap => 0x0C
  | .ctrl => 0x10
  | .status => 0x14
  | .cmd => 0x18
  | .valid => 0x1C
  | .rsel => 0x20
  | .msgLen => 0x24
  | .msgPtr => 0x28
  | .outLen => 0x2C
  | .cmdCnt => 0x30

theorem targetOf_offset (p : Params) (r : CtrlReg) : targetOf p r.offset 0xF#4 = some (.reg r) := by
  cases r
  case id => exact targetOf_reg p 0 (by decide)
  case cfgOpw => exact targetOf_reg p 1 (by decide)
  case cfgMsgCap => exact targetOf_reg p 2 (by decide)
  case cfgOutCap => exact targetOf_reg p 3 (by decide)
  case ctrl => exact targetOf_reg p 4 (by decide)
  case status => exact targetOf_reg p 5 (by decide)
  case cmd => exact targetOf_reg p 6 (by decide)
  case valid => exact targetOf_reg p 7 (by decide)
  case rsel => exact targetOf_reg p 8 (by decide)
  case msgLen => exact targetOf_reg p 9 (by decide)
  case msgPtr => exact targetOf_reg p 10 (by decide)
  case outLen => exact targetOf_reg p 11 (by decide)
  case cmdCnt => exact targetOf_reg p 12 (by decide)

section Access

variable {s : State} {off : Nat} {t : Target}

/-- A legal write that is not locked (20_memory.md R60, R61). -/
theorem step_writing (ho : off < 0x10000) (ht : targetOf s.params off 0xF#4 = some t) (hr : s.rst = false)
    (hb : (s.status.busy && t.lockedWhileBusy) = false) (data : Word) :
    step (Spec.writing s off data) = .next (Spec.accepted (s.writeTarget data t)) := by
  show Host.Outcome.next (s.hostWrite _ _ _) = _
  simp only [State.hostWrite, busOffset_base_add _ _ ho, ht, hr, hb, Bool.false_eq_true, if_false]
  rfl

/-- A legal write of a locked place while BUSY = 1 (10_state.md R42). -/
theorem step_writing_locked (ho : off < 0x10000) (ht : targetOf s.params off 0xF#4 = some t) (hr : s.rst = false)
    (hb : s.status.busy = true) (hl : t.lockedWhileBusy = true) (data : Word) :
    step (Spec.writing s off data) =
      .next (Spec.accepted { s with status := { s.status with ovr := true } }) := by
  show Host.Outcome.next (s.hostWrite _ _ _) = _
  simp only [State.hostWrite, busOffset_base_add _ _ ho, ht, hr, hb, hl, Bool.and_self, Bool.false_eq_true, if_false,
    if_true]
  rfl

/-- A legal read that returns what the target holds. -/
theorem step_reading (ho : off < 0x10000) (ht : targetOf s.params off 0xF#4 = some t) (hr : s.rst = false)
    (hb : (s.status.busy && t.anyWhileBusy) = false) :
    step (Spec.reading s off) = .next (Spec.answered s (s.targetWord t)) := by
  show Host.Outcome.next (s.hostRead _ _) = _
  simp only [State.hostRead, busOffset_base_add _ _ ho, ht, hr, hb, Bool.false_eq_true, if_false]
  rfl

/-- A legal read that returns any value while BUSY = 1 (10_state.md R43). -/
theorem step_reading_any (ho : off < 0x10000) (ht : targetOf s.params off 0xF#4 = some t) (hr : s.rst = false)
    (hb : s.status.busy = true) (ha : t.anyWhileBusy = true) :
    step (Spec.reading s off) =
      .next (Spec.answered { s with draws := s.draws + 1 } (Config.busyRead s.draws)) := by
  show Host.Outcome.next (s.hostRead _ _) = _
  simp only [State.hostRead, busOffset_base_add _ _ ho, ht, hr, hb, ha, Bool.and_self, Bool.false_eq_true, if_false,
    if_true]
  rfl

end Access

theorem CtrlReg.offset_lt (r : CtrlReg) : r.offset < 0x10000 := by cases r <;> decide

section Registers

variable {s : State} (hr : s.rst = false)
include hr

/-- A write of a control register that BUSY does not lock, idle or BUSY. -/
theorem step_writing_reg (r : CtrlReg) (hl : (Target.reg r).lockedWhileBusy = false) (data : Word) :
    step (Spec.writing s r.offset data) = .next (Spec.accepted (s.writeReg data r)) :=
  step_writing r.offset_lt (targetOf_offset _ r) hr (by rw [hl, Bool.and_false]) data

/-- A write of a control register, idle. -/
theorem step_writing_reg_idle (hb : s.status.busy = false) (r : CtrlReg) (data : Word) :
    step (Spec.writing s r.offset data) = .next (Spec.accepted (s.writeReg data r)) :=
  step_writing r.offset_lt (targetOf_offset _ r) hr (by rw [hb, Bool.false_and]) data

/-- A read of a control register that is exact, idle or BUSY. -/
theorem step_reading_reg (r : CtrlReg) (ha : (Target.reg r).anyWhileBusy = false) :
    step (Spec.reading s r.offset) = .next (Spec.answered s (s.regWord r)) :=
  step_reading r.offset_lt (targetOf_offset _ r) hr (by rw [ha, Bool.and_false])

/-- A read of a control register, idle. -/
theorem step_reading_reg_idle (hb : s.status.busy = false) (r : CtrlReg) :
    step (Spec.reading s r.offset) = .next (Spec.answered s (s.regWord r)) :=
  step_reading r.offset_lt (targetOf_offset _ r) hr (by rw [hb, Bool.false_and])

end Registers

/-! #### A word with one more bit at the low end

The STATUS word is built that way (10_state.md R36). -/

theorem getLsbD_append_ofBool_zero {n : Nat} (x : BitVec n) (b : Bool) :
    (x ++ BitVec.ofBool b).getLsbD 0 = b := by
  rw [BitVec.getLsbD_append]
  simp

theorem getLsbD_append_ofBool_succ {n : Nat} (x : BitVec n) (b : Bool) (k : Nat) :
    (x ++ BitVec.ofBool b).getLsbD (k + 1) = x.getLsbD k := by
  rw [BitVec.getLsbD_append]
  simp

theorem toNat_append_ofBool_div {n : Nat} (x : BitVec n) (b : Bool) : (x ++ BitVec.ofBool b).toNat / 2 = x.toNat := by
  have hb := (BitVec.ofBool b).isLt
  rw [BitVec.toNat_append, ← Nat.shiftLeft_add_eq_or_of_lt hb, Nat.shiftLeft_eq]
  omega

theorem append_false_eq_and (x : BitVec 31) (b : Bool) :
    x ++ BitVec.ofBool false = (x ++ BitVec.ofBool b) &&& 0xFFFFFFFE#32 := by
  have hmask : ∀ k < 32, (0xFFFFFFFE#32).getLsbD k = decide (1 ≤ k) := by decide
  apply BitVec.eq_of_getLsbD_eq
  intro k hk
  rw [BitVec.getLsbD_and, hmask k hk]
  cases k with
  | zero => simp only [getLsbD_append_ofBool_zero, Nat.le_zero, one_ne_zero, decide_false, Bool.and_false]
  | succ k => simp only [getLsbD_append_ofBool_succ, Nat.le_add_left, decide_true, Bool.and_true]

/-! #### While BUSY = 1 -/

/-- Every legal offset of the three windows leads to a place that BUSY locks and that reads as any value. -/
theorem targetOf_of_legalOffset {p : Params} {off : Nat} (h : Spec.LegalOffset p off) (hw : 0x1000 ≤ off) :
    ∃ t, targetOf p off 0xF#4 = some t ∧ t.lockedWhileBusy = true ∧ t.anyWhileBusy = true := by
  obtain ⟨h4, hreg | ⟨hlo, hhi, hword⟩ | ⟨hlo, hhi, hword⟩ | ⟨hlo, hhi, hword⟩⟩ := h
  · omega
  · refine ⟨.window ((off - 0x1000) / 4), ?_, rfl, rfl⟩
    have h := targetOf_window p ((off - 0x1000) / 4) hword (by omega)
    rwa [show 0x1000 + 4 * ((off - 0x1000) / 4) = off by omega] at h
  · refine ⟨.msg ((off - 0x4000) / 4), ?_, rfl, rfl⟩
    have h := targetOf_msg p ((off - 0x4000) / 4) hword (by omega)
    rwa [show 0x4000 + 4 * ((off - 0x4000) / 4) = off by omega] at h
  · refine ⟨.out ((off - 0x8000) / 4), ?_, rfl, rfl⟩
    have h := targetOf_out p ((off - 0x8000) / 4) hword (by omega)
    rwa [show 0x8000 + 4 * ((off - 0x8000) / 4) = off by omega] at h

theorem legalOffset_lt {p : Params} {off : Nat} (h : Spec.LegalOffset p off) : off < 0x10000 := by
  obtain ⟨_, h⟩ := h
  omega

/-- The control registers that BUSY locks (10_state.md R42). -/
theorem exists_locked_reg {off : Nat} (h : off ∈ [0x18, 0x1C, 0x20, 0x24, 0x28, 0x2C]) :
    ∃ r : CtrlReg, off = r.offset ∧ (Target.reg r).lockedWhileBusy = true := by
  simp only [List.mem_cons, List.not_mem_nil, or_false] at h
  obtain rfl | rfl | rfl | rfl | rfl | rfl := h
  · exact ⟨.cmd, rfl, rfl⟩
  · exact ⟨.valid, rfl, rfl⟩
  · exact ⟨.rsel, rfl, rfl⟩
  · exact ⟨.msgLen, rfl, rfl⟩
  · exact ⟨.msgPtr, rfl, rfl⟩
  · exact ⟨.outLen, rfl, rfl⟩

/-- The control registers whose read is any value while BUSY = 1 (10_state.md R43). -/
theorem exists_any_reg {off : Nat} (h : off ∈ [0x1C, 0x28, 0x2C]) :
    ∃ r : CtrlReg, off = r.offset ∧ (Target.reg r).anyWhileBusy = true := by
  simp only [List.mem_cons, List.not_mem_nil, or_false] at h
  obtain rfl | rfl | rfl := h
  · exact ⟨.valid, rfl, rfl⟩
  · exact ⟨.msgPtr, rfl, rfl⟩
  · exact ⟨.outLen, rfl, rfl⟩

/-- The control registers whose read is exact while BUSY = 1 (10_state.md R43). -/
theorem exists_exact_reg {off : Nat} (h : off ∈ [0x00, 0x04, 0x08, 0x0C, 0x10, 0x14, 0x18, 0x20, 0x24, 0x30]) :
    ∃ r : CtrlReg, off = r.offset ∧ (Target.reg r).anyWhileBusy = false := by
  simp only [List.mem_cons, List.not_mem_nil, or_false] at h
  obtain rfl | rfl | rfl | rfl | rfl | rfl | rfl | rfl | rfl | rfl := h
  · exact ⟨.id, rfl, rfl⟩
  · exact ⟨.cfgOpw, rfl, rfl⟩
  · exact ⟨.cfgMsgCap, rfl, rfl⟩
  · exact ⟨.cfgOutCap, rfl, rfl⟩
  · exact ⟨.ctrl, rfl, rfl⟩
  · exact ⟨.status, rfl, rfl⟩
  · exact ⟨.cmd, rfl, rfl⟩
  · exact ⟨.rsel, rfl, rfl⟩
  · exact ⟨.msgLen, rfl, rfl⟩
  · exact ⟨.cmdCnt, rfl, rfl⟩

/-- Settles O47: the offset is that of a locked register or lies in a window, and every window is locked. -/
theorem busyWritesOnlySetOvr : Obligations.BusyWritesOnlySetOvr := by
  intro s off data hr hb hlegal hlocked
  obtain hreg | hwin := hlocked
  · obtain ⟨r, rfl, hl⟩ := exists_locked_reg hreg
    exact step_writing_locked r.offset_lt (targetOf_offset _ r) hr hb hl data
  · obtain ⟨t, ht, hl, _⟩ := targetOf_of_legalOffset hlegal hwin
    exact step_writing_locked (legalOffset_lt hlegal) ht hr hb hl data

/-- BUSY is bit 0 of the STATUS word, and the other bits do not depend on it (10_state.md R36). -/
theorem Status.toWord_idle (t : Status) : { t with busy := false }.toWord = t.toWord &&& 0xFFFFFFFE#32 :=
  append_false_eq_and _ t.busy

theorem State.regWord_idle (s : State) (r : CtrlReg) :
    State.regWord { s with status := { s.status with busy := false } } r =
      if r.offset = 0x14 then s.regWord r &&& 0xFFFFFFFE#32 else s.regWord r := by
  cases r with
  | status => exact s.status.toWord_idle
  | _ => rfl

/-- Settles O48: by the register or window the offset leads to; of the exact words only STATUS depends on BUSY. -/
theorem busyReads : Obligations.BusyReads := by
  intro s off hr hb hlegal
  refine ⟨fun hany => ?_, fun hexact => ?_⟩
  · obtain hreg | hwin := hany
    · obtain ⟨r, rfl, ha⟩ := exists_any_reg hreg
      exact step_reading_any r.offset_lt (targetOf_offset _ r) hr hb ha
    · obtain ⟨t, ht, _, ha⟩ := targetOf_of_legalOffset hlegal hwin
      exact step_reading_any (legalOffset_lt hlegal) ht hr hb ha
  · obtain ⟨r, rfl, ha⟩ := exists_exact_reg hexact
    refine ⟨s.regWord r, step_reading_reg hr r ha, ?_⟩
    rw [← State.regWord_idle]
    exact step_reading_reg (s := { s with status := { s.status with busy := false } }) hr r ha

/-! #### Control registers -/

theorem append_ofBool_eq_ite (b : Bool) : 0#31 ++ BitVec.ofBool b = if b then 1#32 else 0#32 := by cases b <;> decide

/-- RSEL takes bits 3:0 of a write (10_state.md R33). -/
theorem toFin_extractLsb'_low (data : Word) :
    (data.extractLsb' 0 4).toFin = (⟨data.toNat % 16, Nat.mod_lt _ (by decide)⟩ : RegIx) := by
  apply Fin.ext
  simp

/-- Settles O53: register by register. -/
theorem controlRegisterWrites : Obligations.ControlRegisterWrites := by
  intro s data hr
  refine ⟨⟨?_, ?_, ?_, ?_, ?_⟩, fun hb => ⟨?_, ?_, ?_, ?_, ?_, ?_⟩⟩
  · exact step_writing_reg hr .ctrl rfl data
  · rw [← append_ofBool_eq_ite]
    exact step_reading_reg hr .ctrl rfl
  · exact step_reading_reg hr .cmd rfl
  · exact step_reading_reg hr .rsel rfl
  · exact step_reading_reg hr .msgLen rfl
  · exact step_writing_reg_idle hr hb .msgLen data
  · exact step_writing_reg_idle hr hb .msgPtr data
  · exact step_writing_reg_idle hr hb .outLen data
  · rw [← toFin_extractLsb'_low]
    exact step_writing_reg_idle hr hb .rsel data
  · exact step_reading_reg_idle hr hb .msgPtr
  · exact step_reading_reg_idle hr hb .outLen

/-- Settles O54: register by register. -/
theorem readOnlyRegisters : Obligations.ReadOnlyRegisters := by
  intro s data hr
  refine ⟨step_reading_reg hr .id rfl, step_reading_reg hr .cfgOpw rfl, step_reading_reg hr .cfgMsgCap rfl,
    step_reading_reg hr .cfgOutCap rfl, step_reading_reg hr .cmdCnt rfl, fun off hoff => ?_⟩
  simp only [List.mem_cons, List.not_mem_nil, or_false] at hoff
  obtain rfl | rfl | rfl | rfl | rfl := hoff
  · exact step_writing_reg hr .id rfl data
  · exact step_writing_reg hr .cfgOpw rfl data
  · exact step_writing_reg hr .cfgMsgCap rfl data
  · exact step_writing_reg hr .cfgOutCap rfl data
  · exact step_writing_reg hr .cmdCnt rfl data

/-- The flags are bits 0 to 7 of the STATUS word (10_state.md R36). -/
theorem Status.toWord_flags (t : Status) :
    t.toWord.getLsbD 0 = t.busy ∧ t.toWord.getLsbD 1 = t.done ∧ t.toWord.getLsbD 2 = t.err ∧
      t.toWord.getLsbD 3 = t.ovr ∧ t.toWord.getLsbD 4 = t.p ∧ t.toWord.getLsbD 5 = t.z ∧
      t.toWord.getLsbD 6 = t.u ∧ t.toWord.getLsbD 7 = t.e := by
  refine ⟨?_, ?_, ?_, ?_, ?_, ?_, ?_, ?_⟩ <;>
    simp only [Status.toWord, getLsbD_append_ofBool_zero, getLsbD_append_ofBool_succ]

theorem Status.writeOneToClear_eq (t : Status) (data : Word) :
    t.writeOneToClear data =
      { t with
        done := if data.getLsbD 1 then false else t.done
        ovr := if data.getLsbD 3 then false else t.ovr } := by
  rw [Status.writeOneToClear]
  cases data.getLsbD 1 <;> cases data.getLsbD 3 <;> simp

theorem ErrCode.code_toNat (e : ErrCode) : e.code.toNat = Spec.errNumber e := by cases e <;> rfl

theorem Status.toWord_errCode (t : Status) : t.toWord.toNat / 2 ^ 8 = Spec.errNumber t.errCode := by
  have hcode : (0#16 ++ t.errCode.code).toNat = Spec.errNumber t.errCode := by
    rw [BitVec.toNat_append]
    simp [ErrCode.code_toNat]
  have h256 : t.toWord.toNat / 2 ^ 8 = t.toWord.toNat / 2 / 2 / 2 / 2 / 2 / 2 / 2 / 2 := by omega
  rw [h256, ← hcode]
  simp only [Status.toWord, toNat_append_ofBool_div]

/-- Settles O55: from the bits of the STATUS word. -/
theorem statusFieldsAndClear : Obligations.StatusFieldsAndClear := by
  intro s data hr
  obtain ⟨hbusy, hdone, herr, hovr, hp, hz, hu, he⟩ := s.status.toWord_flags
  refine ⟨⟨s.status.toWord, step_reading_reg hr .status rfl, hbusy, hdone, herr, hovr, hp, hz, hu, he,
    s.status.toWord_errCode⟩, ErrCode.code_toNat, ?_⟩
  rw [← Status.writeOneToClear_eq]
  exact step_writing_reg hr .status rfl data

theorem toNat_append_valid_lt (v : BitVec 16) : (0#16 ++ v).toNat < 2 ^ 16 := by
  rw [BitVec.toNat_append]
  simpa using v.isLt

/-- Settles O56: from what `State.clearValid` does to each register. -/
theorem validWriteClearsBits : Obligations.ValidWriteClearsBits := by
  intro s data hr hb
  refine ⟨⟨0#16 ++ s.valid, step_reading_reg_idle hr hb .valid, fun i => ?_, ?_⟩,
    s.clearValid (data.extractLsb' 0 16), step_writing_reg_idle hr hb .valid data, rfl, fun i => ?_, fun i hi => ?_⟩
  · rw [BitVec.getLsbD_append, if_pos i.isLt]
  · exact toNat_append_valid_lt s.valid
  · simp [Spec.Valid, State.clearValid]
  · simp [State.clearValid, hi, State.reg]

/-! #### The operand window -/

/-- What the operand window shows: the selected register, and 0 where it is invalid (10_state.md R25). -/
def State.selected (s : State) : Nat := if s.isValid s.rsel then s.reg s.rsel else 0

theorem State.selected_of_valid {s : State} (h : Spec.Valid s s.rsel) : s.selected = s.x[s.rsel.val] := if_pos h

theorem State.selected_of_invalid {s : State} (h : ¬ Spec.Valid s s.rsel) : s.selected = 0 := if_neg h

theorem windowWord_zero (w : Nat) : windowWord 0 w = 0#32 := by simp [windowWord]

theorem State.targetWord_window (s : State) (w : Nat) : s.targetWord (.window w) = windowWord s.selected w := by
  rw [State.targetWord, State.selected]
  split
  · rfl
  · exact (windowWord_zero w).symm

theorem State.selected_writeWindow (s : State) (w : Nat) (data : Word) :
    (s.writeWindow w data).selected = setWindowWord s.selected w data := by
  simp [State.writeWindow, State.selected]

theorem State.isValid_writeWindow_rsel (s : State) (w : Nat) (data : Word) :
    (s.writeWindow w data).isValid s.rsel = true := by
  simp [State.writeWindow]

theorem State.reg_writeWindow_ne (s : State) (w : Nat) (data : Word) {r : RegIx} (hne : r ≠ s.rsel) :
    (s.writeWindow w data).reg r = s.reg r := by
  simp [State.writeWindow, hne.symm]

theorem State.isValid_writeWindow_ne (s : State) (w : Nat) (data : Word) {r : RegIx} (hne : r ≠ s.rsel) :
    (s.writeWindow w data).isValid r = s.isValid r := by
  simp [State.writeWindow, hne.symm]

section Window

variable {s : State} {w : Nat} (hp : s.params.Legal) (hr : s.rst = false) (hb : s.status.busy = false)
  (hw : w < s.params.opw / 32)
include hp hr hb hw

theorem step_reading_window :
    step (Spec.reading s (0x1000 + 4 * w)) = .next (Spec.answered s (windowWord s.selected w)) := by
  have hw' : w < 1024 := by have := hp.1.2.2; omega
  rw [← State.targetWord_window]
  exact step_reading (by omega) (targetOf_window _ w hw hw') hr (by rw [hb, Bool.false_and])

theorem step_writing_window (data : Word) :
    step (Spec.writing s (0x1000 + 4 * w) data) = .next (Spec.accepted (s.writeWindow w data)) := by
  have hw' : w < 1024 := by have := hp.1.2.2; omega
  exact step_writing (by omega) (targetOf_window _ w hw hw') hr (by rw [hb, Bool.false_and]) data

end Window

/-- Settles O51: a window word is a slice of what `State.selected` shows. -/
theorem operandWindowShowsRegister : Obligations.OperandWindowShowsRegister := by
  intro s w hp hr hb hw
  refine ⟨_, step_reading_window hp hr hb hw, fun hinv => ?_, fun hval k hk => ?_⟩
  · rw [State.selected_of_invalid hinv, windowWord_zero]
  · rw [State.selected_of_valid hval, windowWord_getLsbD _ _ _ hk]

/-- Settles O50: word `w` of the register is replaced and every other slice of it stays. -/
theorem operandWindowReadsBack : Obligations.OperandWindowReadsBack := by
  intro s w data hp hr hb hw
  have hread : ∀ v, v < s.params.opw / 32 → step (Spec.reading (s.writeWindow w data) (0x1000 + 4 * v)) =
      .next (Spec.answered (s.writeWindow w data) (windowWord (setWindowWord s.selected w data) v)) := by
    intro v hv
    rw [← State.selected_writeWindow]
    exact step_reading_window hp hr hb hv
  refine ⟨s.writeWindow w data, step_writing_window hp hr hb hw data, rfl, s.isValid_writeWindow_rsel w data,
    fun r hne => ⟨s.reg_writeWindow_ne w data hne, Bool.eq_iff_iff.mp (s.isValid_writeWindow_ne w data hne)⟩, ?_,
    fun v hv hvw => ⟨windowWord s.selected v, ?_, fun hval => ?_, fun hinv => ?_⟩⟩
  · rw [hread w hw, windowWord_setWindowWord]
  · rw [hread v hv, windowWord_setWindowWord_ne _ _ _ _ hvw]
  · exact step_reading_window hp hr hb hv
  · rw [State.selected_of_invalid hinv, windowWord_zero]

end Sys2Proof.Machine
end

section
/-! ### Host accesses outside the address map, and the buffer windows (20_memory.md R60 to R73) -/

namespace Sys2Proof.Machine

/-- A step with an input pending handles it. -/
theorem step_cons {s : State} {i : Input} {rest : List Input} (h : s.inputs = i :: rest) :
    step s = handleInput i { s with inputs := rest } := by
  simp only [step, h]

/-! #### Reads -/

/-- Settles O57: whatever a read meets, it at most answers and draws a free value. -/
theorem readsHaveNoSideEffect : Obligations.ReadsHaveNoSideEffect := by
  intro s addr lanes rest hin
  rw [step_cons hin, handleInput]
  obtain hx | ⟨error, d, draws, hx⟩ := State.hostRead_cases { s with inputs := rest } addr lanes <;> rw [hx]
  · exact ⟨s.resp, s.draws, rfl⟩
  · exact ⟨some { error := error, data := some d }, draws, rfl⟩

/-! #### Illegal accesses -/

/-- An offset the address map knows is a control register's or lies in a window; past `0x30` no register is listed. -/
theorem legalOffset_of_targetAt {p : Params} {off : Nat} {t : Target} (h4 : off % 4 = 0)
    (h : targetAt p off = some t) : Spec.LegalOffset p off := by
  refine ⟨h4, ?_⟩
  unfold targetAt at h
  split_ifs at h with hreg hwin hword hgap hmsg hword hout hword
  · obtain ⟨r, hr, -⟩ := Option.map_eq_some_iff.mp h
    have hlt : off / 4 < 13 := (List.getElem?_eq_some_iff.mp hr).1
    exact .inl (by omega)
  · exact .inr (.inl ⟨by omega, hwin, hword⟩)
  · exact .inr (.inr (.inl ⟨by omega, hmsg, hword⟩))
  · exact .inr (.inr (.inr ⟨by omega, hout, hword⟩))

theorem targetOf_eq_none {p : Params} {off : Nat} {lanes : BitVec 4}
    (hill : ¬ (lanes = 0xF#4 ∧ Spec.LegalOffset p off)) : targetOf p off lanes = none := by
  unfold targetOf
  split
  case isFalse => rfl
  case isTrue h =>
    obtain ⟨h4, hlanes⟩ := h
    exact Option.eq_none_iff_forall_ne_some.mpr fun t ht => hill ⟨hlanes, legalOffset_of_targetAt h4 ht⟩

section Illegal

variable {s : State} {off : Nat} {lanes : BitVec 4} (ho : off < 0x10000) (ht : targetOf s.params off lanes = none)
include ho ht

theorem State.hostWrite_of_no_target (data : Word) :
    s.hostWrite (s.params.mrtBase + off) lanes data = s.respond true none := by
  simp only [State.hostWrite, busOffset_base_add _ _ ho, ht]

theorem State.hostRead_of_no_target : s.hostRead (s.params.mrtBase + off) lanes = s.respond true (some 0#32) := by
  simp only [State.hostRead, busOffset_base_add _ _ ho, ht]

end Illegal

/-- Settles O49: an illegal access has no target, and an access without a target is only answered. -/
theorem illegalAccessesOnlyRespond : Obligations.IllegalAccessesOnlyRespond := by
  intro s off lanes data rest ho hill
  have ht : targetOf s.params off lanes = none := targetOf_eq_none hill
  refine ⟨fun hin => ?_, fun hin => ?_⟩ <;> rw [step_cons hin]
  · exact congrArg Host.Outcome.next (State.hostWrite_of_no_target (s := { s with inputs := rest }) ho ht data)
  · exact congrArg Host.Outcome.next (State.hostRead_of_no_target (s := { s with inputs := rest }) ho ht)

/-! #### The buffer windows

One set of lemmas for the two buffers: where each window begins, how long its buffer is, and what its word `w` is to the
bus. -/

/-- The offset of a buffer's window (20_memory.md R63). -/
def bufferBase : Buf → Nat
  | .msg => 0x4000
  | .out => 0x8000

/-- The capacity of a buffer (00_scope.md R7). -/
def bufferCap (p : Params) : Buf → Nat
  | .msg => p.msgCap
  | .out => p.outCap

/-- Word `w` of a buffer's window as the target of an access. -/
def bufferTarget : Buf → Nat → Target
  | .msg, w => .msg w
  | .out, w => .out w

theorem targetOf_buffer {p : Params} (hp : p.Legal) {b : Buf} {w : Nat} (hw : w < bufferCap p b / 4) :
    bufferBase b + 4 * w < 0x10000 ∧ targetOf p (bufferBase b + 4 * w) 0xF#4 = some (bufferTarget b w) := by
  obtain ⟨-, ⟨-, -, hmsg⟩, -, -, hout⟩ := hp
  cases b <;> simp only [bufferBase, bufferCap] at hw ⊢
  case msg => exact ⟨by omega, targetOf_msg p w hw (by omega)⟩
  case out => exact ⟨by omega, targetOf_out p w hw (by omega)⟩

theorem State.targetWord_bufferTarget (s : State) (b : Buf) (w : Nat) :
    s.targetWord (bufferTarget b w) = s.bufferWord b w := by
  cases b <;> rfl

section BufferWindow

variable {s : State} {b : Buf} {w : Nat} (hp : s.params.Legal) (hr : s.rst = false) (hb : s.status.busy = false)
  (hw : w < bufferCap s.params b / 4)
include hp hr hb hw

theorem step_reading_buffer :
    step (Spec.reading s (bufferBase b + 4 * w)) = .next (Spec.answered s (s.bufferWord b w)) := by
  obtain ⟨ho, ht⟩ := targetOf_buffer hp hw
  rw [← State.targetWord_bufferTarget]
  exact step_reading ho ht hr (by rw [hb, Bool.false_and])

theorem step_writing_buffer (data : Word) :
    step (Spec.writing s (bufferBase b + 4 * w) data) =
      .next (Spec.accepted (s.writeTarget data (bufferTarget b w))) := by
  obtain ⟨ho, ht⟩ := targetOf_buffer hp hw
  exact step_writing ho ht hr (by rw [hb, Bool.false_and]) data

end BufferWindow

theorem getElem?_laneBytes (data : Word) {k : Nat} (hk : k < 4) : (laneBytes data)[k]? = some (laneByte data k) := by
  interval_cases k <;> rfl

/-- Lane `k` of a buffer's word `w` is its byte `4w + k` (20_memory.md R68, R69). -/
theorem State.laneByte_bufferWord (s : State) (b : Buf) (w k : Nat) (hk : k < 4) :
    laneByte (s.bufferWord b w) k = s.byteAt b (4 * w + k) := by
  rw [State.bufferWord, laneByte_laneWord _ _ _ _ k hk]
  interval_cases k <;> rfl

/-- A buffer's bytes after its word `w` was written: the lanes of the data in the word, elsewhere as before. -/
theorem State.byteAt_writeTarget_buffer (s : State) (b : Buf) (w a : Nat) (data : Word) :
    (s.writeTarget data (bufferTarget b w)).byteAt b a =
      if 4 * w ≤ a ∧ a < 4 * w + 4 then laneByte data (a - 4 * w) else s.byteAt b a := by
  have hbuf : (s.writeTarget data (bufferTarget b w)).buffer b = (s.buffer b).storeAll (4 * w) (laneBytes data) := by
    cases b <;> rfl
  have hepoch : (s.writeTarget data (bufferTarget b w)).epoch = s.epoch := by cases b <;> rfl
  have hlen : (laneBytes data).length = 4 := rfl
  simp only [State.byteAt, hbuf, hepoch, Memory.lookup_storeAll, hlen]
  split
  case isTrue h => rw [getElem?_laneBytes data (by omega), Option.getD_some]
  case isFalse => rfl

theorem State.byteAt_writeTarget_buffer_lane (s : State) (b : Buf) (w : Nat) (data : Word) (k : Nat) (hk : k < 4) :
    (s.writeTarget data (bufferTarget b w)).byteAt b (4 * w + k) = laneByte data k := by
  rw [State.byteAt_writeTarget_buffer, if_pos (by omega), Nat.add_sub_cancel_left]

theorem State.byteAt_writeTarget_buffer_ne (s : State) (b : Buf) (w : Nat) (data : Word) (a : Nat)
    (ha : a < 4 * w ∨ 4 * w + 4 ≤ a) :
    (s.writeTarget data (bufferTarget b w)).byteAt b a = s.byteAt b a := by
  rw [State.byteAt_writeTarget_buffer, if_neg (by omega)]

/-- The word just written reads back: its four lanes do. -/
theorem State.bufferWord_writeTarget_buffer (s : State) (b : Buf) (w : Nat) (data : Word) :
    (s.writeTarget data (bufferTarget b w)).bufferWord b w = data := by
  have hlane := s.byteAt_writeTarget_buffer_lane b w data
  have hlane0 := hlane 0 (by decide)
  rw [Nat.add_zero] at hlane0
  rw [State.bufferWord, hlane0, hlane 1 (by decide), hlane 2 (by decide), hlane 3 (by decide), laneWord_laneByte]

/-- The read that follows a write of the same word. -/
theorem step_reading_buffer_written {s : State} (hp : s.params.Legal) (hr : s.rst = false) (hb : s.status.busy = false)
    (b : Buf) {w : Nat} (hw : w < bufferCap s.params b / 4) (data : Word) :
    step (Spec.reading (s.writeTarget data (bufferTarget b w)) (bufferBase b + 4 * w)) =
      .next (Spec.answered (s.writeTarget data (bufferTarget b w)) data) := by
  have h := step_reading_buffer (s := s.writeTarget data (bufferTarget b w)) (b := b) (w := w)
  rw [State.bufferWord_writeTarget_buffer] at h
  cases b <;> exact h hp hr hb hw

/-- Settles O52: for each buffer the written word is its four lanes, and every other byte stays. -/
theorem bufferWindowsReadBack : Obligations.BufferWindowsReadBack := by
  intro s w data hp hr hb
  have hread : ∀ b, w < bufferCap s.params b / 4 → ∃ d,
      step (Spec.reading s (bufferBase b + 4 * w)) = .next (Spec.answered s d) ∧
        ∀ k, k < 4 → laneByte d k = s.byteAt b (4 * w + k) :=
    fun b hw => ⟨s.bufferWord b w, step_reading_buffer hp hr hb hw, s.laneByte_bufferWord b w⟩
  refine ⟨fun hw => ?_, hread .msg, fun hw => ?_, hread .out⟩
  · exact ⟨_, step_writing_buffer (b := .msg) hp hr hb hw data, rfl, s.byteAt_writeTarget_buffer_lane .msg w data,
      s.byteAt_writeTarget_buffer_ne .msg w data, step_reading_buffer_written hp hr hb .msg hw data⟩
  · exact ⟨_, step_writing_buffer (b := .out) hp hr hb hw data, rfl, s.byteAt_writeTarget_buffer_lane .out w data,
      s.byteAt_writeTarget_buffer_ne .out w data, step_reading_buffer_written hp hr hb .out hw data⟩

end Sys2Proof.Machine
end

section
/-! ### Encoding and decoding (30_encoding.md R91 to R108)

Everything the decoder answers is said once, by `decode_ok_iff`: a word decodes to `i` when it matches the row of `i` in
the table of R96 and its fields hold the operands of `i`. -/

namespace Sys2Proof

/-! #### Rows of the opcode table: the opcode and the reserved bits -/

/-- The bits of `w` that a mask reserves below the opcode are 0 (30_encoding.md R98). -/
def ReservedClear (w mask : Word) : Prop := w &&& mask &&& 0x03FFFFFF#32 = 0#32

/-- A field that a mask covers is 0 where the reserved bits are. -/
theorem ReservedClear.extract_eq_zero {w mask : Word} (h : ReservedClear w mask) (start len : Nat)
    (hlow : (0x03FFFFFF#32).extractLsb' start len = BitVec.allOnes len)
    (hmask : mask.extractLsb' start len = BitVec.allOnes len) : w.extractLsb' start len = 0#len := by
  have hfield := congrArg (BitVec.extractLsb' start len) h
  simpa only [BitVec.extractLsb'_and, hlow, hmask, BitVec.and_allOnes, BitVec.extractLsb'_zero] using hfield

/-- The opcode column of 30_encoding.md R96. -/
def Instr.opcode : Instr → BitVec 6
  | .nop => 0x00#6
  | .mov _ _ => 0x01#6
  | .ldi _ _ => 0x02#6
  | .mrtest _ _ _ => 0x08#6
  | .mrround _ _ _ => 0x09#6
  | .mrdecomp _ _ _ => 0x0A#6
  | .modexp _ _ _ _ _ => 0x10#6
  | .gcd _ _ _ => 0x11#6
  | .xgcd _ _ _ _ _ => 0x12#6
  | .modinv _ _ _ => 0x13#6
  | .bsize _ _ => 0x18#6
  | .bsplit _ _ => 0x19#6
  | .bjoin _ => 0x1A#6
  | .utf8chk => 0x1B#6

theorem rowOf_mem_opcodeTable (i : Instr) : Spec.rowOf i ∈ Spec.opcodeTable := by
  cases i <;> simp [Spec.rowOf, Spec.opcodeTable]

/-- The table lists the row of each command and no other: one command of each row, in its order. -/
theorem exists_rowOf_eq {row : Word × Word} (h : row ∈ Spec.opcodeTable) : ∃ i, Spec.rowOf i = row := by
  have htable : Spec.opcodeTable =
      [.nop, .mov 0 0, .ldi 0 0, .mrtest 0 0 0, .mrround 0 0 0, .mrdecomp 0 0 0, .modexp 0 0 0 0 .binary, .gcd 0 0 0,
        .xgcd 0 0 0 0 0, .modinv 0 0 0, .bsize 0 0, .bsplit 0 0, .bjoin 0, .utf8chk].map Spec.rowOf := rfl
  rw [htable, List.mem_map] at h
  obtain ⟨i, -, hi⟩ := h
  exact ⟨i, hi⟩

theorem opcOf_rowOf_fst (i : Instr) : opcOf (Spec.rowOf i).1 = i.opcode := by
  cases i <;> simp [Spec.rowOf, opcOf, Instr.opcode]

/-- No match value has a bit below the opcode. -/
theorem rowOf_fst_low (i : Instr) : (Spec.rowOf i).1 &&& 0x03FFFFFF#32 = 0#32 := by
  cases i <;> simp [Spec.rowOf]

/-- Every mask covers the opcode. -/
theorem opcOf_rowOf_snd (i : Instr) : opcOf (Spec.rowOf i).2 = 0x3F#6 := by
  cases i <;> simp [Spec.rowOf, opcOf]

theorem opcOf_and_mask (w : Word) (i : Instr) : opcOf (w &&& (Spec.rowOf i).2) = opcOf w := by
  calc opcOf (w &&& (Spec.rowOf i).2)
    _ = opcOf w &&& opcOf (Spec.rowOf i).2 := BitVec.extractLsb'_and
    _ = opcOf w := by rw [opcOf_rowOf_snd]; exact BitVec.and_allOnes

/-- Two words with one opcode and the same bits below it are equal. -/
theorem eq_of_opcOf_eq {v w : Word} (hopc : opcOf v = opcOf w)
    (hlow : v &&& 0x03FFFFFF#32 = w &&& 0x03FFFFFF#32) : v = w := by
  have hsplit (u : Word) : opcOf u ++ u.extractLsb' 0 26 = u := by
    rw [opcOf, BitVec.extractLsb'_append_extractLsb'_eq_extractLsb' (by rfl), BitVec.extractLsb'_eq_self]
  have hmask : (0x03FFFFFF#32).extractLsb' 0 26 = BitVec.allOnes 26 := rfl
  have hfield := congrArg (BitVec.extractLsb' 0 26) hlow
  rw [BitVec.extractLsb'_and, BitVec.extractLsb'_and, hmask, BitVec.and_allOnes, BitVec.and_allOnes] at hfield
  rw [← hsplit v, ← hsplit w, hopc, hfield]

/-- Matching a row is two things: the opcode and the reserved bits (30_encoding.md R97, R98). -/
theorem matches_iff (w : Word) (i : Instr) :
    w &&& (Spec.rowOf i).2 = (Spec.rowOf i).1 ↔ opcOf w = i.opcode ∧ ReservedClear w (Spec.rowOf i).2 := by
  rw [← opcOf_and_mask w i, ← opcOf_rowOf_fst i]
  constructor
  · intro h
    rw [ReservedClear, h]
    exact ⟨rfl, rowOf_fst_low i⟩
  · rintro ⟨hopc, hres⟩
    exact eq_of_opcOf_eq hopc (hres.trans (rowOf_fst_low i).symm)

/-! #### The decoder, row by row -/

/-- The command of the same row whose operands are the fields of `w` (30_encoding.md R106). -/
def Instr.withFieldsOf (w : Word) : Instr → Instr
  | .nop => .nop
  | .mov _ _ => .mov (f1Of w) (f2Of w)
  | .ldi _ _ => .ldi (f1Of w) (imm22Of w)
  | .mrtest _ _ _ => .mrtest (f1Of w) (f2Of w) (imm6Of w).toFin
  | .mrround _ _ _ => .mrround (f1Of w) (f2Of w) (f3Of w)
  | .mrdecomp _ _ _ => .mrdecomp (f1Of w) (f2Of w) (f3Of w)
  | .modexp _ _ _ _ _ => .modexp (f1Of w) (f2Of w) (f3Of w) (f4Of w) (methodOf w)
  | .gcd _ _ _ => .gcd (f1Of w) (f2Of w) (f3Of w)
  | .xgcd _ _ _ _ _ => .xgcd (f1Of w) (f2Of w) (f3Of w) (f4Of w) (f5Of w)
  | .modinv _ _ _ => .modinv (f1Of w) (f2Of w) (f3Of w)
  | .bsize _ _ => .bsize (f1Of w) (f2Of w)
  | .bsplit _ _ => .bsplit (f1Of w) (f2Of w)
  | .bjoin _ => .bjoin (f2Of w)
  | .utf8chk => .utf8chk

theorem rowOf_withFieldsOf (w : Word) (i : Instr) : Spec.rowOf (i.withFieldsOf w) = Spec.rowOf i := by cases i <;> rfl

theorem withFieldsOf_withFieldsOf (w : Word) (i : Instr) :
    (i.withFieldsOf w).withFieldsOf w = i.withFieldsOf w := by cases i <;> rfl

/-- A word with the opcode of a row is read by that row. -/
theorem decode_eq_takeRow {w : Word} {i : Instr} (h : opcOf w = i.opcode) :
    decode w = takeRow w (Spec.rowOf i).2 (i.withFieldsOf w) := by
  cases i <;> simp only [decode, h] <;> rfl

theorem opcOf_of_decode {w : Word} {i : Instr} (h : decode w = .ok i) : opcOf w = i.opcode := by
  unfold decode at h
  split at h
  case h_15 => cases h
  all_goals
    obtain ⟨_, rfl⟩ := (takeRow_ok ..).mp h
    exact BitVec.eq_of_toNat_eq ‹_›

/-- What the decoder answers (30_encoding.md R96 to R98, R102). -/
theorem decode_ok_iff (w : Word) (i : Instr) :
    decode w = .ok i ↔ w &&& (Spec.rowOf i).2 = (Spec.rowOf i).1 ∧ i.withFieldsOf w = i := by
  rw [matches_iff]
  constructor
  · intro h
    have hopc := opcOf_of_decode h
    rw [decode_eq_takeRow hopc, takeRow_ok] at h
    exact ⟨⟨hopc, h.1⟩, h.2⟩
  · rintro ⟨⟨hopc, hres⟩, hfields⟩
    rw [decode_eq_takeRow hopc, takeRow_ok]
    exact ⟨hres, hfields⟩

/-- Settles O3: by `decode_ok_iff`, a row's command being one with the fields of the word. -/
theorem decodeFollowsOpcodeTable : Obligations.DecodeFollowsOpcodeTable := by
  constructor
  · intro w i h
    exact ⟨rowOf_mem_opcodeTable i, ((decode_ok_iff w i).mp h).1⟩
  · intro w row hrow hw
    obtain ⟨i, rfl⟩ := exists_rowOf_eq hrow
    refine ⟨i.withFieldsOf w, (decode_ok_iff w _).mpr ⟨?_, withFieldsOf_withFieldsOf w i⟩, rowOf_withFieldsOf w i⟩
    rw [rowOf_withFieldsOf]
    exact hw

/-! #### Decoding an encoding -/

theorem opcOf_encode (i : Instr) : opcOf (encode i) = i.opcode := by
  cases i <;> simp only [encode, opcOf_formatR, opcOf_formatI, Instr.opcode]

theorem withFieldsOf_encode (i : Instr) : i.withFieldsOf (encode i) = i := by
  cases i <;> simp [encode, Instr.withFieldsOf]

theorem encode_reservedClear (i : Instr) : ReservedClear (encode i) (Spec.rowOf i).2 := by
  cases i with
  | nop => exact Laws.ReservedBits.nop
  | mov => exact Laws.ReservedBits.mov ..
  | ldi => exact Laws.ReservedBits.ldi ..
  | mrtest => exact Laws.ReservedBits.mrtest ..
  | mrround => exact Laws.ReservedBits.mrround ..
  | mrdecomp => exact Laws.ReservedBits.mrdecomp ..
  | modexp => exact Laws.ReservedBits.modexp ..
  | gcd => exact Laws.ReservedBits.gcd ..
  | xgcd => exact Laws.ReservedBits.xgcd ..
  | modinv => exact Laws.ReservedBits.modinv ..
  | bsize => exact Laws.ReservedBits.bsize ..
  | bsplit => exact Laws.ReservedBits.bsplit ..
  | bjoin => exact Laws.ReservedBits.bjoin ..
  | utf8chk => exact Laws.ReservedBits.utf8chk

/-- Settles O1: an encoding matches its row, and its fields are the command's operands. -/
theorem decodeEncodeRoundTrip : Obligations.DecodeEncodeRoundTrip := fun i =>
  (decode_ok_iff _ i).mpr ⟨(matches_iff _ i).mpr ⟨opcOf_encode i, encode_reservedClear i⟩, withFieldsOf_encode i⟩

/-! #### Encoding what was decoded -/

/-- A word is its fields in format R (30_encoding.md R91). -/
theorem formatR_eq_of_fields {w : Word} {opc : BitVec 6} {f1 f2 f3 f4 f5 : RegIx} {imm6 : BitVec 6} (ho : opcOf w = opc)
    (h1 : f1Of w = f1) (h2 : f2Of w = f2) (h3 : f3Of w = f3) (h4 : f4Of w = f4) (h5 : f5Of w = f5)
    (h6 : imm6Of w = imm6) : formatR opc f1 f2 f3 f4 f5 imm6 = w := by
  subst ho h1 h2 h3 h4 h5 h6
  simp only [formatR, opcOf, f1Of, f2Of, f3Of, f4Of, f5Of, imm6Of, BitVec.ofFin_toFin]
  iterate 6 rw [BitVec.extractLsb'_append_extractLsb'_eq_extractLsb' (by rfl)]
  exact BitVec.extractLsb'_eq_self

/-- A word is its fields in format I (30_encoding.md R92). -/
theorem formatI_eq_of_fields {w : Word} {opc : BitVec 6} {f1 : RegIx} {imm22 : BitVec 22} (ho : opcOf w = opc)
    (h1 : f1Of w = f1) (h22 : imm22Of w = imm22) : formatI opc f1 imm22 = w := by
  subst ho h1 h22
  simp only [formatI, opcOf, f1Of, imm22Of, BitVec.ofFin_toFin]
  iterate 2 rw [BitVec.extractLsb'_append_extractLsb'_eq_extractLsb' (by rfl)]
  exact BitVec.extractLsb'_eq_self

theorem Method.toNat_imm6_lt (m : Method) : m.imm6.toNat < 2 := by cases m <;> decide

section ReservedFields

variable {w mask : Word} (h : ReservedClear w mask)
include h

theorem ReservedClear.f1 (hm : mask.extractLsb' 22 4 = 0xF#4) : f1Of w = 0 :=
  congrArg BitVec.toFin (h.extract_eq_zero 22 4 rfl hm)

theorem ReservedClear.f2 (hm : mask.extractLsb' 18 4 = 0xF#4) : f2Of w = 0 :=
  congrArg BitVec.toFin (h.extract_eq_zero 18 4 rfl hm)

theorem ReservedClear.f3 (hm : mask.extractLsb' 14 4 = 0xF#4) : f3Of w = 0 :=
  congrArg BitVec.toFin (h.extract_eq_zero 14 4 rfl hm)

theorem ReservedClear.f4 (hm : mask.extractLsb' 10 4 = 0xF#4) : f4Of w = 0 :=
  congrArg BitVec.toFin (h.extract_eq_zero 10 4 rfl hm)

theorem ReservedClear.f5 (hm : mask.extractLsb' 6 4 = 0xF#4) : f5Of w = 0 :=
  congrArg BitVec.toFin (h.extract_eq_zero 6 4 rfl hm)

theorem ReservedClear.imm6 (hm : mask.extractLsb' 0 6 = 0x3F#6) : imm6Of w = 0#6 := h.extract_eq_zero 0 6 rfl hm

/-- Where IMM6 is reserved but for bit 0, it is the method bit (30_encoding.md R99). -/
theorem ReservedClear.method (hm : mask.extractLsb' 1 5 = 0x1F#5) : imm6Of w = (methodOf w).imm6 := by
  have hsplit : imm6Of w = w.extractLsb' 1 5 ++ w.extractLsb' 0 1 := by
    rw [BitVec.extractLsb'_append_extractLsb'_eq_extractLsb' (by rfl)]
    rfl
  have hlow : w.extractLsb' 0 1 = BitVec.ofBool (w.getLsbD 0) := by
    ext k hk
    simp [show k = 0 by omega]
  rw [hsplit, h.extract_eq_zero 1 5 rfl hm, hlow, methodOf]
  cases w.getLsbD 0 <;> rfl

end ReservedFields

/-- A word that matches a row is the encoding of what the row reads in it. -/
theorem encode_withFieldsOf {w : Word} {i : Instr} (hopc : opcOf w = i.opcode)
    (hres : ReservedClear w (Spec.rowOf i).2) : encode (i.withFieldsOf w) = w := by
  cases i
  all_goals dsimp only [Spec.rowOf] at hres
  case nop =>
    exact formatR_eq_of_fields hopc (hres.f1 rfl) (hres.f2 rfl) (hres.f3 rfl) (hres.f4 rfl) (hres.f5 rfl) (hres.imm6 rfl)
  case mov => exact formatR_eq_of_fields hopc rfl rfl (hres.f3 rfl) (hres.f4 rfl) (hres.f5 rfl) (hres.imm6 rfl)
  case ldi => exact formatI_eq_of_fields hopc rfl rfl
  case mrtest => exact formatR_eq_of_fields hopc rfl rfl (hres.f3 rfl) (hres.f4 rfl) (hres.f5 rfl) rfl
  case mrround => exact formatR_eq_of_fields hopc rfl rfl rfl (hres.f4 rfl) (hres.f5 rfl) (hres.imm6 rfl)
  case mrdecomp => exact formatR_eq_of_fields hopc rfl rfl rfl (hres.f4 rfl) (hres.f5 rfl) (hres.imm6 rfl)
  case modexp => exact formatR_eq_of_fields hopc rfl rfl rfl rfl (hres.f5 rfl) (hres.method rfl)
  case gcd => exact formatR_eq_of_fields hopc rfl rfl rfl (hres.f4 rfl) (hres.f5 rfl) (hres.imm6 rfl)
  case xgcd => exact formatR_eq_of_fields hopc rfl rfl rfl rfl rfl (hres.imm6 rfl)
  case modinv => exact formatR_eq_of_fields hopc rfl rfl rfl (hres.f4 rfl) (hres.f5 rfl) (hres.imm6 rfl)
  case bsize => exact formatR_eq_of_fields hopc rfl rfl (hres.f3 rfl) (hres.f4 rfl) (hres.f5 rfl) (hres.imm6 rfl)
  case bsplit => exact formatR_eq_of_fields hopc rfl rfl (hres.f3 rfl) (hres.f4 rfl) (hres.f5 rfl) (hres.imm6 rfl)
  case bjoin =>
    exact formatR_eq_of_fields hopc (hres.f1 rfl) rfl (hres.f3 rfl) (hres.f4 rfl) (hres.f5 rfl) (hres.imm6 rfl)
  case utf8chk =>
    exact formatR_eq_of_fields hopc (hres.f1 rfl) (hres.f2 rfl) (hres.f3 rfl) (hres.f4 rfl) (hres.f5 rfl) (hres.imm6 rfl)

/-- Settles O2: the word matches its command's row, so its reserved fields are 0. -/
theorem encodeDecodeRoundTrip : Obligations.EncodeDecodeRoundTrip := by
  intro w i h
  obtain ⟨hrow, hfields⟩ := (decode_ok_iff w i).mp h
  obtain ⟨hopc, hres⟩ := (matches_iff w i).mp hrow
  rw [← hfields]
  exact encode_withFieldsOf hopc hres

/-- Settles O4, by evaluating the decoder on the nine words. -/
theorem specWordsDecode : Obligations.SpecWordsDecode := by
  unfold Obligations.SpecWordsDecode
  decide

end Sys2Proof
end

section
/-! ### The checks before a command's own rule (30_encoding.md R97 to R104), and the assembler

The checks in the order of R102: the opcode and the reserved bits, distinct destinations, valid sources. -/

namespace Sys2Proof.Machine

/-! #### Words that match no row -/

theorem toNat_opcOf (w : Word) : (opcOf w).toNat = w.toNat / 2 ^ 26 := by
  rw [opcOf, BitVec.extractLsb'_toNat, Nat.shiftRight_eq_div_pow]
  omega

/-- The opcodes of the commands are assigned (30_encoding.md R97). -/
theorem not_unassigned_opcode (i : Instr) : ¬ Spec.Unassigned i.opcode.toNat := by
  cases i <;> simp [Spec.Unassigned, Instr.opcode]

/-- A turn on a pending word that is no command (30_encoding.md R97). -/
theorem engineStep_of_not_decoded {s : State} (hr : s.rst = false) (hb : s.status.busy = true)
    (h : ∀ i, decode s.lastCmd ≠ .ok i) : engineStep s = .next (s.fail .illegal) := by
  rw [engineStep, if_neg (by simp [hr]), if_pos hb]
  split
  case h_1 i hi => exact absurd hi (h i)
  case h_2 => rfl

section ModexpWord

variable (f1 f2 f3 f4 f5 : RegIx) {imm6 : Nat} (h : imm6 < 64)
include h

theorem opcOf_wordR_modexp : opcOf (Spec.wordR 0x10 f1 f2 f3 f4 f5 imm6) = 0x10#6 := by
  apply BitVec.eq_of_toNat_eq
  rw [toNat_opcOf, Spec.wordR, BitVec.toNat_ofNat, BitVec.toNat_ofNat]
  omega

theorem imm6Of_wordR_modexp : (imm6Of (Spec.wordR 0x10 f1 f2 f3 f4 f5 imm6)).toNat = imm6 := by
  rw [imm6Of, BitVec.extractLsb'_toNat, Spec.wordR, BitVec.toNat_ofNat, Nat.shiftRight_zero]
  omega

end ModexpWord

/-- A word with the opcode of MODEXP that matches a row has an IMM6 below 2 (30_encoding.md R99). -/
theorem toNat_imm6Of_lt_of_matches {w : Word} {i : Instr} (hw : w &&& (Spec.rowOf i).2 = (Spec.rowOf i).1)
    (hopc : opcOf w = 0x10#6) : (imm6Of w).toNat < 2 := by
  obtain ⟨hopcode, hres⟩ := (matches_iff w i).mp hw
  rw [hopc] at hopcode
  cases i
  case modexp =>
    dsimp only [Spec.rowOf] at hres
    rw [hres.method rfl]
    exact Method.toNat_imm6_lt _
  all_goals cases hopcode

/-- Settles O5: a word that decodes matches its row, and a row fixes the opcode and the reserved bits. -/
theorem unmatchedWordsAreIllegal : Obligations.UnmatchedWordsAreIllegal := by
  refine ⟨?_, ?_, ?_⟩
  · intro s hin hr hb hno
    have hstep : step s = engineStep s := by simp [step, hin]
    rw [hstep]
    exact engineStep_of_not_decoded hr hb fun i hi =>
      hno _ (rowOf_mem_opcodeTable i) ((decode_ok_iff _ i).mp hi).1
  · intro w hun row hrow hw
    obtain ⟨i, rfl⟩ := exists_rowOf_eq hrow
    obtain ⟨hopc, -⟩ := (matches_iff w i).mp hw
    rw [← toNat_opcOf, hopc] at hun
    exact not_unassigned_opcode i hun
  · intro f1 f2 f3 f4 f5 imm6 h2 h64 row hrow hw
    obtain ⟨i, rfl⟩ := exists_rowOf_eq hrow
    have hlt := toNat_imm6Of_lt_of_matches hw (opcOf_wordR_modexp f1 f2 f3 f4 f5 h64)
    rw [imm6Of_wordR_modexp f1 f2 f3 f4 f5 h64] at hlt
    omega

/-! #### Equal destinations -/

theorem wellFormed_mrdecomp {rd rr rn : RegIx} : (Instr.mrdecomp rd rr rn).wellFormed = true ↔ rd ≠ rr := by
  simp [Instr.wellFormed, Instr.dests]

theorem wellFormed_xgcd {rg rx ry ra rb : RegIx} :
    (Instr.xgcd rg rx ry ra rb).wellFormed = true ↔ ¬ (rg = rx ∨ rg = ry ∨ rx = ry) := by
  simp [Instr.wellFormed, Instr.dests, and_assoc]

/-- Settles O6: the first check of XGCD and MRDECOMP, and `Raised` for every command. -/
theorem onlyEqualDestinationsAreIllegal : Obligations.OnlyEqualDestinationsAreIllegal := by
  refine ⟨?_, ?_, ?_⟩
  · intro rg rx ry ra rb s heq
    exact if_pos heq
  · intro rd rn s
    exact if_pos rfl
  · intro i s t hwf _ hcode h
    obtain ⟨e, hraised, hx⟩ | ⟨u, -, hx⟩ | ⟨-, hx | hx⟩ := exec_cases i s <;> cases hx.symm.trans h
    · rintro rfl
      exact absurd (hraised.symm.trans hwf) (by decide)
    · simp
    · simp [hcode]

/-! #### Invalid sources -/

/-- An outcome of `s` reached by reading a list of sources first, in order, each through `src` (30_encoding.md R104). -/
inductive ReadsFirst (s : State) : List RegIx → Result → Prop where
  | done (r : Result) : ReadsFirst s [] r
  | src {i : RegIx} {is : List RegIx} {k : Nat → Result} (h : ∀ v, ReadsFirst s is (k v)) :
    ReadsFirst s (i :: is) (src i s k)

theorem ReadsFirst.unwritten {s : State} {is : List RegIx} {r : Result} (h : ReadsFirst s is r) {i : RegIx}
    (hi : i ∈ is) (hinvalid : s.isValid i = false) : r = .next (s.fail .unwritten) := by
  induction h with
  | done => cases hi
  | @src j is k _ ih =>
    cases hj : s.isValid j
    case false => exact src_invalid j s k hj
    case true =>
      rw [src_valid j s k hj]
      obtain rfl | hi := List.mem_cons.mp hi
      · exact absurd (hj.symm.trans hinvalid) (by decide)
      · exact ih _ hi

theorem ReadsFirst.one {s : State} {i : RegIx} {k : Nat → Result} : ReadsFirst s [i] (Machine.src i s k) :=
  .src fun v => .done (k v)

/-- A command with distinct destinations reads its sources before anything else (30_encoding.md R102). -/
theorem exec_readsFirst (i : Instr) (s : State) (hwf : i.wellFormed = true) : ReadsFirst s i.sources (exec i s) := by
  unfold exec
  cases i with
  | nop => exact .done _
  | mov => exact .one
  | ldi => exact .done _
  | mrtest => exact .one
  | mrround => exact .src fun _ => .one
  | mrdecomp =>
    dsimp only [execMrdecomp]
    rw [if_neg (wellFormed_mrdecomp.mp hwf)]
    exact .one
  | modexp => exact .src fun _ => .src fun _ => .one
  | gcd => exact .src fun _ => .one
  | xgcd =>
    dsimp only [execXgcd]
    rw [if_neg (wellFormed_xgcd.mp hwf)]
    exact .src fun _ => .one
  | modinv => exact .src fun _ => .one
  | bsize => exact .one
  | bsplit => exact .one
  | bjoin => exact .one
  | utf8chk => exact .done _

/-- Settles O37: the sources are read first, and the first invalid one ends the command. -/
theorem invalidSourceIsUnwritten : Obligations.InvalidSourceIsUnwritten := by
  rintro i s hwf ⟨r, hr, hinvalid⟩
  exact (exec_readsFirst i s hwf).unwritten hr (Bool.eq_false_iff.mpr hinvalid)

/-! #### Fixed lines -/

/-- Settles O7, by evaluating the assembler on the seven lines. -/
theorem assemblerLines : Obligations.AssemblerLines := by
  unfold Obligations.AssemblerLines
  decide

end Sys2Proof.Machine
end

section
/-! ### Primality: MRTEST, MRROUND, MRDECOMP (41_primality.md)

A round passes exactly by the criterion `Spec.StrongPass`, whatever decomposition of `n - 1` it is read with; MRROUND
and MRTEST are then read by that criterion, and a prime `n` meets it with every base. -/

namespace Sys2Proof.Machine

/-! #### Words by their sum (30_encoding.md R108) -/

theorem toNat_wordR {opc imm6 : Nat} (f1 f2 f3 f4 f5 : RegIx) (hopc : opc < 64) (himm : imm6 < 64) :
    (Spec.wordR opc f1 f2 f3 f4 f5 imm6).toNat = opc * 2 ^ 26 + f1.val * 2 ^ 22 + f2.val * 2 ^ 18 + f3.val * 2 ^ 14 +
      f4.val * 2 ^ 10 + f5.val * 2 ^ 6 + imm6 := by
  rw [Spec.wordR, BitVec.toNat_ofNat]
  omega

/-- The sum of the fields is format R: no field carries into the next. -/
theorem wordR_eq_formatR {opc imm6 : Nat} (f1 f2 f3 f4 f5 : RegIx) (hopc : opc < 64) (himm : imm6 < 64) :
    Spec.wordR opc f1 f2 f3 f4 f5 imm6 = formatR (BitVec.ofNat 6 opc) f1 f2 f3 f4 f5 (BitVec.ofNat 6 imm6) := by
  have hsum := toNat_wordR f1 f2 f3 f4 f5 hopc himm
  symm
  apply formatR_eq_of_fields
  case ho =>
    apply BitVec.eq_of_toNat_eq
    rw [toNat_opcOf, hsum, BitVec.toNat_ofNat, Nat.mod_eq_of_lt hopc]
    omega
  case h6 =>
    apply BitVec.eq_of_toNat_eq
    rw [imm6Of, BitVec.extractLsb'_toNat, hsum, BitVec.toNat_ofNat, Nat.shiftRight_zero]
    omega
  all_goals
    apply Fin.ext
    simp only [f1Of, f2Of, f3Of, f4Of, f5Of, BitVec.val_toFin, BitVec.extractLsb'_toNat, hsum,
      Nat.shiftRight_eq_div_pow]
    omega

/-- A word that sums up the fields of a command decodes to it. -/
theorem decode_wordR {i : Instr} {opc imm6 : Nat} (f1 f2 f3 f4 f5 : RegIx) (hopc : opc < 64) (himm : imm6 < 64)
    (hi : encode i = formatR (BitVec.ofNat 6 opc) f1 f2 f3 f4 f5 (BitVec.ofNat 6 imm6)) :
    decode (Spec.wordR opc f1 f2 f3 f4 f5 imm6) = .ok i := by
  rw [wordR_eq_formatR f1 f2 f3 f4 f5 hopc himm, ← hi]
  exact decodeEncodeRoundTrip i

/-! #### Verdicts -/

theorem writeVerdict_eq (s : State) (rd : RegIx) (pass : Bool) : s.writeVerdict rd pass = Spec.verdict s rd pass := by
  cases pass <;> rfl

/-- A completed verdict shows which it was, in P. -/
theorem verdict_injective {s : State} {rd : RegIx} {p q : Bool}
    (h : (.next (Spec.completed (Spec.verdict s rd p)) : Result) = .next (Spec.completed (Spec.verdict s rd q))) :
    p = q := by
  injection h with h
  exact congrArg (fun t => t.status.p) h

/-! #### The criterion of a round (41_primality.md R131, R132) -/

theorem mrRound_of_decomp {n d r : Nat} (h5 : 5 ≤ n) (hodd : n % 2 = 1) (hd : d % 2 = 1) (hn : n - 1 = d * 2 ^ r)
    (a : Nat) :
    mrRound n (decomp (n - 1)).1 (decomp (n - 1)).2 a = true ↔
      a ^ d % n = 1 ∨ ∃ j, j < r ∧ a ^ (2 ^ j * d) % n = n - 1 := by
  have hr : 1 ≤ r := Nat.one_le_iff_ne_zero.mpr fun h => by subst h; omega
  rw [hn, decomp_eq d r hd, ← hn]
  exact mrRound_eq n d r a (by omega) hr

/-- The round passes exactly by the criterion, which names no one decomposition. -/
theorem mrRound_iff_strongPass {n : Nat} (h5 : 5 ≤ n) (hodd : n % 2 = 1) (a : Nat) :
    mrRound n (decomp (n - 1)).1 (decomp (n - 1)).2 a = true ↔ Spec.StrongPass n a := by
  constructor
  · intro h
    obtain ⟨d, r, hd, hn⟩ := exists_decomp (n - 1) (by omega)
    exact ⟨d, r, hd, hn, (mrRound_of_decomp h5 hodd hd hn a).mp h⟩
  · rintro ⟨d, r, hd, hn, h⟩
    exact (mrRound_of_decomp h5 hodd hd hn a).mpr h

/-- Where 1 has no square roots but 1 and -1, squaring comes to 1 only from 1 itself or by way of -1. -/
theorem eq_one_or_neg_one_of_pow_two_pow {R : Type*} [CommRing R] [NoZeroDivisors R] {x : R} {r : Nat}
    (h : x ^ 2 ^ r = 1) : x = 1 ∨ ∃ j < r, x ^ 2 ^ j = -1 := by
  induction r with
  | zero => exact .inl (by simpa using h)
  | succ r ih =>
    rw [pow_succ, pow_mul, pow_two, mul_self_eq_one_iff] at h
    obtain h | h := h
    · exact (ih h).imp_right fun ⟨j, hj, hx⟩ => ⟨j, by omega, hx⟩
    · exact .inr ⟨r, by omega, h⟩

theorem mod_eq_iff_cast_eq {m c n : Nat} (hc : c < n) : m % n = c ↔ (m : ZMod n) = c := by
  rw [ZMod.natCast_eq_natCast_iff', Nat.mod_eq_of_lt hc]

/-- A prime passes with every base of the contract (41_primality.md R134): by Fermat's theorem `a^(n-1) = 1`, and -1 is
the one other square root of 1. -/
theorem strongPass_of_prime {n a : Nat} (hp : n.Prime) (ha : Spec.InContract n a) : Spec.StrongPass n a := by
  have : Fact n.Prime := ⟨hp⟩
  obtain ⟨h2, hle⟩ := ha
  obtain ⟨d, r, hd, hn⟩ := exists_decomp (n - 1) (by omega)
  have hneg : ((n - 1 : Nat) : ZMod n) = -1 := by rw [Nat.cast_pred hp.pos, ZMod.natCast_self, zero_sub]
  have hne : (a : ZMod n) ≠ 0 := by
    rw [Ne, ZMod.natCast_eq_zero_iff]
    exact Nat.not_dvd_of_pos_of_lt (by omega) (by omega)
  have hfermat : ((a : ZMod n) ^ d) ^ 2 ^ r = 1 := by
    rw [← pow_mul, ← hn]
    exact ZMod.pow_card_sub_one_eq_one hne
  refine ⟨d, r, hd, hn, (eq_one_or_neg_one_of_pow_two_pow hfermat).imp (fun h => ?_) fun ⟨j, hj, h⟩ => ⟨j, hj, ?_⟩⟩
  · rw [mod_eq_iff_cast_eq hp.one_lt, Nat.cast_pow, h, Nat.cast_one]
  · rw [mod_eq_iff_cast_eq (by omega), hneg, Nat.cast_pow, Nat.mul_comm, pow_mul, h]

/-! #### MRROUND (41_primality.md R137) -/

/-- The check of MRROUND is the source's contract (60_exceptions.md R300). -/
theorem outside_iff_not_inContract (n a : Nat) : (a < 2 ∨ n - 2 < a) ↔ ¬ Spec.InContract n a := by
  unfold Spec.InContract
  omega

section Mrround

variable {s : State} {rd rn ra : RegIx} (hn : Spec.Valid s rn) (ha : Spec.Valid s ra)
include hn ha

/-- A small case is decided whatever the base is. -/
theorem exec_mrround_of_smallCase {pass : Bool} (h : smallCase (s.reg rn) = some pass) :
    exec (.mrround rd rn ra) s = .next (Spec.completed (Spec.verdict s rd pass)) := by
  dsimp only [exec, execMrround]
  rw [src_valid rn s _ hn, src_valid ra s _ ha, h, ← writeVerdict_eq]
  rfl

variable (h5 : 5 ≤ s.reg rn) (hodd : s.reg rn % 2 = 1)
include h5 hodd

theorem exec_mrround_of_not_inContract (hc : ¬ Spec.InContract (s.reg rn) (s.reg ra)) :
    exec (.mrround rd rn ra) s = .next (Spec.failed s .operand) := by
  dsimp only [exec, execMrround]
  rw [src_valid rn s _ hn, src_valid ra s _ ha, (smallCase_eq_none _).mpr ⟨h5, hodd⟩]
  exact if_pos ((outside_iff_not_inContract _ _).mpr hc)

/-- The verdict of a round, by the criterion. -/
theorem exec_mrround_iff (hc : Spec.InContract (s.reg rn) (s.reg ra)) (pass : Bool) :
    exec (.mrround rd rn ra) s = .next (Spec.completed (Spec.verdict s rd pass)) ↔
      (pass = true ↔ Spec.StrongPass (s.reg rn) (s.reg ra)) := by
  have hround : exec (.mrround rd rn ra) s = .next (Spec.completed (Spec.verdict s rd
      (mrRound (s.reg rn) (decomp (s.reg rn - 1)).1 (decomp (s.reg rn - 1)).2 (s.reg ra)))) := by
    dsimp only [exec, execMrround]
    rw [src_valid rn s _ hn, src_valid ra s _ ha, (smallCase_eq_none _).mpr ⟨h5, hodd⟩, ← writeVerdict_eq]
    exact if_neg fun hout => (outside_iff_not_inContract _ _).mp hout hc
  rw [hround, ← mrRound_iff_strongPass h5 hodd, ← Bool.eq_iff_iff]
  constructor
  · exact fun h => (verdict_injective h).symm
  · rintro rfl
    rfl

end Mrround

/-- Settles O18: the small cases, the contract, and then the criterion of the round. -/
theorem mrroundDecidesOneBase : Obligations.MrroundDecidesOneBase := by
  refine ⟨fun rd rn ra => decode_wordR rd rn ra 0 0 (by decide) (by decide) rfl, fun rd rn ra s => ⟨?_, ?_⟩⟩
  · intro h
    refine invalidSourceIsUnwritten (.mrround rd rn ra) s rfl ?_
    by_cases hn : Spec.Valid s rn
    · exact ⟨ra, by simp [Instr.sources], fun ha => h ⟨hn, ha⟩⟩
    · exact ⟨rn, by simp [Instr.sources], hn⟩
  · intro hn ha
    refine ⟨fun h => ?_, fun h => ?_, fun h5 hodd => ⟨fun hc => ?_, fun hc hp => ?_, fun hc hp => ?_⟩⟩
    · exact exec_mrround_of_smallCase hn ha (smallCase_false _ h)
    · exact exec_mrround_of_smallCase hn ha (smallCase_true _ h)
    · exact exec_mrround_of_not_inContract hn ha h5 hodd hc
    · exact (exec_mrround_iff hn ha h5 hodd hc true).mpr (iff_of_true rfl hp)
    · exact (exec_mrround_iff hn ha h5 hodd hc false).mpr (iff_of_false Bool.false_ne_true hp)

/-! #### MRTEST (41_primality.md R133) -/

section Mrtest

variable {s : State} {rd rn : RegIx} {k : Fin 64} (hn : Spec.Valid s rn)
include hn

theorem exec_mrtest_of_smallCase {pass : Bool} (h : smallCase (s.reg rn) = some pass) :
    exec (.mrtest rd rn k) s = .next (Spec.completed (Spec.verdict s rd pass)) := by
  dsimp only [exec, execMrtest]
  rw [src_valid rn s _ hn, h, ← writeVerdict_eq]
  rfl

variable (h5 : 5 ≤ s.reg rn) (hodd : s.reg rn % 2 = 1)
include h5 hodd

/-- The verdict of the rounds is the command's, and the bases no round has taken stay delivered. -/
theorem exec_mrtest_of_rounds {pass : Bool} {rest : List Nat}
    (h : mrRounds (s.reg rn) (decomp (s.reg rn - 1)).1 (decomp (s.reg rn - 1)).2 k.val s.witness =
      .verdict pass rest) :
    exec (.mrtest rd rn k) s = .next (Spec.completed (Spec.verdict { s with witness := rest } rd pass)) := by
  dsimp only [exec, execMrtest]
  rw [src_valid rn s _ hn, (smallCase_eq_none _).mpr ⟨h5, hodd⟩, h, ← writeVerdict_eq]
  rfl

variable {bases : List Nat}
  (hpass : ∀ a ∈ bases, Spec.InContract (s.reg rn) a ∧ Spec.StrongPass (s.reg rn) a)
include hpass

theorem exec_mrtest_of_strongPass {rest : List Nat} (hw : s.witness = bases ++ rest) (hk : bases.length = k.val) :
    exec (.mrtest rd rn k) s = .next (Spec.completed (Spec.verdict { s with witness := rest } rd true)) := by
  refine exec_mrtest_of_rounds hn h5 hodd ?_
  rw [hw, ← hk]
  exact mrRounds_pass _ _ _ bases rest fun a ha => (hpass a ha).imp_right (mrRound_iff_strongPass h5 hodd a).mpr

theorem exec_mrtest_of_not_strongPass {a : Nat} {rest : List Nat} (hw : s.witness = bases ++ a :: rest)
    (hk : bases.length < k.val) (hc : Spec.InContract (s.reg rn) a) (hfail : ¬ Spec.StrongPass (s.reg rn) a) :
    exec (.mrtest rd rn k) s = .next (Spec.completed (Spec.verdict { s with witness := rest } rd false)) := by
  refine exec_mrtest_of_rounds hn h5 hodd ?_
  obtain ⟨m, hm⟩ : ∃ m, k.val = bases.length + (m + 1) := ⟨k.val - bases.length - 1, by omega⟩
  rw [hw, hm, mrRounds_append _ _ _ _ _ _ fun c hc => (hpass c hc).imp_right (mrRound_iff_strongPass h5 hodd c).mpr,
    mrRounds, if_pos (show 2 ≤ a ∧ a ≤ s.reg rn - 2 from hc),
    if_neg ((mrRound_iff_strongPass h5 hodd a).not.mpr hfail)]

end Mrtest

/-- Settles O14: the small cases, and the rounds up to the first base that fails the criterion. -/
theorem mrtestResultFromDraws : Obligations.MrtestResultFromDraws := by
  refine ⟨fun rd rn k => decode_wordR rd rn 0 0 0 (by decide) k.isLt (by simp [encode]),
    fun rd rn k s => ⟨?_, ?_, ?_, ?_⟩⟩
  · exact fun h => invalidSourceIsUnwritten (.mrtest rd rn k) s rfl ⟨rn, by simp [Instr.sources], h⟩
  · exact fun hn h => exec_mrtest_of_smallCase hn (smallCase_false _ h)
  · exact fun hn h => exec_mrtest_of_smallCase hn (smallCase_true _ h)
  · intro hn h5 hodd
    constructor
    · exact fun bases rest hw hk hpass => exec_mrtest_of_strongPass hn h5 hodd hpass hw hk
    · exact fun bases a rest hw hk hpass hc hfail => exec_mrtest_of_not_strongPass hn h5 hodd hpass hw hk hc hfail

/-- Settles O16: 2 and 3 are small cases, and every base of a greater prime meets the criterion. -/
theorem primePassesUnderEveryDraw : Obligations.PrimePassesUnderEveryDraw := by
  intro rd rn k s hn hp hc hk
  by_cases hsmall : s.reg rn = 2 ∨ s.reg rn = 3
  · exact ⟨s.witness, exec_mrtest_of_smallCase hn (smallCase_true _ hsmall)⟩
  · have hodd : s.reg rn % 2 = 1 := hp.eq_two_or_odd.resolve_left fun h => hsmall (.inl h)
    have h5 : 5 ≤ s.reg rn := by have : 2 ≤ s.reg rn := hp.two_le; omega
    refine ⟨s.witness.drop k.val, exec_mrtest_of_strongPass hn h5 hodd (bases := s.witness.take k.val) ?_
      (List.take_append_drop ..).symm (List.length_take_of_le hk)⟩
    intro a ha
    have hca := hc a (List.mem_of_mem_take ha)
    exact ⟨hca, strongPass_of_prime hp hca⟩

/-! #### MRTEST by MRROUNDs (41_primality.md R139) -/

/-- MRROUND with its base put into a register beside the candidate. -/
theorem exec_mrround_written_iff {s : State} {rn rb : RegIx} (rt : RegIx) (hne : rn ≠ rb) (hn : Spec.Valid s rn)
    (h5 : 5 ≤ s.reg rn) (hodd : s.reg rn % 2 = 1) {a : Nat} (hc : Spec.InContract (s.reg rn) a) (pass : Bool) :
    exec (.mrround rt rn rb) (Spec.written s rb a) =
        .next (Spec.completed (Spec.verdict (Spec.written s rb a) rt pass)) ↔
      (pass = true ↔ Spec.StrongPass (s.reg rn) a) := by
  have hrn : (s.setReg rb a).reg rn = s.reg rn := by simp [hne.symm]
  have hrb : (s.setReg rb a).reg rb = a := by simp
  have hvn : (s.setReg rb a).isValid rn = true := by simp [show s.isValid rn = true from hn]
  have hvb : (s.setReg rb a).isValid rb = true := by simp
  have h := exec_mrround_iff (s := s.setReg rb a) (rd := rt) hvn hvb (hrn ▸ h5) (hrn ▸ hodd) (by rwa [hrn, hrb]) pass
  rwa [hrn, hrb] at h

/-- A list splits at the first element that fails a property. -/
theorem exists_first_failure {α : Type*} {p : α → Prop} {l : List α} (h : ¬ ∀ a ∈ l, p a) :
    ∃ pre a post, l = pre ++ a :: post ∧ (∀ c ∈ pre, p c) ∧ ¬ p a := by
  classical
  obtain ⟨a, ha⟩ : ∃ a, l.find? (fun a => decide (¬ p a)) = some a := by
    rw [← Option.isSome_iff_exists, List.find?_isSome]
    simpa using h
  obtain ⟨hfail, pre, post, hl, hpre⟩ := List.find?_eq_some_iff_append.mp ha
  exact ⟨pre, a, post, hl, by simpa using hpre, by simpa using hfail⟩

/-- Settles O17: both commands decide a base by the criterion, MRTEST up to the first base that fails it. -/
theorem mrtestIsRepeatedMrround : Obligations.MrtestIsRepeatedMrround := by
  intro rd rn rt rb k s bases rest hne hn h5 hodd hw hk hc
  have hround := fun a ha => exec_mrround_written_iff rt hne hn h5 hodd (hc a ha)
  have hpassed : ∀ a ∈ bases, Spec.StrongPass (s.reg rn) a → exec (.mrround rt rn rb) (Spec.written s rb a) =
      .next (Spec.completed (Spec.verdict (Spec.written s rb a) rt true)) :=
    fun a ha h => (hround a ha true).mpr (iff_of_true rfl h)
  by_cases hall : ∀ a ∈ bases, Spec.StrongPass (s.reg rn) a
  · have hdrop : s.witness.drop k.val = rest := by rw [hw, ← hk, List.drop_left]
    refine ⟨true, k.val, ?_, le_rfl, iff_of_true rfl fun a ha => hpassed a ha (hall a ha), fun _ => rfl, nofun⟩
    rw [hdrop]
    exact exec_mrtest_of_strongPass hn h5 hodd (fun a ha => ⟨hc a ha, hall a ha⟩) hw hk
  · obtain ⟨pre, a, post, rfl, hpre, hfail⟩ := exists_first_failure hall
    have hmem : ∀ c ∈ pre, c ∈ pre ++ a :: post := fun c => List.mem_append_left _
    have ha : a ∈ pre ++ a :: post := by simp
    have hw' : s.witness = pre ++ a :: (post ++ rest) := by simpa using hw
    have hlt : pre.length < k.val := by rw [← hk]; simp
    have hdrop : s.witness.drop (pre.length + 1) = post ++ rest := by simp [hw']
    have hfailed := (hround a ha false).mpr (iff_of_false Bool.false_ne_true hfail)
    refine ⟨false, pre.length + 1, ?_, hlt, iff_of_false Bool.false_ne_true fun h => ?_, nofun, fun _ => ?_⟩
    · rw [hdrop]
      exact exec_mrtest_of_not_strongPass hn h5 hodd (fun c hcp => ⟨hc c (hmem c hcp), hpre c hcp⟩) hw' hlt (hc a ha)
        hfail
    · exact Bool.false_ne_true (verdict_injective (hfailed.symm.trans (h a ha)))
    · refine ⟨a, by simp, Nat.le_add_left .., hfailed, fun c hcp => ?_⟩
      rw [Nat.add_sub_cancel, List.take_left] at hcp
      exact hpassed c (hmem c hcp) (hpre c hcp)

/-! #### MRDECOMP (41_primality.md R138) -/

section Mrdecomp

variable {s : State} {rd rr rn : RegIx} (hne : rd ≠ rr) (hn : Spec.Valid s rn)
include hne hn

theorem exec_mrdecomp_of_le_one (h : s.reg rn ≤ 1) :
    exec (.mrdecomp rd rr rn) s = .next (Spec.failed s .operand) := by
  dsimp only [exec, execMrdecomp]
  rw [if_neg hne, src_valid rn s _ hn]
  exact if_pos h

/-- `decomp` finds whatever odd `d` and exponent `r` make up `n - 1`. -/
theorem exec_mrdecomp_of_decomp (h2 : 2 ≤ s.reg rn) {d r : Nat} (hd : d % 2 = 1) (hdr : s.reg rn - 1 = d * 2 ^ r) :
    exec (.mrdecomp rd rr rn) s = .next (Spec.completed (Spec.written (Spec.primary s rd d) rr r)) := by
  dsimp only [exec, execMrdecomp]
  rw [if_neg hne, src_valid rn s _ hn, if_neg (by omega), hdr, decomp_eq d r hd]
  rfl

end Mrdecomp

theorem exponent_lt_of_mul_two_pow_lt {d r w : Nat} (hd : d ≠ 0) (h : d * 2 ^ r < 2 ^ w) : r < w := by
  have hle : 2 ^ r ≤ d * 2 ^ r := Nat.le_mul_of_pos_left _ (Nat.pos_of_ne_zero hd)
  exact (Nat.pow_lt_pow_iff_right (by decide)).mp (hle.trans_lt h)

/-- Settles O19: the decomposition of `n - 1` is unique, and its exponent is below the width of the register. -/
theorem mrdecompSplitsPowerOfTwo : Obligations.MrdecompSplitsPowerOfTwo := by
  refine ⟨fun rd rr rn => decode_wordR rd rr rn 0 0 (by decide) (by decide) rfl,
    fun rd rr rn s => ⟨fun h => if_pos h, fun hne h => ?_, fun hne hn h => exec_mrdecomp_of_le_one hne hn h,
      fun hne hn h2 d r hd hdr => ⟨exec_mrdecomp_of_decomp hne hn h2 hd hdr, fun hfit => ?_⟩,
      fun h2 => exists_decomp _ (by omega)⟩⟩
  · exact invalidSourceIsUnwritten (.mrdecomp rd rr rn) s (wellFormed_mrdecomp.mpr hne)
      ⟨rn, by simp [Instr.sources], h⟩
  · exact Nat.le_sub_one_of_lt (exponent_lt_of_mul_two_pow_lt (d := d) (by omega) (by omega))

end Sys2Proof.Machine
end

section
/-! ### Modular arithmetic: MODEXP, GCD, XGCD, MODINV (42_modular.md)

`xgcd` computes exactly the triple of the recursion `Spec.Bezout`, so the rules of XGCD and MODINV are read with any
triple the recursion gives; the bound on the coefficients is then an induction along that recursion. -/

namespace Sys2Proof.Machine

/-- A command with distinct destinations and not all of its sources valid (30_encoding.md R104). -/
theorem exec_of_not_all_valid {i : Instr} {s : State} (hwf : i.wellFormed = true)
    (h : ¬ ∀ r ∈ i.sources, Spec.Valid s r) : exec i s = .next (Spec.failed s .unwritten) :=
  invalidSourceIsUnwritten i s hwf (by simpa using h)

/-! #### MODEXP (42_modular.md R170 to R173) -/

/-- The rule of MODEXP without its method. -/
theorem exec_modexp (rd rb re rm : RegIx) (method : Method) (s : State) :
    exec (.modexp rd rb re rm method) s =
      src rb s fun b => src re s fun e => src rm s fun m =>
        if m = 0 then raise .operand s else finish (s.writePrimary rd (b ^ e % m)) := by
  dsimp only [exec, execModexp]
  congr 1; funext b
  congr 1; funext e
  congr 1; funext m
  by_cases hm : m = 0
  · rw [if_pos hm, if_pos hm]
  · rw [if_neg hm, if_neg hm, modexp_eq method b e m hm]

/-- Settles O21: the rule of MODEXP names no method, and both loops compute the power. -/
theorem methodsAgree : Obligations.MethodsAgree :=
  ⟨fun rd rb re rm s => (exec_modexp rd rb re rm .binary s).trans (exec_modexp rd rb re rm .ladder s).symm,
    fun b e m hm => ⟨modexpBinary_eq b e m (Nat.one_le_iff_ne_zero.mp hm), modexpLadder_eq b e m⟩⟩

section Modexp

variable {s : State} {rd rb re rm : RegIx} {method : Method} (hb : Spec.Valid s rb) (he : Spec.Valid s re)
  (hm : Spec.Valid s rm)
include hb he hm

theorem exec_modexp_of_modulus_zero (h : s.reg rm = 0) :
    exec (.modexp rd rb re rm method) s = .next (Spec.failed s .operand) := by
  rw [exec_modexp, src_valid rb s _ hb, src_valid re s _ he, src_valid rm s _ hm, if_pos h]
  rfl

theorem exec_modexp_of_modulus_ne_zero (h : s.reg rm ≠ 0) :
    exec (.modexp rd rb re rm method) s =
      .next (Spec.completed (Spec.primary s rd (s.reg rb ^ s.reg re % s.reg rm))) := by
  rw [exec_modexp, src_valid rb s _ hb, src_valid re s _ he, src_valid rm s _ hm, if_neg h]
  rfl

end Modexp

/-- Settles O20: the sources, the modulus, and then the power by either method. -/
theorem modexpComputesPower : Obligations.ModexpComputesPower := by
  refine ⟨fun rd rb re rm => ⟨?_, ?_⟩, fun rd rb re rm method s => ⟨fun h => ?_, ?_, ?_⟩⟩
  · exact decode_wordR rd rb re rm 0 (by decide) (by decide) rfl
  · exact decode_wordR rd rb re rm 0 (by decide) (by decide) rfl
  · exact exec_of_not_all_valid rfl (by simpa [Instr.sources] using h)
  · exact fun hb he hm => exec_modexp_of_modulus_zero hb he hm
  · exact fun hb he hm => exec_modexp_of_modulus_ne_zero hb he hm

/-! #### GCD (42_modular.md R180) -/

theorem exec_gcd_of_valid {s : State} {rd ra rb : RegIx} (ha : Spec.Valid s ra) (hb : Spec.Valid s rb) :
    exec (.gcd rd ra rb) s = .next (Spec.completed (Spec.primary s rd (Nat.gcd (s.reg ra) (s.reg rb)))) := by
  dsimp only [exec, execGcd]
  rw [src_valid ra s _ ha, src_valid rb s _ hb, euclid_eq]
  rfl

/-- Settles O22: the Euclidean loop computes the library's greatest common divisor. -/
theorem gcdComputesGreatestCommonDivisor : Obligations.GcdComputesGreatestCommonDivisor := by
  refine ⟨fun rd ra rb => decode_wordR rd ra rb 0 0 (by decide) (by decide) rfl,
    fun rd ra rb s => ⟨fun h => ?_, fun ha hb => exec_gcd_of_valid ha hb⟩⟩
  exact exec_of_not_all_valid rfl (by simpa [Instr.sources] using h)

/-! #### The recursion of the Bezout pair (42_modular.md R187) -/

/-- The loop of R185 gives a triple of the recursion. -/
theorem bezout_xgcd (a b : Nat) : Spec.Bezout a b (xgcd a b).1 (xgcd a b).2.1 (xgcd a b).2.2 := by
  induction b using Nat.strong_induction_on generalizing a with
  | _ b ih =>
    by_cases hb : b = 0
    · subst hb
      exact .base a
    · rw [xgcd_rec a b hb]
      exact .step a b _ _ _ hb (ih (a % b) (Nat.mod_lt a (Nat.pos_of_ne_zero hb)) b)

/-- The recursion gives no other triple. -/
theorem xgcd_eq_of_bezout {a b g : Nat} {x y : Int} (h : Spec.Bezout a b g x y) : xgcd a b = (g, x, y) := by
  induction h with
  | base a => exact xgcd_zero a
  | step a b g x y hb _ ih => rw [xgcd_rec a b hb, ih]

theorem gcd_eq_of_bezout {a b g : Nat} {x y : Int} (h : Spec.Bezout a b g x y) : g = Nat.gcd a b := by
  rw [← xgcd_fst, xgcd_eq_of_bezout h]

theorem bezout_identity {a b g : Nat} {x y : Int} (h : Spec.Bezout a b g x y) : (a : Int) * x + b * y = g := by
  simpa [xgcd_eq_of_bezout h] using xgcd_bezout a b

/-! #### XGCD (42_modular.md R185) -/

theorem exec_xgcd_of_bezout {s : State} {rg rx ry ra rb : RegIx} (hgx : rg ≠ rx) (hgy : rg ≠ ry) (hxy : rx ≠ ry)
    (ha : Spec.Valid s ra) (hb : Spec.Valid s rb) {g : Nat} {x y : Int}
    (h : Spec.Bezout (s.reg ra) (s.reg rb) g x y) :
    exec (.xgcd rg rx ry ra rb) s = .next (Spec.completed (Spec.written (Spec.written (Spec.primary s rg g)
      rx (tw s.params.opw x)) ry (tw s.params.opw y))) := by
  dsimp only [exec, execXgcd]
  rw [if_neg (by simp [hgx, hgy, hxy]), src_valid ra s _ ha, src_valid rb s _ hb, xgcd_eq_of_bezout h]
  rfl

/-- Settles O23: the loop and the recursion give the same triple. -/
theorem xgcdWritesBezoutPair : Obligations.XgcdWritesBezoutPair := by
  refine ⟨fun rg rx ry ra rb => decode_wordR rg rx ry ra rb (by decide) (by decide) rfl,
    fun a b => ⟨_, _, _, bezout_xgcd a b⟩, fun a b g x y h => ⟨gcd_eq_of_bezout h, bezout_identity h⟩,
    fun rg rx ry ra rb s => ⟨fun heq => if_pos heq, fun hgx hgy hxy => ⟨fun h => ?_, ?_⟩⟩⟩
  · exact exec_of_not_all_valid (wellFormed_xgcd.mpr (by simp [hgx, hgy, hxy])) (by simpa [Instr.sources] using h)
  · exact fun ha hb g x y h => exec_xgcd_of_bezout hgx hgy hxy ha hb h

/-! #### The size of the Bezout pair (42_modular.md R186) -/

/-- The coefficients are at most half the opposite numbers, but for the 1 that a number dividing the other gets. -/
theorem two_mul_abs_le_of_bezout {a b g : Nat} {x y : Int} (h : Spec.Bezout a b g x y) (hb : b ≠ 0) :
    2 * |x| ≤ b ∧ 2 * |y| ≤ max 2 (a : Int) := by
  induction h with
  | base => exact absurd rfl hb
  | step a b g x y hb h ih =>
    by_cases hr : a % b = 0
    · rw [hr] at h
      obtain ⟨-, rfl, rfl⟩ : b = g ∧ 1 = x ∧ 0 = y := by simpa using xgcd_eq_of_bezout h
      simp
    · obtain ⟨hx, hy⟩ := ih hr
      have h2 : 2 ≤ b := by have := Nat.mod_lt a (Nat.pos_of_ne_zero hb); omega
      rw [max_eq_right (by exact_mod_cast h2)] at hy
      refine ⟨hy, le_max_of_le_right ?_⟩
      calc 2 * |x - (a / b : Nat) * y| ≤ 2 * |x| + (a / b : Nat) * (2 * |y|) := by
            have := abs_sub x ((a / b : Nat) * y)
            rw [abs_mul, Nat.abs_cast] at this
            linarith
        _ ≤ (a % b : Nat) + (a / b : Nat) * (b : Int) := by gcongr
        _ = a := by exact_mod_cast Nat.mod_add_div' a b

theorem abs_lt_of_bezout {opw a b g : Nat} {x y : Int} (hopw : 64 ≤ opw) (ha : a < 2 ^ opw) (hb : b < 2 ^ opw)
    (h : Spec.Bezout a b g x y) : |x| < 2 ^ (opw - 1) ∧ |y| < 2 ^ (opw - 1) := by
  have hhalf : (2 : Nat) ^ (opw - 1) + 2 ^ (opw - 1) = 2 ^ opw := Nat.two_pow_pred_add_two_pow_pred (by omega)
  have hone : (1 : Int) < 2 ^ (opw - 1) := one_lt_pow₀ (by decide) (by omega)
  zify at ha hb hhalf
  by_cases h0 : b = 0
  · subst h0
    obtain ⟨-, rfl, rfl⟩ : a = g ∧ 1 = x ∧ 0 = y := by simpa using xgcd_eq_of_bezout h
    exact ⟨by simpa using hone, by simp⟩
  · obtain ⟨hx, hy⟩ := two_mul_abs_le_of_bezout h h0
    omega

/-- Two's complement loses nothing of a number of that size. -/
theorem toInt_ofNat_tw {opw : Nat} {v : Int} (hopw : 0 < opw) (h : |v| < 2 ^ (opw - 1)) :
    (BitVec.ofNat opw (tw opw v)).toInt = v := by
  have heq : BitVec.ofNat opw (tw opw v) = BitVec.ofInt opw v := by
    apply BitVec.eq_of_toNat_eq
    rw [BitVec.toNat_ofNat, BitVec.toNat_ofInt, Nat.mod_eq_of_lt (tw_lt opw v), tw]
  obtain ⟨hlo, hhi⟩ := abs_lt.mp h
  rw [heq, BitVec.toInt_ofInt_eq_self hopw hlo.le hhi]

theorem x_written (s : State) (i j : RegIx) (v : Nat) :
    (Spec.written s i v).x[j.val] = if i = j then v else s.x[j.val] := s.reg_setReg i j v

/-- Settles O24: the coefficients are at most half the sources, so they fit and read back. -/
theorem bezoutCoefficientsFit : Obligations.BezoutCoefficientsFit := by
  constructor
  · intro opw a b g x y hopw ha hb h
    obtain ⟨hx, hy⟩ := abs_lt_of_bezout hopw ha hb h
    have hpos : 0 < opw := by omega
    exact ⟨(abs_lt.mp hx).imp_left le_of_lt, (abs_lt.mp hy).imp_left le_of_lt, toInt_ofNat_tw hpos hx,
      toInt_ofNat_tw hpos hy⟩
  · intro rg rx ry ra rb s g x y hopw hgx hgy hxy hva hvb ha hb h
    obtain ⟨hx, hy⟩ := abs_lt_of_bezout hopw ha hb h
    have hpos : 0 < s.params.opw := by omega
    refine ⟨_, exec_xgcd_of_bezout hgx hgy hxy hva hvb h, rfl, ?_, ?_, ?_⟩ <;> dsimp only [Spec.completed]
    · rw [x_written, if_neg hgy.symm, x_written, if_neg hgx.symm]
      exact (x_written s rg rg g).trans (if_pos rfl)
    · rw [x_written, if_neg hxy.symm, x_written, if_pos rfl, toInt_ofNat_tw hpos hx]
    · rw [x_written, if_pos rfl, toInt_ofNat_tw hpos hy]

/-! #### MODINV (42_modular.md R190, R191) -/

section Modinv

variable {s : State} {rd ra rm : RegIx} (ha : Spec.Valid s ra) (hm : Spec.Valid s rm)
include ha hm

theorem exec_modinv_of_modulus_zero (h : s.reg rm = 0) :
    exec (.modinv rd ra rm) s = .next (Spec.failed s .operand) := by
  dsimp only [exec, execModinv]
  rw [src_valid ra s _ ha, src_valid rm s _ hm, if_pos h]
  rfl

variable (h0 : s.reg rm ≠ 0)
include h0

theorem exec_modinv_of_gcd_ne_one (h : Nat.gcd (s.reg ra) (s.reg rm) ≠ 1) :
    exec (.modinv rd ra rm) s = .next (Spec.failed s .noInverse) := by
  dsimp only [exec, execModinv]
  rw [src_valid ra s _ ha, src_valid rm s _ hm, if_neg h0, if_pos (by rwa [xgcd_fst])]
  rfl

theorem exec_modinv_of_bezout {x y : Int} (h : Spec.Bezout (s.reg ra) (s.reg rm) 1 x y) :
    exec (.modinv rd ra rm) s = .next (Spec.completed (Spec.primary s rd (x % (s.reg rm : Int)).toNat)) := by
  dsimp only [exec, execModinv]
  rw [src_valid ra s _ ha, src_valid rm s _ hm, if_neg h0, xgcd_eq_of_bezout h, if_neg (not_not.mpr rfl)]
  rfl

end Modinv

/-- Settles O25: the sources, the modulus, the gcd, and then the coefficient of the recursion. -/
theorem modinvInvertsOrFails : Obligations.ModinvInvertsOrFails := by
  refine ⟨fun rd ra rm => decode_wordR rd ra rm 0 0 (by decide) (by decide) rfl,
    fun rd ra rm s => ⟨fun h => ?_, ?_, ?_, ?_⟩⟩
  · exact exec_of_not_all_valid rfl (by simpa [Instr.sources] using h)
  · exact fun ha hm h => exec_modinv_of_modulus_zero ha hm h
  · exact fun ha hm h0 h => exec_modinv_of_gcd_ne_one ha hm h0 h
  · exact fun ha hm h0 x y h => exec_modinv_of_bezout ha hm h0 h

/-- Modulo `m` the identity `a·x + m·y = 1` leaves `a·x`, so `x mod m` inverts `a`. -/
theorem mul_toNat_emod_mod {a m : Nat} {x y : Int} (hm : 1 < m) (h : (a : Int) * x + m * y = 1) :
    a * (x % (m : Int)).toNat % m = 1 := by
  have hcast : ((x % (m : Int)).toNat : Int) = x % m := Int.toNat_of_nonneg (Int.emod_nonneg x (by omega))
  zify
  calc (a : Int) * ((x % (m : Int)).toNat : Int) % m = (a * x + m * y) % m := by
        rw [hcast, Int.mul_emod, Int.emod_emod, ← Int.mul_emod, Int.add_mul_emod_self_left]
    _ = 1 := by rw [h, Int.emod_eq_of_lt (by decide) (by exact_mod_cast hm)]

/-- Inverses modulo `m` below `m` are unique: `c = c·(a·d) = (a·c)·d = d`. -/
theorem eq_of_mul_mod_eq_one {a m c d : Nat} (hc : c < m) (hd : d < m) (hac : a * c % m = 1) (had : a * d % m = 1) :
    c = d := by
  have hm : 1 % m = 1 := by rw [← hac, Nat.mod_mod]
  have hac' : a * c ≡ 1 [MOD m] := hac.trans hm.symm
  have had' : a * d ≡ 1 [MOD m] := had.trans hm.symm
  refine Nat.ModEq.eq_of_lt_of_lt (m := m) ?_ hc hd
  calc c = c * 1 := (Nat.mul_one c).symm
    _ ≡ c * (a * d) [MOD m] := had'.symm.mul_left c
    _ = a * c * d := by ring
    _ ≡ 1 * d [MOD m] := hac'.mul_right d
    _ = d := Nat.one_mul d

/-- Settles O26: the Bezout identity makes the result an inverse, and an inverse below `m` is unique. -/
theorem modinvWritesUniqueInverse : Obligations.ModinvWritesUniqueInverse := by
  intro rd ra rm s ha hm h1 hg
  change 1 < s.reg rm at h1
  have hb := bezout_xgcd (s.reg ra) (s.reg rm)
  rw [xgcd_fst, show Nat.gcd (s.reg ra) (s.reg rm) = 1 from hg] at hb
  have hlt := toNat_emod_lt (xgcd (s.reg ra) (s.reg rm)).2.1 (m := s.reg rm) (by omega)
  have hinv := mul_toNat_emod_mod h1 (bezout_identity hb)
  refine ⟨_, exec_modinv_of_bezout ha hm (by omega) hb, ?_, Nat.le_sub_one_of_lt hlt, hinv, fun c _ hc hac => ?_⟩
  · refine Nat.one_le_iff_ne_zero.mpr fun h => ?_
    rw [h, Nat.mul_zero, Nat.zero_mod] at hinv
    exact absurd hinv (by decide)
  · exact eq_of_mul_mod_eq_one (lt_of_le_of_lt hc (by change s.reg rm - 1 < _; omega)) hlt hac hinv

end Sys2Proof.Machine
end

section
/-! ### The block codec: BSIZE, BSPLIT, BJOIN, UTF8CHK, and the RSA identity (43_block_codec.md)

The model's block size, big-endian number and UTF-8 scan are each shown equal to what `Sys2Proof.Spec` writes a second
time; the commands are then read by their own equations, one per branch. -/

namespace Sys2Proof.Machine

/-! #### Block sizes and big-endian numbers -/

theorem blockSize_eq_bs (n : Nat) : blockSize n = Spec.bs n := by rw [blockSize, bitlen_eq_size, Spec.bs]

theorem bs_le_of_lt_two_pow {n w : Nat} (h : n < 2 ^ w) : Spec.bs n ≤ (w - 1) / 8 :=
  Nat.div_le_div_right (Nat.sub_le_sub_right (Nat.size_le.mpr h) 1)

theorem ne_zero_of_bs_ne_zero {n : Nat} (h : Spec.bs n ≠ 0) : n ≠ 0 := by
  rintro rfl
  exact h (by simp [Spec.bs])

theorem be_memRead_eq_beSum (s : State) (b : Buf) (a k : Nat) : be (s.memRead b a k) = Spec.beSum s b a k := by
  induction k generalizing a with
  | zero => rfl
  | succ k ih =>
    rw [State.memRead_succ, be_cons, State.length_memRead, ih, Spec.beSum, Spec.beSum, Finset.sum_range_succ',
      Nat.add_comm]
    refine congrArg₂ (· + ·) (Finset.sum_congr rfl fun i _ => ?_) rfl
    rw [show a + 1 + i = a + (i + 1) by omega, show k + 1 - 1 - (i + 1) = k - 1 - i by omega]

/-- A minimal representation has no leading zero byte: without it the number would fit in one byte less. -/
theorem mbe_head_ne_zero {v : Nat} {b : Byte} {bs : List Byte} (h : mbe v = b :: bs) : b ≠ 0 := by
  rintro rfl
  have hv : v = be bs := by simpa [h, be_cons] using (be_mbe v).symm
  have hshort : bitlen v ≤ 8 * bs.length := by
    rw [bitlen_le_iff, pow_mul, hv]
    exact be_lt bs
  have hlen : (bitlen v + 7) / 8 = bs.length + 1 := by rw [← length_mbe, h, List.length_cons]
  omega

theorem length_mbe_eq_size (v : Nat) : (mbe v).length = (Nat.size v + 7) / 8 := by rw [length_mbe, bitlen_eq_size]

theorem State.memRead_outWrite (s : State) (a : Nat) (bs : List Byte) :
    (s.outWrite a bs).memRead .out a bs.length = bs := by
  apply List.ext_getElem (by simp)
  intro j hj _
  have hlt : j < bs.length := by simpa using hj
  simp [State.memRead, State.byteAt_outWrite, hlt]

theorem State.byteAt_outWrite_outside (s : State) {a i : Nat} {bs : List Byte} (h : i < a ∨ a + bs.length ≤ i) :
    (s.outWrite a bs).byteAt .out i = s.byteAt .out i := by
  rw [State.byteAt_outWrite, dif_neg (by omega)]

theorem State.byteAt_outWrite_mbe_ne_zero (s : State) (a : Nat) {v : Nat} (h0 : v ≠ 0) :
    (s.outWrite a (mbe v)).byteAt .out a ≠ 0 := by
  obtain ⟨b, bs, hb⟩ := List.exists_cons_of_ne_nil (l := mbe v) fun hnil => h0 (by rw [← be_mbe v, hnil, be_nil])
  rw [hb, State.byteAt_outWrite, dif_pos (by simp)]
  simpa using mbe_head_ne_zero hb

/-! #### Ends of a command -/

theorem exec_ne_failed {i : Instr} {s t : State} (h : exec i s = .next t) (herr : t.status.err = false) {e : ErrCode} :
    exec i s ≠ .next (Spec.failed s e) := by
  intro hf
  cases hf.symm.trans h
  cases herr

/-- A command other than MRTEST that ends without an error has made its writes. -/
theorem writes_of_exec {i : Instr} {s t : State} (hi : ¬ Spec.IsMrtest i) (h : exec i s = .next t)
    (herr : t.status.err = false) : ∃ u, Writes i s u ∧ t = u.succeed := by
  obtain ⟨e, _, hx⟩ | ⟨u, hw, hx⟩ | ⟨⟨_, _, _, rfl⟩, _⟩ := exec_cases i s
  · cases hx.symm.trans h
    simp at herr
  · cases hx.symm.trans h
    exact ⟨u, hw, rfl⟩
  · exact absurd trivial hi

/-! #### BSIZE (43_block_codec.md R221) -/

section Bsize

variable {s : State} {rd rn : RegIx} (hn : Spec.Valid s rn)
include hn

theorem exec_bsize_of_zero (h : s.reg rn = 0) : exec (.bsize rd rn) s = .next (Spec.failed s .operand) := by
  dsimp only [exec, execBsize]
  rw [src_valid rn s _ hn, if_pos h]
  rfl

theorem exec_bsize_of_ne_zero (h : s.reg rn ≠ 0) :
    exec (.bsize rd rn) s = .next (Spec.completed (Spec.primary s rd (Spec.bs (s.reg rn)))) := by
  dsimp only [exec, execBsize]
  rw [src_valid rn s _ hn, if_neg h, blockSize_eq_bs]
  rfl

end Bsize

/-- Settles O27: the source, its check, and the library's bit length. -/
theorem bsizeWritesBlockSize : Obligations.BsizeWritesBlockSize := by
  refine ⟨fun rd rn => decode_wordR rd rn 0 0 0 (by decide) (by decide) rfl, fun rd rn s => ⟨fun h => ?_, ?_, ?_⟩⟩
  · exact exec_of_not_all_valid rfl (by simpa [Instr.sources] using h)
  · exact fun hn h => exec_bsize_of_zero hn h
  · exact fun hn h => ⟨exec_bsize_of_ne_zero hn h, bs_le_of_lt_two_pow⟩

/-! #### BSPLIT (43_block_codec.md R222, R223) -/

theorem chunkLength_eq (n : Nat) (s : State) : chunkLength n s = min (Spec.bs n) (s.msgLen - s.msgPtr) := by
  rw [chunkLength, blockSize_eq_bs]

theorem chunkValue_eq (n : Nat) (s : State) : chunkValue n s = Spec.beSum s .msg s.msgPtr (chunkLength n s) :=
  be_memRead_eq_beSum s .msg s.msgPtr _

/-- ENCRYPTION never fires: a chunk has at most `bs(n)` bytes (43_block_codec.md R223). -/
theorem chunkValue_lt {n : Nat} (hn : n ≠ 0) (s : State) : chunkValue n s < n :=
  be_lt_of_blockSize n hn _ (by rw [State.length_memRead]; exact Nat.min_le_left _ _)

section Bsplit

variable {s : State} {rd rn : RegIx} (hn : Spec.Valid s rn)
include hn

theorem exec_bsplit_of_zero (h : s.reg rn = 0) : exec (.bsplit rd rn) s = .next (Spec.failed s .operand) := by
  dsimp only [exec, execBsplit]
  rw [src_valid rn s _ hn, if_pos h]
  rfl

theorem exec_bsplit_of_small (h0 : s.reg rn ≠ 0) (h : Spec.bs (s.reg rn) = 0) :
    exec (.bsplit rd rn) s = .next (Spec.failed s .blocksize) := by
  dsimp only [exec, execBsplit]
  rw [src_valid rn s _ hn, if_neg h0, blockSize_eq_bs, if_pos h]
  rfl

variable (hbs : Spec.bs (s.reg rn) ≠ 0)
include hbs

theorem exec_bsplit_of_empty (h : s.msgLen = 0) :
    exec (.bsplit rd rn) s = .next (Spec.failed s .invalidInput) := by
  dsimp only [exec, execBsplit]
  rw [src_valid rn s _ hn, if_neg (ne_zero_of_bs_ne_zero hbs), blockSize_eq_bs, if_neg hbs, if_pos h]
  rfl

theorem exec_bsplit_of_end (h0 : s.msgLen ≠ 0) (h : s.msgLen ≤ s.msgPtr) :
    exec (.bsplit rd rn) s = .next (Spec.completed { s with status := { s.status with e := true } }) := by
  dsimp only [exec, execBsplit]
  rw [src_valid rn s _ hn, if_neg (ne_zero_of_bs_ne_zero hbs), blockSize_eq_bs, if_neg hbs, if_neg h0, if_pos h]
  rfl

theorem exec_bsplit_of_chunk (h : s.msgPtr < s.msgLen) :
    exec (.bsplit rd rn) s =
      .next (Spec.completed (Spec.primary
        { s with
          msgPtr := s.msgPtr + chunkLength (s.reg rn) s
          status := { s.status with e := decide (s.msgLen ≤ s.msgPtr + chunkLength (s.reg rn) s) } }
        rd (chunkValue (s.reg rn) s))) := by
  have h0 := ne_zero_of_bs_ne_zero hbs
  dsimp only [exec, execBsplit]
  rw [src_valid rn s _ hn, if_neg h0, blockSize_eq_bs, if_neg hbs, if_neg (by omega), if_neg (by omega),
    if_neg (Nat.not_le.mpr (chunkValue_lt h0 s))]
  rfl

end Bsplit

/-- Settles O28: the checks in their order, and then the chunk as a sum over its bytes. -/
theorem bsplitTakesNextChunk : Obligations.BsplitTakesNextChunk := by
  refine ⟨fun rd rn => decode_wordR rd rn 0 0 0 (by decide) (by decide) rfl,
    fun rd rn s => ⟨fun h => ?_, ?_, ?_, ?_, ?_, ?_⟩⟩
  · exact exec_of_not_all_valid rfl (by simpa [Instr.sources] using h)
  · exact fun hn h => exec_bsplit_of_zero hn h
  · exact fun hn h0 h => exec_bsplit_of_small hn h0 h
  · exact fun hn hbs h => exec_bsplit_of_empty hn hbs h
  · exact fun hn hbs h0 h => exec_bsplit_of_end hn hbs h0 h
  · rintro hn hbs h k v rfl rfl
    have hx := exec_bsplit_of_chunk (rd := rd) hn hbs h
    rwa [chunkValue_eq, chunkLength_eq] at hx

/-! #### BJOIN (43_block_codec.md R224) -/

section Bjoin

variable {s : State} {rs : RegIx} (hs : Spec.Valid s rs)
include hs

theorem exec_bjoin_of_full (h : s.params.outCap < s.outLen + (mbe (s.reg rs)).length) :
    exec (.bjoin rs) s = .next (Spec.failed s .outfull) := by
  dsimp only [exec, execBjoin]
  rw [src_valid rs s _ hs, if_pos h]
  rfl

theorem exec_bjoin_of_room (h : s.outLen + (mbe (s.reg rs)).length ≤ s.params.outCap) :
    exec (.bjoin rs) s =
      .next (Spec.completed
        { s.outWrite s.outLen (mbe (s.reg rs)) with outLen := s.outLen + (mbe (s.reg rs)).length }) := by
  dsimp only [exec, execBjoin]
  rw [src_valid rs s _ hs, if_neg (Nat.not_lt.mpr h)]
  rfl

end Bjoin

/-- Settles O29: the bytes written are `mbe v`, which denotes `v` and has no leading zero byte. -/
theorem bjoinAppendsMinimalBytes : Obligations.BjoinAppendsMinimalBytes := by
  refine ⟨fun rs => decode_wordR 0 rs 0 0 0 (by decide) (by decide) rfl, fun rs s => ⟨fun h => ?_, fun hs h => ?_,
    fun hs h => ?_⟩⟩
  · exact exec_of_not_all_valid rfl (by simpa [Instr.sources] using h)
  · rw [← length_mbe_eq_size] at h
    exact exec_bjoin_of_full hs h
  · rw [← length_mbe_eq_size] at h ⊢
    refine ⟨_, exec_bjoin_of_room hs h, rfl, ?_, fun h0 => s.byteAt_outWrite_mbe_ne_zero s.outLen h0,
      fun i hi => s.byteAt_outWrite_outside hi⟩
    rw [← be_memRead_eq_beSum]
    exact (congrArg be (s.memRead_outWrite s.outLen (mbe (s.reg rs)))).trans (be_mbe _)

/-! #### One block through BSPLIT and BJOIN (43_block_codec.md R225, R229) -/

theorem mbe_be_memRead {s : State} {b : Buf} {a k : Nat} (hk : 0 < k) (hfirst : s.byteAt b a ≠ 0) :
    mbe (be (s.memRead b a k)) = s.memRead b a k := by
  obtain ⟨k, rfl⟩ := Nat.exists_eq_succ_of_ne_zero hk.ne'
  rw [State.memRead_succ]
  exact mbe_be _ _ hfirst

theorem State.byteAt_eq_of_memRead_eq {s t : State} {b c : Buf} {a a' k : Nat}
    (h : s.memRead b a k = t.memRead c a' k) {j : Nat} (hj : j < k) : s.byteAt b (a + j) = t.byteAt c (a' + j) :=
  List.map_inj_left.mp h j (List.mem_range.mpr hj)

/-- A BSPLIT without an error has passed the checks of its source. -/
theorem checks_of_exec_bsplit {rd rn : RegIx} {s t : State} (h : exec (.bsplit rd rn) s = .next t)
    (herr : t.status.err = false) : Spec.Valid s rn ∧ Spec.bs (s.reg rn) ≠ 0 := by
  have hn : Spec.Valid s rn := not_not.mp fun hn =>
    exec_ne_failed h herr (exec_of_not_all_valid rfl (by simpa [Instr.sources] using hn))
  refine ⟨hn, fun hbs => ?_⟩
  by_cases h0 : s.reg rn = 0
  · exact exec_ne_failed h herr (exec_bsplit_of_zero hn h0)
  · exact exec_ne_failed h herr (exec_bsplit_of_small hn h0 hbs)

/-- With bytes left, a BSPLIT without an error takes a chunk of some `k > 0` bytes. -/
theorem chunk_of_exec_bsplit {rd rn : RegIx} {s t : State} (hptr : s.msgPtr < s.msgLen)
    (h : exec (.bsplit rd rn) s = .next t) (herr : t.status.err = false) :
    ∃ k, 0 < k ∧ t.msgPtr = s.msgPtr + k ∧ t.outLen = s.outLen ∧ t.reg rd = be (s.memRead .msg s.msgPtr k) := by
  obtain ⟨hn, hbs⟩ := checks_of_exec_bsplit h herr
  have hk : 0 < chunkLength (s.reg rn) s := by rw [chunkLength_eq]; omega
  cases (exec_bsplit_of_chunk hn hbs hptr).symm.trans h
  exact ⟨_, hk, rfl, rfl, (s.reg_setReg rd rd _).trans (if_pos rfl)⟩

/-- A BJOIN without an error has put the minimal bytes of the block at the old end. -/
theorem appended_of_exec_bjoin {rs : RegIx} {s t : State} (h : exec (.bjoin rs) s = .next t)
    (herr : t.status.err = false) :
    t.outLen = s.outLen + (mbe (s.reg rs)).length ∧
      t.memRead .out s.outLen (mbe (s.reg rs)).length = mbe (s.reg rs) := by
  obtain ⟨_, ⟨_, rfl⟩, rfl⟩ := writes_of_exec (by simp [Spec.IsMrtest]) h herr
  exact ⟨rfl, s.memRead_outWrite s.outLen _⟩

/-- Settles O31: the chunk does not begin with 0, so it is the minimal representation of its number. -/
theorem splitThenJoinReturnsChunk : Obligations.SplitThenJoinReturnsChunk := by
  intro rd rn s t u hptr hfirst ht hterr hu huerr
  obtain ⟨k, hk, htptr, htout, hreg⟩ := chunk_of_exec_bsplit hptr ht hterr
  obtain ⟨huout, hbytes⟩ := appended_of_exec_bjoin hu huerr
  have hmbe : mbe (t.reg rd) = s.memRead .msg s.msgPtr k := by rw [hreg, mbe_be_memRead hk hfirst]
  rw [hmbe, State.length_memRead, htout] at huout hbytes
  rw [htptr, Nat.add_sub_cancel_left]
  exact ⟨Nat.lt_add_of_pos_right hk, huout, fun j hj => State.byteAt_eq_of_memRead_eq hbytes hj⟩

/-! #### UTF8CHK (43_block_codec.md R226, R227) -/

theorem ByteRange.holds_iff (r : ByteRange) (b : Byte) :
    r.holds b = true ↔ Spec.In r.lo.toNat r.hi.toNat b := by
  simp [ByteRange.holds, Spec.In, BitVec.le_def]

/-- Each byte lies in its range, and there are as many bytes as ranges. -/
def Fits (rs : List ByteRange) (bs : List Byte) : Prop := List.Forall₂ (fun r b => r.holds b = true) rs bs

/-- A scan that expects some ranges takes bytes that fit them, and then scans on. -/
theorem utf8Scan_iff_fits (rs : List ByteRange) (bs : List Byte) :
    utf8Scan rs bs = true ↔ ∃ cs ds, bs = cs ++ ds ∧ Fits rs cs ∧ utf8Scan [] ds = true := by
  induction rs generalizing bs with
  | nil => simp [Fits]
  | cons r rs ih =>
    rw [utf8Scan_cons]
    constructor
    · rintro ⟨b, _, rfl, hb, hscan⟩
      obtain ⟨cs, ds, rfl, hcs, hds⟩ := (ih _).mp hscan
      exact ⟨b :: cs, ds, rfl, .cons hb hcs, hds⟩
    · rintro ⟨_, ds, rfl, _ | ⟨hb, hcs⟩, hds⟩
      exact ⟨_, _, rfl, hb, (ih _).mpr ⟨_, ds, rfl, hcs, hds⟩⟩

/-- The ranges of first bytes rise from row to row. -/
theorem utf8Rows_rising : utf8Rows.Pairwise fun row row' => row.1.hi < row'.1.lo := by decide

/-- A first byte belongs to one row at most, so the first row found is the row. -/
theorem utf8Tail_eq_some_iff (b : Byte) (rs : List ByteRange) :
    utf8Tail b = some rs ↔ ∃ row ∈ utf8Rows, row.1.holds b = true ∧ row.2 = rs := by
  rw [utf8Tail, Option.map_eq_some_iff]
  constructor
  · rintro ⟨row, hfind, rfl⟩
    exact ⟨row, List.mem_of_find?_eq_some hfind, by simpa using List.find?_some hfind, rfl⟩
  · rintro ⟨row, hmem, hb, rfl⟩
    obtain ⟨i, hi, rfl⟩ := List.getElem_of_mem hmem
    refine ⟨_, List.find?_eq_some_iff_getElem.mpr ⟨hb, i, hi, rfl, fun j hj => ?_⟩, rfl⟩
    have hrise := List.pairwise_iff_getElem.mp utf8Rows_rising j i (by omega) hi hj
    simp only [ByteRange.holds, decide_eq_true_eq, Bool.not_eq_true', decide_eq_false_iff_not] at hb ⊢
    bv_omega

/-- At a sequence boundary the scan begins a row of the table. -/
theorem utf8Scan_nil_iff_row (b : Byte) (bs : List Byte) :
    utf8Scan [] (b :: bs) = true ↔ ∃ row ∈ utf8Rows, utf8Scan (row.1 :: row.2) (b :: bs) = true := by
  rw [utf8Scan_nil]
  simp only [utf8Tail_eq_some_iff, utf8Scan, Bool.and_eq_true]
  constructor
  · rintro ⟨_, ⟨row, hmem, hb, rfl⟩, hscan⟩
    exact ⟨row, hmem, hb, hscan⟩
  · rintro ⟨row, hmem, hb, hscan⟩
    exact ⟨_, ⟨row, hmem, hb, rfl⟩, hscan⟩

/-- The sequences of the spec's table are those that fit a row of the model's. -/
theorem utf8Sequence_iff_row (q : List Byte) :
    Spec.Utf8Sequence q ↔ ∃ row ∈ utf8Rows, Fits (row.1 :: row.2) q := by
  match q with
  | [] => simp [Spec.Utf8Sequence, Fits]
  | [a] => simp [Spec.Utf8Sequence, utf8Rows, Fits, ByteRange.holds_iff]
  | [a, b] => simp [Spec.Utf8Sequence, utf8Rows, Fits, ByteRange.holds_iff]
  | [a, b, c] => simp [Spec.Utf8Sequence, utf8Rows, Fits, ByteRange.holds_iff]
  | [a, b, c, d] => simp [Spec.Utf8Sequence, utf8Rows, Fits, ByteRange.holds_iff]
  | a :: b :: c :: d :: e :: q => simp [Spec.Utf8Sequence, utf8Rows, Fits]

theorem utf8Valid_of_sequences {seqs : List (List Byte)} (h : ∀ q ∈ seqs, Spec.Utf8Sequence q) :
    utf8Valid seqs.flatten = true := by
  induction seqs with
  | nil => rfl
  | cons q seqs ih =>
    obtain ⟨hq, hseqs⟩ := List.forall_mem_cons.mp h
    obtain ⟨row, hmem, hfits⟩ := (utf8Sequence_iff_row q).mp hq
    have hscan := (utf8Scan_iff_fits _ (q ++ seqs.flatten)).mpr ⟨q, _, rfl, hfits, ih hseqs⟩
    cases hfits with
    | cons => exact (utf8Scan_nil_iff_row _ _).mpr ⟨row, hmem, hscan⟩

theorem utf8_of_utf8Valid (bs : List Byte) (h : utf8Valid bs = true) : Spec.Utf8 bs := by
  match bs, h with
  | [], _ => exact ⟨[], rfl, by simp⟩
  | b :: bs, h =>
    obtain ⟨row, hmem, hscan⟩ := (utf8Scan_nil_iff_row b bs).mp h
    obtain ⟨q, ds, hq, hfits, hds⟩ := (utf8Scan_iff_fits _ _).mp hscan
    have hshort : ds.length ≤ bs.length := by
      have hlen := congrArg List.length hq
      rw [List.length_append, ← hfits.length_eq, List.length_cons, List.length_cons] at hlen
      omega
    obtain ⟨seqs, hflat, hseqs⟩ := utf8_of_utf8Valid ds hds
    exact ⟨q :: seqs, by rw [List.flatten_cons, hflat, hq],
      List.forall_mem_cons.mpr ⟨(utf8Sequence_iff_row q).mpr ⟨row, hmem, hfits⟩, hseqs⟩⟩
termination_by bs.length

/-- The scan accepts exactly what splits into sequences of the table. -/
theorem utf8Valid_iff (bs : List Byte) : utf8Valid bs = true ↔ Spec.Utf8 bs := by
  refine ⟨utf8_of_utf8Valid bs, ?_⟩
  rintro ⟨seqs, rfl, h⟩
  exact utf8Valid_of_sequences h

/-- Settles O30: the command's check is `utf8Valid`, which `utf8Valid_iff` reads. -/
theorem utf8chkDecidesWellFormedness : Obligations.Utf8chkDecidesWellFormedness := by
  refine ⟨decode_wordR 0 0 0 0 0 (by decide) (by decide) rfl, fun s => ⟨fun h => ?_, fun h => ?_⟩⟩
  · exact if_pos ((utf8Valid_iff _).mpr h)
  · exact if_neg (mt (utf8Valid_iff _).mp h)

/-! #### The RSA identity (43_block_codec.md R228, R229) -/

/-- Fermat's little theorem for every base: exponents that are 1 modulo `p - 1` change nothing modulo `p`. -/
theorem pow_modEq_self_of_prime {p k : Nat} (hp : p.Prime) (hk : p - 1 ∣ k - 1) (h0 : 0 < k) (v : Nat) :
    v ^ k ≡ v [MOD p] := by
  rw [← Int.natCast_modEq_iff]
  simpa using Int.ModEq.pow_eq_pow hp hk h0 Nat.one_pos (v : Int)

theorem pow_mod_eq_self_of_primes {p q k v : Nat} (hp : p.Prime) (hq : q.Prime) (hpq : p ≠ q)
    (hk : k % ((p - 1) * (q - 1)) = 1) (hv : v < p * q) : v ^ k % (p * q) = v := by
  have h0 : 0 < k := Nat.pos_of_ne_zero fun h => by simp [h] at hk
  have hdvd : (p - 1) * (q - 1) ∣ k - 1 := by
    have h := Nat.dvd_sub_mod (n := (p - 1) * (q - 1)) k
    rwa [hk] at h
  have hboth : v ^ k ≡ v [MOD p * q] :=
    (Nat.modEq_and_modEq_iff_modEq_mul ((Nat.coprime_primes hp hq).mpr hpq)).mp
      ⟨pow_modEq_self_of_prime hp (dvd_of_mul_right_dvd hdvd) h0 v,
        pow_modEq_self_of_prime hq (dvd_of_mul_left_dvd hdvd) h0 v⟩
  exact Eq.trans hboth (Nat.mod_eq_of_lt hv)

/-- A MODEXP without an error leaves the power in its destination and no other register changed. -/
theorem reg_of_exec_modexp {rd rb re rm : RegIx} {method : Method} {s t : State}
    (h : exec (.modexp rd rb re rm method) s = .next t) (herr : t.status.err = false) (i : RegIx) :
    t.reg i = if rd = i then s.reg rb ^ s.reg re % s.reg rm else s.reg i := by
  obtain ⟨_, ⟨_, rfl⟩, rfl⟩ := writes_of_exec (by simp [Spec.IsMrtest]) h herr
  exact s.reg_setReg rd i _

/-- Settles O32: both powers are read off the registers, and `v^(e·d) mod n = v` where the first did not write the
second's exponent or modulus. -/
theorem modexpTwiceReturnsBlock : Obligations.ModexpTwiceReturnsBlock := by
  intro p q rc rw rv re rd rn m1 m2 s t u hp hq hpq hn hed hv ht hterr hu huerr
  have hreg := reg_of_exec_modexp ht hterr
  change s.reg rn = p * q at hn
  have hu : ∀ c, c = s.reg rv ^ s.reg re % (p * q) →
      u.reg rw = c ^ (if rc = rd then c else s.reg rd) % (if rc = rn then c else p * q) := by
    rintro c rfl
    rw [reg_of_exec_modexp hu huerr rw, if_pos rfl, hreg, hreg, hreg, if_pos rfl, hn]
  refine ⟨fun hd hn => ?_, hu⟩
  calc u.reg rw = (s.reg rv ^ s.reg re % (p * q)) ^ s.reg rd % (p * q) := by
        rw [hu _ rfl, if_neg hd, if_neg hn]
    _ = s.reg rv ^ (s.reg re * s.reg rd) % (p * q) := by rw [← Nat.pow_mod, ← pow_mul]
    _ = s.reg rv := pow_mod_eq_self_of_primes hp hq hpq hed hv

end Sys2Proof.Machine
end

section
/-! ### Register moves: NOP, MOV, LDI (44_register_moves.md) -/

namespace Sys2Proof.Machine

/-! #### NOP (44_register_moves.md R260) -/

/-- A row refuses a word with one of its reserved bits set (30_encoding.md R98). -/
theorem takeRow_of_not_reservedClear {w mask : Word} (i : Instr) (h : ¬ ReservedClear w mask) :
    takeRow w mask i = .error .reservedBits := if_neg h

/-- The row of NOP fixes every bit, so it matches one word only. -/
theorem eq_zero_of_matches_nop {w : Word} (h : w &&& (Spec.rowOf .nop).2 = (Spec.rowOf .nop).1) : w = 0x00000000#32 :=
  BitVec.and_allOnes.symm.trans h

theorem decode_of_opcode_zero {w : Word} (hopc : w.toNat / 2 ^ 26 = 0) (hne : w ≠ 0x00000000#32) :
    decode w = .error .reservedBits := by
  have hnop : opcOf w = Instr.nop.opcode := BitVec.eq_of_toNat_eq ((toNat_opcOf w).trans hopc)
  rw [decode_eq_takeRow hnop]
  exact takeRow_of_not_reservedClear _ fun hres => hne (eq_zero_of_matches_nop ((matches_iff w .nop).mpr ⟨hnop, hres⟩))

/-- A turn on a pending word that the decoder rejects: such a word matches no row. -/
theorem step_of_decode_error {s : State} {e : DecodeError} (hin : s.inputs = []) (hr : s.rst = false)
    (hb : s.status.busy = true) (h : decode s.lastCmd = .error e) : step s = .next (Spec.failed s .illegal) := by
  refine unmatchedWordsAreIllegal.1 s hin hr hb fun row hrow hw => ?_
  obtain ⟨i, hi, -⟩ := decodeFollowsOpcodeTable.2 s.lastCmd row hrow hw
  cases h.symm.trans hi

/-- Settles O11: the NOP word is the only word that its row matches, and NOP makes no write before it completes. -/
theorem nopOnlyCompletes : Obligations.NopOnlyCompletes := by
  refine ⟨decodeEncodeRoundTrip .nop, fun w => decode_of_opcode_zero, fun s hin hr hb hopc hne => ?_, rfl, fun s => rfl⟩
  exact step_of_decode_error hin hr hb (decode_of_opcode_zero hopc hne)

/-! #### MOV (44_register_moves.md R261) -/

theorem exec_mov_of_valid {s : State} (rd : RegIx) {rs : RegIx} (h : Spec.Valid s rs) :
    exec (.mov rd rs) s = .next (Spec.completed (Spec.primary s rd (s.reg rs))) := by
  dsimp only [exec, execMov]
  rw [src_valid rs s _ h]
  rfl

/-- Settles O12: the source, then its value in the destination. -/
theorem movCopiesRegister : Obligations.MovCopiesRegister := by
  refine ⟨fun rd rs => decode_wordR rd rs 0 0 0 (by decide) (by decide) rfl, fun rd rs s => ⟨fun h => ?_, ?_⟩⟩
  · exact exec_of_not_all_valid rfl (by simpa [Instr.sources] using h)
  · exact exec_mov_of_valid rd

/-! #### LDI (44_register_moves.md R262) -/

theorem toNat_wordI {opc imm22 : Nat} (f1 : RegIx) (hopc : opc < 64) (himm : imm22 < 2 ^ 22) :
    (Spec.wordI opc f1 imm22).toNat = opc * 2 ^ 26 + f1.val * 2 ^ 22 + imm22 := by
  rw [Spec.wordI, BitVec.toNat_ofNat]
  omega

/-- The sum of the fields is format I: no field carries into the next (30_encoding.md R108). -/
theorem wordI_eq_formatI {opc imm22 : Nat} (f1 : RegIx) (hopc : opc < 64) (himm : imm22 < 2 ^ 22) :
    Spec.wordI opc f1 imm22 = formatI (BitVec.ofNat 6 opc) f1 (BitVec.ofNat 22 imm22) := by
  have hsum := toNat_wordI f1 hopc himm
  symm
  apply formatI_eq_of_fields
  case ho =>
    apply BitVec.eq_of_toNat_eq
    rw [toNat_opcOf, hsum, BitVec.toNat_ofNat, Nat.mod_eq_of_lt hopc]
    omega
  case h1 =>
    apply Fin.ext
    rw [f1Of, BitVec.val_toFin, BitVec.extractLsb'_toNat, hsum, Nat.shiftRight_eq_div_pow]
    omega
  case h22 =>
    apply BitVec.eq_of_toNat_eq
    rw [imm22Of, BitVec.extractLsb'_toNat, hsum, BitVec.toNat_ofNat, Nat.shiftRight_zero]
    omega

theorem exec_ldi (rd : RegIx) (imm22 : BitVec 22) (s : State) :
    exec (.ldi rd imm22) s = .next (Spec.completed (Spec.primary s rd imm22.toNat)) := rfl

/-- Settles O13: the word is the encoding of LDI, and the immediate is its own zero extension. -/
theorem ldiLoadsImmediate : Obligations.LdiLoadsImmediate := by
  refine ⟨fun rd imm22 h => ?_, fun rd imm22 s h => ?_⟩
  · rw [wordI_eq_formatI rd (by decide) h]
    exact decodeEncodeRoundTrip (.ldi rd (BitVec.ofNat 22 imm22))
  · rw [exec_ldi, BitVec.toNat_ofNat, Nat.mod_eq_of_lt h]

end Sys2Proof.Machine
end

section
/-! ### The life of a command: issue, execution, completion, interrupt (60_exceptions.md)

A pending command ends by a failure or by a success after its writes (`ended_of_exec`); until its turn comes, no input
of the outside world but the reset input touches what makes it pending (`KeepsPending`). -/

namespace Sys2Proof.Machine

/-! #### The engine's turn (60_exceptions.md R283, R303) -/

theorem step_nil {s : State} (h : s.inputs = []) : step s = engineStep s := by simp only [step, h]

theorem engineStep_of_idle {s : State} (hb : s.status.busy = false) : engineStep s = .next s := by
  simp [engineStep, hb]

theorem engineStep_of_decoded {s : State} {i : Instr} (hr : s.rst = false) (hb : s.status.busy = true)
    (h : decode s.lastCmd = .ok i) : engineStep s = exec i s := by
  simp [engineStep, hr, hb, h]

/-- Settles O8: either way the step is the engine's turn. -/
theorem stepRunsPendingCommand : Obligations.StepRunsPendingCommand := by
  intro s rest i hr hb hi
  refine ⟨fun hin => ?_, fun hin => ?_⟩
  · rw [step_nil hin]
    exact engineStep_of_decoded hr hb hi
  · rw [step_cons hin]
    exact engineStep_of_decoded (s := { s with inputs := rest }) hr hb hi

/-- Settles O9: a placed word is pending, and the next input is the engine's turn. -/
theorem placedWordRunsNext : Obligations.PlacedWordRunsNext := by
  intro s w i hw hi
  have hword : (s.withFetchWord 32 w).lastCmd = BitVec.ofNat 32 w := by
    rw [State.withFetchWord, State.issue_lastCmd, Nat.mod_eq_of_lt hw]
  rw [← hword] at hi ⊢
  exact (stepRunsPendingCommand _ s.inputs i rfl rfl hi).2 rfl

/-! #### How a pending command ends (60_exceptions.md R284 to R287, R304) -/

/-- A command that was pending and is no longer has failed or succeeded. -/
theorem ended_of_exec {i : Instr} {s t : State} (hb : s.status.busy = true) (h : exec i s = .next t)
    (hidle : t.status.busy = false) : (∃ e, Raised i e ∧ t = s.fail e) ∨ ∃ u, Writes i s u ∧ t = u.succeed := by
  obtain ⟨e, he, hx⟩ | ⟨u, hw, hx⟩ | ⟨_, hx | hx⟩ := exec_cases i s <;> cases hx.symm.trans h
  · exact .inl ⟨e, he, rfl⟩
  · exact .inr ⟨u, hw, rfl⟩
  · exact absurd (hb.symm.trans hidle) (by decide)

theorem isMrtest_iff {i : Instr} : Spec.IsMrtest i ↔ ∃ rd rn k, i = .mrtest rd rn k := by
  cases i <;> simp [Spec.IsMrtest]

/-- Settles O35: by the three ends of a command; a failure carries a code, and the writes leave CMDCNT. -/
theorem everyCommandCompletes : Obligations.EveryCommandCompletes := by
  intro i s
  obtain ⟨e, he, hx⟩ | ⟨u, hw, hx⟩ | ⟨hi, hx⟩ := exec_cases i s
  · exact .inl ⟨s.fail e, hx, rfl, rfl, rfl, by simp [he.ne_noError]⟩
  · exact .inl ⟨u.succeed, hx, rfl, rfl, by rw [State.succeed_cmdCnt, hw.keepsRest.cmdCnt], by simp⟩
  · exact .inr ⟨isMrtest_iff.mpr hi, hx⟩

/-- Settles O36: a success has ERR = 0, and a failure keeps the state it began in. -/
theorem errorsArePrecise : Obligations.ErrorsArePrecise := by
  intro i s t hb h hidle herr
  obtain ⟨e, _, rfl⟩ | ⟨u, _, rfl⟩ := ended_of_exec hb h hidle
  · rfl
  · simp at herr

/-- Settles O38: a failure carries a code that the command raises, and a success carries none. -/
theorem reservedCodesNeverRaised : Obligations.ReservedCodesNeverRaised := by
  intro i s t hb h hidle
  obtain ⟨e, he, rfl⟩ | ⟨u, _, rfl⟩ := ended_of_exec hb h hidle
  · exact he.not_reserved
  · simp

/-! #### MRTEST without a base to take (60_exceptions.md R300, R301) -/

/-- After passing bases that are fewer than the rounds, at least one round is left. -/
theorem exists_mrRounds_eq_succ {n k : Nat} (h5 : 5 ≤ n) (hodd : n % 2 = 1) {bases : List Nat}
    (hpass : ∀ a ∈ bases, Spec.InContract n a ∧ Spec.StrongPass n a) (hk : bases.length < k) (rest : List Nat) :
    ∃ m, mrRounds n (decomp (n - 1)).1 (decomp (n - 1)).2 k (bases ++ rest) =
      mrRounds n (decomp (n - 1)).1 (decomp (n - 1)).2 (m + 1) rest := by
  obtain ⟨m, rfl⟩ : ∃ m, k = bases.length + (m + 1) := ⟨k - bases.length - 1, by omega⟩
  exact ⟨m, mrRounds_append _ _ _ _ _ _ fun a ha => (hpass a ha).imp_right (mrRound_iff_strongPass h5 hodd a).mpr⟩

section Waiting

variable {s : State} {rd rn : RegIx} {k : Fin 64} (hn : Spec.Valid s rn) (h5 : 5 ≤ s.reg rn)
  (hodd : s.reg rn % 2 = 1) {bases : List Nat}
  (hpass : ∀ a ∈ bases, Spec.InContract (s.reg rn) a ∧ Spec.StrongPass (s.reg rn) a) (hk : bases.length < k.val)
include hn h5 hodd hpass hk

theorem exec_mrtest_of_no_base (hw : s.witness = bases) : exec (.mrtest rd rn k) s = .next s := by
  obtain ⟨m, hm⟩ := exists_mrRounds_eq_succ h5 hodd hpass hk []
  rw [List.append_nil, ← hw, mrRounds] at hm
  dsimp only [exec, execMrtest]
  rw [src_valid rn s _ hn, (smallCase_eq_none _).mpr ⟨h5, hodd⟩, hm]

theorem exec_mrtest_of_not_inContract {a : Nat} {rest : List Nat} (hw : s.witness = bases ++ a :: rest)
    (ha : ¬ Spec.InContract (s.reg rn) a) : exec (.mrtest rd rn k) s = .refused .witnessOutOfContract := by
  obtain ⟨m, hm⟩ := exists_mrRounds_eq_succ h5 hodd hpass hk (a :: rest)
  rw [← hw, mrRounds, if_neg (show ¬ (2 ≤ a ∧ a ≤ s.reg rn - 2) from ha)] at hm
  dsimp only [exec, execMrtest]
  rw [src_valid rn s _ hn, (smallCase_eq_none _).mpr ⟨h5, hodd⟩, hm]

end Waiting

/-- Settles O15: the round after the passing bases finds no base, or one outside the contract. -/
theorem mrtestWaitsForWitness : Obligations.MrtestWaitsForWitness := by
  intro rd rn k s hn h5 hodd
  refine ⟨fun hk hpass => ?_, fun bases a rest hw hk hpass ha => ?_⟩
  · exact exec_mrtest_of_no_base hn h5 hodd hpass hk rfl
  · exact exec_mrtest_of_not_inContract hn h5 hodd hpass hk hw ha

/-! #### Issue (60_exceptions.md R281, R282) -/

/-- Settles O46: CMD is a register that BUSY locks. -/
theorem cmdWriteIssues : Obligations.CmdWriteIssues := by
  intro s w hr
  refine ⟨fun hb => ?_, fun hb => ?_⟩
  · exact step_writing_reg_idle hr hb .cmd w
  · exact step_writing_locked (CtrlReg.offset_lt .cmd) (targetOf_offset _ .cmd) hr hb rfl w

theorem eq_base_add_of_busOffset {p : Params} {addr off : Nat} (h : busOffset p addr = some off) :
    addr = p.mrtBase + off := by
  unfold busOffset at h
  split at h
  · cases h
    omega
  · cases h

/-- The table of control registers lists each at its offset (20_memory.md R64). -/
theorem offset_ctrlRegs : ∀ k (h : k < 13), (ctrlRegs[k]'h).offset = 4 * k := by decide

/-- A register is reached by full-word accesses of its own offset only. -/
theorem eq_offset_of_targetOf {p : Params} {off : Nat} {lanes : BitVec 4} {r : CtrlReg}
    (h : targetOf p off lanes = some (.reg r)) : off = r.offset ∧ lanes = 0xF#4 := by
  unfold targetOf at h
  split at h
  case isFalse => cases h
  case isTrue hlegal =>
    obtain ⟨h4, hlanes⟩ := hlegal
    refine ⟨?_, hlanes⟩
    unfold targetAt at h
    split_ifs at h
    case pos =>
      obtain ⟨r', hr, heq⟩ := Option.map_eq_some_iff.mp h
      cases heq
      obtain ⟨hk, rfl⟩ := List.getElem?_eq_some_iff.mp hr
      rw [offset_ctrlRegs _ hk]
      omega
    all_goals cases h

/-- What makes a command pending is as it was, and so is what the outside world does next. -/
structure KeepsPending (s u : State) : Prop where
  rst     : u.rst = s.rst
  busy    : u.status.busy = s.status.busy
  lastCmd : u.lastCmd = s.lastCmd
  cmdCnt  : u.cmdCnt = s.cmdCnt
  inputs  : u.inputs = s.inputs

theorem State.writeTarget_keepsPending (s : State) (data : Word) {t : Target} (ht : t ≠ .reg .cmd) :
    KeepsPending s (s.writeTarget data t) := by
  cases t with
  | reg r =>
    cases r with
    | cmd => exact absurd rfl ht
    | _ => constructor <;> rfl
  | _ => constructor <;> rfl

/-- A host write issues a command, which takes a full-word write of CMD to an idle block, or keeps what is pending. -/
theorem State.hostWrite_issues_or_keepsPending (s : State) (addr : Nat) (lanes : BitVec 4) (data : Word) :
    (addr = s.params.mrtBase + 0x18 ∧ lanes = 0xF#4 ∧ s.rst = false ∧ s.status.busy = false ∧
      s.hostWrite addr lanes data = (s.issue data).respond false none) ∨
    KeepsPending s (s.hostWrite addr lanes data) := by
  obtain hx | hx | ⟨_, hx⟩ | ⟨_, _, hx⟩ | ⟨off, t, hr, ho, ht, hl, hx⟩ := s.hostWrite_cases addr lanes data
  case inr.inr.inr.inr =>
    by_cases hcmd : t = .reg .cmd
    · subst hcmd
      obtain ⟨rfl, hlanes⟩ := eq_offset_of_targetOf ht
      have hb : s.status.busy = false := Bool.eq_false_iff.mpr fun hb => Bool.noConfusion (hl hb)
      exact .inl ⟨eq_base_add_of_busOffset ho, hlanes, hr, hb, hx⟩
    · rw [hx]
      exact .inr { s.writeTarget_keepsPending data hcmd with }
  all_goals
    rw [hx]
    exact .inr (by constructor <;> rfl)

theorem State.hostRead_keepsPending (s : State) (addr : Nat) (lanes : BitVec 4) :
    KeepsPending s (s.hostRead addr lanes) := by
  obtain hx | ⟨_, _, _, hx⟩ := s.hostRead_cases addr lanes <;> rw [hx] <;> constructor <;> rfl

/-- Settles O10: of the inputs that an idle block can take, only an issue sets BUSY. -/
theorem idleRestsUntilCommand : Obligations.IdleRestsUntilCommand := by
  refine ⟨fun s hb hin => ?_, fun s t i rest hb hin h hbusy => ?_⟩
  · rw [step_nil hin, engineStep_of_idle hb]
  · have hchange : t.status.busy ≠ s.status.busy := by simp [hb, hbusy]
    rw [step_cons hin] at h
    cases i with
    | write addr lanes data =>
      cases h
      obtain ⟨rfl, rfl, hr, _, hx⟩ | hkeep :=
        State.hostWrite_issues_or_keepsPending { s with inputs := rest } addr lanes data
      · exact ⟨data, rfl, by rw [hx]; rfl, hr⟩
      · exact absurd hkeep.busy hchange
    | read addr lanes =>
      cases h
      exact absurd (State.hostRead_keepsPending _ addr lanes).busy hchange
    | witness base => cases h; exact absurd rfl hchange
    | rst level =>
      cases h
      cases level with
      | false => exact absurd rfl hchange
      | true => cases hbusy
    | engine =>
      cases (engineStep_of_idle (s := { s with inputs := rest }) hb).symm.trans h
      exact absurd rfl hchange

/-! #### Completion in a bound (60_exceptions.md R286; 70_reset_and_hazards.md R332) -/

/-- While BUSY = 1 an input that is neither a turn of the engine nor the reset input leaves the command pending. -/
theorem handleInput_keepsPending {s : State} {i : Input} (hb : s.status.busy = true) (hengine : i ≠ .engine)
    (hrst : ∀ level, i ≠ .rst level) : ∃ u, handleInput i s = .next u ∧ KeepsPending s u := by
  cases i with
  | write addr lanes data =>
    refine ⟨_, rfl, (s.hostWrite_issues_or_keepsPending addr lanes data).resolve_left ?_⟩
    rintro ⟨-, -, -, hidle, -⟩
    exact absurd (hb.symm.trans hidle) (by decide)
  | read addr lanes => exact ⟨_, rfl, s.hostRead_keepsPending addr lanes⟩
  | witness base => exact ⟨{ s with witness := s.witness ++ [base] }, rfl, by constructor <;> rfl⟩
  | rst level => exact absurd rfl (hrst level)
  | engine => exact absurd rfl hengine

/-- A turn of the engine completes any pending word but an MRTEST. -/
theorem engineStep_completes {s : State} (hr : s.rst = false) (hb : s.status.busy = true)
    (hi : ∀ rd rn k, decode s.lastCmd ≠ .ok (.mrtest rd rn k)) :
    ∃ t, engineStep s = .next t ∧ t.status.busy = false ∧ t.status.done = true ∧ t.cmdCnt = s.cmdCnt + 1 := by
  cases hdec : decode s.lastCmd with
  | error e => exact ⟨_, engineStep_of_not_decoded hr hb (by simp [hdec]), rfl, rfl, rfl⟩
  | ok i =>
    obtain ⟨t, ht, hbusy, hdone, hcnt, -⟩ | ⟨hmrtest, -⟩ := everyCommandCompletes i s
    · exact ⟨t, (engineStep_of_decoded hr hb hdec).trans ht, hbusy, hdone, hcnt⟩
    · obtain ⟨rd, rn, k, rfl⟩ := isMrtest_iff.mp hmrtest
      exact absurd hdec (hi rd rn k)

theorem run_succ_of_step {M : Host.Core} {s t : M.State} (h : M.step s = .next t) (k : Nat) :
    M.run (k + 1) s = M.run k t := by
  rw [Host.Core.run, h]

/-- Settles O45, by induction on the pending inputs: each is a turn of the engine or leaves the command pending. -/
theorem pendingCommandCompletesInBound : Obligations.PendingCommandCompletesInBound := by
  intro s hr hb hi hrst
  induction hin : s.inputs generalizing s with
  | nil =>
    obtain ⟨t, ht, hend⟩ := engineStep_completes hr hb hi
    exact ⟨1, t, le_rfl, run_succ_of_step ((step_nil hin).trans ht) 0, hend⟩
  | cons i rest ih =>
    rw [hin] at hrst
    have hstep := step_cons hin
    by_cases hengine : i = .engine
    · subst hengine
      obtain ⟨t, ht, hend⟩ := engineStep_completes (s := { s with inputs := rest }) hr hb hi
      exact ⟨1, t, by simp, run_succ_of_step (hstep.trans ht) 0, hend⟩
    · obtain ⟨u, hu, hkeep⟩ := handleInput_keepsPending (s := { s with inputs := rest }) hb hengine
        (fun level h => hrst level (by simp [h]))
      obtain ⟨k, t, hk, ht, hbusy, hdone, hcnt⟩ := ih u (hkeep.rst.trans hr) (hkeep.busy.trans hb)
        (by rw [hkeep.lastCmd]; exact hi) (fun level h => hrst level (by rw [hkeep.inputs] at h; simp [h])) hkeep.inputs
      exact ⟨k + 1, t, by simpa using hk, (run_succ_of_step (hstep.trans hu) k).trans ht, hbusy, hdone,
        hcnt.trans (by rw [hkeep.cmdCnt])⟩

/-! #### The interrupt output (60_exceptions.md R293, R294) -/

theorem State.irq_eq_ie {t : State} (h : t.status.done = true) : t.irq = t.ie := by rw [State.irq, h, Bool.true_and]

theorem State.irq_eq_false {t : State} (h : t.status.done = false) : t.irq = false := by
  rw [State.irq, h, Bool.false_and]

/-- Settles O60: `irq` reads DONE and IE, and each of the four events sets one of the two. -/
theorem interruptFollowsDone : Obligations.InterruptFollowsDone := by
  refine ⟨fun s => by simp [State.irq], fun i s t h hb hidle => ?_, fun s t w hr hb h => ?_, fun s t w hr hw h => ?_,
    fun s t w hr h => ?_⟩
  · obtain ⟨e, -, rfl⟩ | ⟨u, hw, rfl⟩ := ended_of_exec hb h hidle
    · exact State.irq_eq_ie rfl
    · exact (State.irq_eq_ie rfl).trans hw.keepsRest.ie
  · cases ((cmdWriteIssues s w hr).1 hb).symm.trans h
    exact State.irq_eq_false rfl
  · cases (step_writing_reg hr .status rfl w).symm.trans h
    refine State.irq_eq_false ?_
    show (s.status.done && !w.getLsbD 1) = false
    rw [hw, Bool.not_true, Bool.and_false]
  · cases (step_writing_reg hr .ctrl rfl w).symm.trans h
    rfl

end Sys2Proof.Machine
end

section
/-! ### The reset input (70_reset_and_hazards.md R320 to R322)

Under reset every input but `rst` itself, and the engine's turn, change only what lies outside the block: the pending
inputs, the bases delivered, the response and the counter of free values (`step_of_rst`). None of these is a register. -/

namespace Sys2Proof.Machine

section UnderReset

variable {s : State} (hr : s.rst = true)
include hr

theorem engineStep_of_rst : engineStep s = .next s := by rw [engineStep, if_pos hr]

/-- The host can write nothing: at most it is answered. -/
theorem State.hostWrite_of_rst (addr : Nat) (lanes : BitVec 4) (data : Word) :
    ∃ resp, s.hostWrite addr lanes data = { s with resp := resp } := by
  obtain hx | hx | ⟨-, hx⟩ | ⟨hrun, -⟩ | ⟨_, _, hrun, -⟩ := s.hostWrite_cases addr lanes data
  · exact ⟨s.resp, hx⟩
  · exact ⟨_, hx⟩
  · exact ⟨_, hx⟩
  all_goals exact absurd (hr.symm.trans hrun) (by decide)

/-- A read in the block's window returns 0, with or without a target. -/
theorem State.hostRead_of_rst {off : Nat} (ho : off < 0x10000) (lanes : BitVec 4) :
    ∃ error, s.hostRead (s.params.mrtBase + off) lanes = s.respond error (some 0#32) := by
  cases ht : targetOf s.params off lanes with
  | none => exact ⟨true, State.hostRead_of_no_target ho ht⟩
  | some t => exact ⟨false, by simp only [State.hostRead, busOffset_base_add _ _ ho, ht, if_pos hr]⟩

theorem handleInput_of_rst {i : Input} (hi : ∀ level, i ≠ .rst level) :
    ∃ witness resp draws,
      handleInput i s = .next { s with witness := witness, resp := resp, draws := draws } := by
  cases i with
  | write addr lanes data =>
    obtain ⟨resp, hx⟩ := State.hostWrite_of_rst hr addr lanes data
    exact ⟨s.witness, resp, s.draws, congrArg Host.Outcome.next hx⟩
  | read addr lanes =>
    obtain hx | ⟨error, d, draws, hx⟩ := s.hostRead_cases addr lanes
    · exact ⟨s.witness, s.resp, s.draws, congrArg Host.Outcome.next hx⟩
    · exact ⟨s.witness, some { error := error, data := some d }, draws, congrArg Host.Outcome.next hx⟩
  | witness base => exact ⟨s.witness ++ [base], s.resp, s.draws, rfl⟩
  | rst level => exact absurd rfl (hi level)
  | engine => exact ⟨s.witness, s.resp, s.draws, engineStep_of_rst hr⟩

theorem step_of_rst (hin : ∀ level rest, s.inputs ≠ .rst level :: rest) :
    ∃ inputs witness resp draws,
      step s = .next { s with inputs := inputs, witness := witness, resp := resp, draws := draws } := by
  obtain ⟨-, hx⟩ | ⟨i, rest, hi, hx⟩ := step_cases s <;> rw [hx]
  · exact ⟨s.inputs, s.witness, s.resp, s.draws, engineStep_of_rst hr⟩
  · exact ⟨rest, handleInput_of_rst (s := { s with inputs := rest }) hr fun level h => hin level rest (h ▸ hi)⟩

end UnderReset

/-- Settles O59: `rst` = 1 assigns the reset values, then nothing but `rst` reaches a register (`step_of_rst`), and
`rst` = 0 changes no other field. -/
theorem resetInputHoldsState : Obligations.ResetInputHoldsState := by
  refine ⟨fun s rest hin => ?_, fun s t hr h hin ht => ?_, fun s off hr ho => ?_, fun s rest hr h hin => ?_⟩
  · exact ⟨_, step_cons hin, State.assertReset_atReset _, rfl, rfl, rfl⟩
  · obtain ⟨inputs, witness, resp, draws, hx⟩ := step_of_rst hr hin
    cases hx.symm.trans ht
    exact ⟨h.outside inputs witness resp draws, hr⟩
  · obtain ⟨error, hx⟩ := State.hostRead_of_rst hr ho 0xF#4
    exact ⟨error, congrArg Host.Outcome.next hx⟩
  · exact ⟨_, step_cons hin, { h with }, rfl⟩

end Sys2Proof.Machine
end
